-- ==== Sys2Proof/Word.lean ====
section
/-! DEFINITION. The two word types of the machine (00_scope.md R7, R8). -/

namespace Sys2Proof

/-- An 8-bit quantity: registers A, X, Y, S, P and every bus datum. -/
abbrev Byte := BitVec 8

/-- A 16-bit quantity: PC and bus addresses. -/
abbrev Word := BitVec 16

end Sys2Proof
end

