-- ==== Sys2Proof/Machine/Bits.lean ====
section
/-! DEFINITION. Bit-field, extension and byte-order helpers (00_scope.md R8). -/

namespace Sys2Proof

/-- `hi(w) = w[15:8]`. -/
def hi (w : Word) : Byte := w.extractLsb' 8 8

/-- `lo(w) = w[7:0]`. -/
def lo (w : Word) : Byte := w.extractLsb' 0 8

/-- `word(h, l) = h*256 + l`. -/
def word (h l : Byte) : Word := h ++ l

/-- A Byte as a Word, upper bits 0: a zero-page address, or an index added to an address. -/
def zext (b : Byte) : Word := b.setWidth 16

/-- `sext8`: a Byte as the signed displacement -128..127, as a Word. -/
def sext8 (b : Byte) : Word := b.signExtend 16

/-- The value of a Bool as a bit. -/
def bit (b : Bool) : Nat := if b then 1 else 0

/-- The three bytes, first byte lowest, of an instruction whose bits from `nbits` up are 0. -/
def tableBytes (nbits w : Nat) : List Byte :=
  let v := w % 2 ^ nbits
  [BitVec.ofNat 8 v, BitVec.ofNat 8 (v / 256), BitVec.ofNat 8 (v / 65536)]

end Sys2Proof
end

