-- ==== Sys2Proof/Syntax.lean ====
section
/-! DEFINITION. The instructions as syntax: addressing modes, operands, mnemonics and `Instr`,
one constructor for each mnemonic of spec/opcode_table.json (30_encoding.md R134 to R138). Where the
table gives a mnemonic several rows, they differ in the addressing mode, which is its operand's
constructor; `WellFormed` admits exactly the rows of the table. -/

namespace Sys2Proof

/-- The addressing-mode codes of 30_encoding.md R134. -/
inductive Mode where
  | imp | acc | imm | zpg | zpx | zpy | abs | abx | aby | ind | idx | idy | zpi | iax | rel | by2 | by3
  deriving DecidableEq, Repr

/-- An operand with its operand bytes, as 30_encoding.md R133 assembles them: a Byte for the two-byte
modes, the little-endian Word for the three-byte modes. -/
inductive Operand where
  /-- implied: no operand -/
  | imp
  /-- accumulator, `A` -/
  | acc
  /-- immediate, `#$nn` -/
  | imm (b : Byte)
  /-- zero page, `$nn` -/
  | zpg (b : Byte)
  /-- zero page indexed by X, `$nn,X` -/
  | zpx (b : Byte)
  /-- zero page indexed by Y, `$nn,Y` -/
  | zpy (b : Byte)
  /-- absolute, `$nnnn` -/
  | abs (w : Word)
  /-- absolute indexed by X, `$nnnn,X` -/
  | abx (w : Word)
  /-- absolute indexed by Y, `$nnnn,Y` -/
  | aby (w : Word)
  /-- indirect, `($nnnn)` -/
  | ind (w : Word)
  /-- indexed indirect, `($nn,X)` -/
  | idx (b : Byte)
  /-- indirect indexed, `($nn),Y` -/
  | idy (b : Byte)
  /-- zero-page indirect, `($nn)` -/
  | zpi (b : Byte)
  /-- absolute indexed indirect, `($nnnn,X)` -/
  | iax (w : Word)
  /-- relative: the displacement byte -/
  | rel (b : Byte)
  /-- two-byte placeholder: the ignored byte -/
  | by2 (b : Byte)
  /-- three-byte placeholder: the two ignored bytes -/
  | by3 (w : Word)
  deriving DecidableEq, Repr

/-- The addressing mode of an operand. -/
def Operand.mode : Operand → Mode
  | .imp => .imp
  | .acc => .acc
  | .imm _ => .imm
  | .zpg _ => .zpg
  | .zpx _ => .zpx
  | .zpy _ => .zpy
  | .abs _ => .abs
  | .abx _ => .abx
  | .aby _ => .aby
  | .ind _ => .ind
  | .idx _ => .idx
  | .idy _ => .idy
  | .zpi _ => .zpi
  | .iax _ => .iax
  | .rel _ => .rel
  | .by2 _ => .by2
  | .by3 _ => .by3

/-- The mnemonics of spec/opcode_table.json (30_encoding.md R136). -/
inductive Mnemonic where
  | adc | and | asl | bcc | bcs | beq | bit | bmi | bne | bpl | bra
  | brk | bvc | bvs | clc | cld | cli | clv | cmp | cpx | cpy | dec
  | dex | dey | eor | inc | inx | iny | jmp | jsr | lda | ldx | ldy
  | lsr | nop | nop1 | nop2 | nop3 | ora | pha | php | phx | phy | pla
  | plp | plx | ply | rol | ror | rti | rts | sbc | sec | sed | sei
  | sta | stx | sty | stz | tax | tay | trb | tsb | tsx | txa | txs
  | tya
  deriving DecidableEq, Repr

/-- The instructions. NOP1, NOP2 and NOP3 are constructors of their own, so that a claim can exclude
programs that use the reserved bytes (30_encoding.md R138). -/
inductive Instr where
  /-- ADC: add with carry (R211) -/
  | adc (o : Operand)
  /-- AND: logical and (R240) -/
  | and (o : Operand)
  /-- ASL: arithmetic shift left (R247) -/
  | asl (o : Operand)
  /-- BCC: branch if C is 0 (R301) -/
  | bcc (d : Byte)
  /-- BCS: branch if C is 1 (R302) -/
  | bcs (d : Byte)
  /-- BEQ: branch if Z is 1 (R303) -/
  | beq (d : Byte)
  /-- BIT: bit test (immediate form: R244) (R243) -/
  | bit (o : Operand)
  /-- BMI: branch if N is 1 (R305) -/
  | bmi (d : Byte)
  /-- BNE: branch if Z is 0 (R304) -/
  | bne (d : Byte)
  /-- BPL: branch if N is 0 (R306) -/
  | bpl (d : Byte)
  /-- BRA: branch always (R309) -/
  | bra (d : Byte)
  /-- BRK: software trap (R315) -/
  | brk
  /-- BVC: branch if V is 0 (R307) -/
  | bvc (d : Byte)
  /-- BVS: branch if V is 1 (R308) -/
  | bvs (d : Byte)
  /-- CLC: clear C (R280) -/
  | clc
  /-- CLD: clear D (R284) -/
  | cld
  /-- CLI: clear I (R282) -/
  | cli
  /-- CLV: clear V (R286) -/
  | clv
  /-- CMP: compare A (R214) -/
  | cmp (o : Operand)
  /-- CPX: compare X (R215) -/
  | cpx (o : Operand)
  /-- CPY: compare Y (R216) -/
  | cpy (o : Operand)
  /-- DEC: decrement memory or A (R218) -/
  | dec (o : Operand)
  /-- DEX: decrement X (R221) -/
  | dex
  /-- DEY: decrement Y (R222) -/
  | dey
  /-- EOR: exclusive or (R242) -/
  | eor (o : Operand)
  /-- INC: increment memory or A (R217) -/
  | inc (o : Operand)
  /-- INX: increment X (R219) -/
  | inx
  /-- INY: increment Y (R220) -/
  | iny
  /-- JMP: jump (R310) -/
  | jmp (o : Operand)
  /-- JSR: jump to subroutine (R313) -/
  | jsr (target : Word)
  /-- LDA: load A (R180) -/
  | lda (o : Operand)
  /-- LDX: load X (R181) -/
  | ldx (o : Operand)
  /-- LDY: load Y (R182) -/
  | ldy (o : Operand)
  /-- LSR: logical shift right (R248) -/
  | lsr (o : Operand)
  /-- NOP: no operation (R317) -/
  | nop
  /-- NOP1: reserved one-byte no-op, with its opcode byte (R318) -/
  | nop1 (op : Byte)
  /-- NOP2: reserved two-byte no-op, with its opcode byte and the ignored byte (R319) -/
  | nop2 (op ignored : Byte)
  /-- NOP3: reserved three-byte no-op, with its opcode byte and the two ignored bytes (R320) -/
  | nop3 (op : Byte) (ignored : Word)
  /-- ORA: logical or (R241) -/
  | ora (o : Operand)
  /-- PHA: push A (R272) -/
  | pha
  /-- PHP: push P (R273) -/
  | php
  /-- PHX: push X (R274) -/
  | phx
  /-- PHY: push Y (R275) -/
  | phy
  /-- PLA: pull A (R276) -/
  | pla
  /-- PLP: pull P (R277) -/
  | plp
  /-- PLX: pull X (R278) -/
  | plx
  /-- PLY: pull Y (R279) -/
  | ply
  /-- ROL: rotate left through C (R249) -/
  | rol (o : Operand)
  /-- ROR: rotate right through C (R250) -/
  | ror (o : Operand)
  /-- RTI: return from trap (R316) -/
  | rti
  /-- RTS: return from subroutine (R314) -/
  | rts
  /-- SBC: subtract with borrow (R213) -/
  | sbc (o : Operand)
  /-- SEC: set C (R281) -/
  | sec
  /-- SED: set D (R285) -/
  | sed
  /-- SEI: set I (R283) -/
  | sei
  /-- STA: store A (R183) -/
  | sta (o : Operand)
  /-- STX: store X (R184) -/
  | stx (o : Operand)
  /-- STY: store Y (R185) -/
  | sty (o : Operand)
  /-- STZ: store zero (R186) -/
  | stz (o : Operand)
  /-- TAX: A to X (R187) -/
  | tax
  /-- TAY: A to Y (R188) -/
  | tay
  /-- TRB: test and reset bits (R246) -/
  | trb (o : Operand)
  /-- TSB: test and set bits (R245) -/
  | tsb (o : Operand)
  /-- TSX: S to X (R191) -/
  | tsx
  /-- TXA: X to A (R189) -/
  | txa
  /-- TXS: X to S (R192) -/
  | txs
  /-- TYA: Y to A (R190) -/
  | tya
  deriving DecidableEq, Repr

/-- The mnemonic of an instruction. -/
def Instr.mnemonic : Instr → Mnemonic
  | .adc _ => .adc
  | .and _ => .and
  | .asl _ => .asl
  | .bcc _ => .bcc
  | .bcs _ => .bcs
  | .beq _ => .beq
  | .bit _ => .bit
  | .bmi _ => .bmi
  | .bne _ => .bne
  | .bpl _ => .bpl
  | .bra _ => .bra
  | .brk => .brk
  | .bvc _ => .bvc
  | .bvs _ => .bvs
  | .clc => .clc
  | .cld => .cld
  | .cli => .cli
  | .clv => .clv
  | .cmp _ => .cmp
  | .cpx _ => .cpx
  | .cpy _ => .cpy
  | .dec _ => .dec
  | .dex => .dex
  | .dey => .dey
  | .eor _ => .eor
  | .inc _ => .inc
  | .inx => .inx
  | .iny => .iny
  | .jmp _ => .jmp
  | .jsr _ => .jsr
  | .lda _ => .lda
  | .ldx _ => .ldx
  | .ldy _ => .ldy
  | .lsr _ => .lsr
  | .nop => .nop
  | .nop1 _ => .nop1
  | .nop2 _ _ => .nop2
  | .nop3 _ _ => .nop3
  | .ora _ => .ora
  | .pha => .pha
  | .php => .php
  | .phx => .phx
  | .phy => .phy
  | .pla => .pla
  | .plp => .plp
  | .plx => .plx
  | .ply => .ply
  | .rol _ => .rol
  | .ror _ => .ror
  | .rti => .rti
  | .rts => .rts
  | .sbc _ => .sbc
  | .sec => .sec
  | .sed => .sed
  | .sei => .sei
  | .sta _ => .sta
  | .stx _ => .stx
  | .sty _ => .sty
  | .stz _ => .stz
  | .tax => .tax
  | .tay => .tay
  | .trb _ => .trb
  | .tsb _ => .tsb
  | .tsx => .tsx
  | .txa => .txa
  | .txs => .txs
  | .tya => .tya

/-- The operand of an instruction, in the mode its resolver uses. -/
def Instr.operand : Instr → Operand
  | .adc o => o
  | .and o => o
  | .asl o => o
  | .bcc d => .rel d
  | .bcs d => .rel d
  | .beq d => .rel d
  | .bit o => o
  | .bmi d => .rel d
  | .bne d => .rel d
  | .bpl d => .rel d
  | .bra d => .rel d
  | .brk => .imp
  | .bvc d => .rel d
  | .bvs d => .rel d
  | .clc => .imp
  | .cld => .imp
  | .cli => .imp
  | .clv => .imp
  | .cmp o => o
  | .cpx o => o
  | .cpy o => o
  | .dec o => o
  | .dex => .imp
  | .dey => .imp
  | .eor o => o
  | .inc o => o
  | .inx => .imp
  | .iny => .imp
  | .jmp o => o
  | .jsr w => .abs w
  | .lda o => o
  | .ldx o => o
  | .ldy o => o
  | .lsr o => o
  | .nop => .imp
  | .nop1 _ => .imp
  | .nop2 _ b => .by2 b
  | .nop3 _ w => .by3 w
  | .ora o => o
  | .pha => .imp
  | .php => .imp
  | .phx => .imp
  | .phy => .imp
  | .pla => .imp
  | .plp => .imp
  | .plx => .imp
  | .ply => .imp
  | .rol o => o
  | .ror o => o
  | .rti => .imp
  | .rts => .imp
  | .sbc o => o
  | .sec => .imp
  | .sed => .imp
  | .sei => .imp
  | .sta o => o
  | .stx o => o
  | .sty o => o
  | .stz o => o
  | .tax => .imp
  | .tay => .imp
  | .trb o => o
  | .tsb o => o
  | .tsx => .imp
  | .txa => .imp
  | .txs => .imp
  | .tya => .imp

end Sys2Proof
end

