-- ==== Sys2Proof/WellFormed.lean ====
section
/-! DEFINITION. Which instructions exist: the mnemonic and mode pairs of 30_encoding.md R136, and the
opcode bytes that the reserved no-ops may carry (R138). -/

namespace Sys2Proof

/-- The modes of the eight instructions that read memory or an immediate through A (R136). -/
def accumulatorModes : List Mode := [.idx, .zpg, .imm, .abs, .idy, .zpi, .zpx, .aby, .abx]

/-- The modes of the shifts, INC and DEC (R136). -/
def modifyModes : List Mode := [.zpg, .acc, .abs, .zpx, .abx]

/-- The modes in which the opcode map has a mnemonic (30_encoding.md R136). -/
def Mnemonic.modes : Mnemonic → List Mode
  | .adc => accumulatorModes
  | .and => accumulatorModes
  | .asl => modifyModes
  | .bcc => [.rel]
  | .bcs => [.rel]
  | .beq => [.rel]
  | .bit => [.zpg, .abs, .zpx, .abx, .imm]
  | .bmi => [.rel]
  | .bne => [.rel]
  | .bpl => [.rel]
  | .bra => [.rel]
  | .brk => [.imp]
  | .bvc => [.rel]
  | .bvs => [.rel]
  | .clc => [.imp]
  | .cld => [.imp]
  | .cli => [.imp]
  | .clv => [.imp]
  | .cmp => accumulatorModes
  | .cpx => [.imm, .zpg, .abs]
  | .cpy => [.imm, .zpg, .abs]
  | .dec => modifyModes
  | .dex => [.imp]
  | .dey => [.imp]
  | .eor => accumulatorModes
  | .inc => modifyModes
  | .inx => [.imp]
  | .iny => [.imp]
  | .jmp => [.abs, .ind, .iax]
  | .jsr => [.abs]
  | .lda => accumulatorModes
  | .ldx => [.imm, .zpg, .abs, .zpy, .aby]
  | .ldy => [.imm, .zpg, .abs, .zpx, .abx]
  | .lsr => modifyModes
  | .nop => [.imp]
  | .nop1 => [.imp]
  | .nop2 => [.by2]
  | .nop3 => [.by3]
  | .ora => accumulatorModes
  | .pha => [.imp]
  | .php => [.imp]
  | .phx => [.imp]
  | .phy => [.imp]
  | .pla => [.imp]
  | .plp => [.imp]
  | .plx => [.imp]
  | .ply => [.imp]
  | .rol => modifyModes
  | .ror => modifyModes
  | .rti => [.imp]
  | .rts => [.imp]
  | .sbc => accumulatorModes
  | .sec => [.imp]
  | .sed => [.imp]
  | .sei => [.imp]
  | .sta => [.idx, .zpg, .abs, .idy, .zpi, .zpx, .aby, .abx]
  | .stx => [.zpg, .abs, .zpy]
  | .sty => [.zpg, .abs, .zpx]
  | .stz => [.zpg, .zpx, .abs, .abx]
  | .tax => [.imp]
  | .tay => [.imp]
  | .trb => [.zpg, .abs]
  | .tsb => [.zpg, .abs]
  | .tsx => [.imp]
  | .txa => [.imp]
  | .txs => [.imp]
  | .tya => [.imp]

/-- The 64 one-byte reserved opcodes: columns x3, x7, xB and xF (30_encoding.md R138). -/
def isNop1Byte (op : Byte) : Bool := [0x3, 0x7, 0xB, 0xF].contains (op.toNat % 16)

/-- The 11 two-byte reserved opcodes (30_encoding.md R138). -/
def nop2Bytes : List Byte := [0x02, 0x22, 0x42, 0x62, 0x82, 0xC2, 0xE2, 0x44, 0x54, 0xD4, 0xF4]

/-- The 3 three-byte reserved opcodes (30_encoding.md R138). -/
def nop3Bytes : List Byte := [0x5C, 0xDC, 0xFC]

/-- A reserved no-op carries one of the bytes reserved for its length. -/
def Instr.reservedByteOk : Instr → Bool
  | .nop1 op => isNop1Byte op
  | .nop2 op _ => nop2Bytes.contains op
  | .nop3 op _ => nop3Bytes.contains op
  | .adc _ | .and _ | .asl _ | .bcc _ | .bcs _ | .beq _
  | .bit _ | .bmi _ | .bne _ | .bpl _ | .bra _ | .brk
  | .bvc _ | .bvs _ | .clc | .cld | .cli | .clv
  | .cmp _ | .cpx _ | .cpy _ | .dec _ | .dex | .dey
  | .eor _ | .inc _ | .inx | .iny | .jmp _ | .jsr _
  | .lda _ | .ldx _ | .ldy _ | .lsr _ | .nop | .ora _
  | .pha | .php | .phx | .phy | .pla | .plp
  | .plx | .ply | .rol _ | .ror _ | .rti | .rts
  | .sbc _ | .sec | .sed | .sei | .sta _ | .stx _
  | .sty _ | .stz _ | .tax | .tay | .trb _ | .tsb _
  | .tsx | .txa | .txs | .tya => true

/-- An instruction of the machine: its mode is one the opcode map gives its mnemonic, and a reserved
no-op's opcode byte is one of those reserved for it. -/
def Instr.wf (i : Instr) : Bool := i.mnemonic.modes.contains i.operand.mode && i.reservedByteOk

end Sys2Proof
end

