-- ==== Sys2Proof/Decode.lean ====
section
/-! DEFINITION. Decoding (total on any bytes, rejecting by name) and, after it, encoding. The decoder is
written from the opcode map of 30_encoding.md R135 (one row of the map for each high nibble), the
encoder from the list by mnemonic of R136, so that each checks the other. -/

namespace Sys2Proof

/-- The length in bytes of an instruction in each mode (30_encoding.md R131, R134): format F1, F2 or F3. -/
def Mode.length : Mode → Nat
  | .imp | .acc => 1
  | .imm | .zpg | .zpx | .zpy | .idx | .idy | .zpi | .rel | .by2 => 2
  | .abs | .abx | .aby | .ind | .iax | .by3 => 3

/-- The length in bytes of an instruction with this operand. -/
def Operand.length (o : Operand) : Nat := o.mode.length

/-- The length in bytes of an instruction. -/
def Instr.length (i : Instr) : Nat := i.operand.length

/-- The per-opcode PC advance of 30_encoding.md R136 is 0 exactly for these. -/
def Mnemonic.setsPc : Mnemonic → Bool
  | .brk | .jmp | .jsr | .rti | .rts => true
  | .bcc | .bcs | .beq | .bmi | .bne | .bpl | .bra | .bvc | .bvs => true
  | .adc | .and | .asl | .bit | .clc | .cld | .cli | .clv | .cmp | .cpx | .cpy
  | .dec | .dex | .dey | .eor | .inc | .inx | .iny | .lda | .ldx | .ldy | .lsr
  | .nop | .nop1 | .nop2 | .nop3 | .ora | .pha | .php | .phx | .phy | .pla | .plp
  | .plx | .ply | .rol | .ror | .sbc | .sec | .sed | .sei | .sta | .stx | .sty
  | .stz | .tax | .tay | .trb | .tsb | .tsx | .txa | .txs | .tya => false

/-- The per-opcode PC advance of 30_encoding.md R136: the length, or 0 for instructions that set PC. -/
def advance (m : Mnemonic) (o : Operand) : Word := if m.setsPc then 0 else BitVec.ofNat 16 o.length

/-! ## The opcode map, 30_encoding.md R135 -/

/-- Row 0x of the opcode map. -/
def opcodeRow0 : List (Mnemonic × Mode) :=
  [(.brk, .imp), (.ora, .idx), (.nop2, .by2), (.nop1, .imp),
   (.tsb, .zpg), (.ora, .zpg), (.asl, .zpg), (.nop1, .imp),
   (.php, .imp), (.ora, .imm), (.asl, .acc), (.nop1, .imp),
   (.tsb, .abs), (.ora, .abs), (.asl, .abs), (.nop1, .imp)]

/-- Row 1x of the opcode map. -/
def opcodeRow1 : List (Mnemonic × Mode) :=
  [(.bpl, .rel), (.ora, .idy), (.ora, .zpi), (.nop1, .imp),
   (.trb, .zpg), (.ora, .zpx), (.asl, .zpx), (.nop1, .imp),
   (.clc, .imp), (.ora, .aby), (.inc, .acc), (.nop1, .imp),
   (.trb, .abs), (.ora, .abx), (.asl, .abx), (.nop1, .imp)]

/-- Row 2x of the opcode map. -/
def opcodeRow2 : List (Mnemonic × Mode) :=
  [(.jsr, .abs), (.and, .idx), (.nop2, .by2), (.nop1, .imp),
   (.bit, .zpg), (.and, .zpg), (.rol, .zpg), (.nop1, .imp),
   (.plp, .imp), (.and, .imm), (.rol, .acc), (.nop1, .imp),
   (.bit, .abs), (.and, .abs), (.rol, .abs), (.nop1, .imp)]

/-- Row 3x of the opcode map. -/
def opcodeRow3 : List (Mnemonic × Mode) :=
  [(.bmi, .rel), (.and, .idy), (.and, .zpi), (.nop1, .imp),
   (.bit, .zpx), (.and, .zpx), (.rol, .zpx), (.nop1, .imp),
   (.sec, .imp), (.and, .aby), (.dec, .acc), (.nop1, .imp),
   (.bit, .abx), (.and, .abx), (.rol, .abx), (.nop1, .imp)]

/-- Row 4x of the opcode map. -/
def opcodeRow4 : List (Mnemonic × Mode) :=
  [(.rti, .imp), (.eor, .idx), (.nop2, .by2), (.nop1, .imp),
   (.nop2, .by2), (.eor, .zpg), (.lsr, .zpg), (.nop1, .imp),
   (.pha, .imp), (.eor, .imm), (.lsr, .acc), (.nop1, .imp),
   (.jmp, .abs), (.eor, .abs), (.lsr, .abs), (.nop1, .imp)]

/-- Row 5x of the opcode map. -/
def opcodeRow5 : List (Mnemonic × Mode) :=
  [(.bvc, .rel), (.eor, .idy), (.eor, .zpi), (.nop1, .imp),
   (.nop2, .by2), (.eor, .zpx), (.lsr, .zpx), (.nop1, .imp),
   (.cli, .imp), (.eor, .aby), (.phy, .imp), (.nop1, .imp),
   (.nop3, .by3), (.eor, .abx), (.lsr, .abx), (.nop1, .imp)]

/-- Row 6x of the opcode map. -/
def opcodeRow6 : List (Mnemonic × Mode) :=
  [(.rts, .imp), (.adc, .idx), (.nop2, .by2), (.nop1, .imp),
   (.stz, .zpg), (.adc, .zpg), (.ror, .zpg), (.nop1, .imp),
   (.pla, .imp), (.adc, .imm), (.ror, .acc), (.nop1, .imp),
   (.jmp, .ind), (.adc, .abs), (.ror, .abs), (.nop1, .imp)]

/-- Row 7x of the opcode map. -/
def opcodeRow7 : List (Mnemonic × Mode) :=
  [(.bvs, .rel), (.adc, .idy), (.adc, .zpi), (.nop1, .imp),
   (.stz, .zpx), (.adc, .zpx), (.ror, .zpx), (.nop1, .imp),
   (.sei, .imp), (.adc, .aby), (.ply, .imp), (.nop1, .imp),
   (.jmp, .iax), (.adc, .abx), (.ror, .abx), (.nop1, .imp)]

/-- Row 8x of the opcode map. -/
def opcodeRow8 : List (Mnemonic × Mode) :=
  [(.bra, .rel), (.sta, .idx), (.nop2, .by2), (.nop1, .imp),
   (.sty, .zpg), (.sta, .zpg), (.stx, .zpg), (.nop1, .imp),
   (.dey, .imp), (.bit, .imm), (.txa, .imp), (.nop1, .imp),
   (.sty, .abs), (.sta, .abs), (.stx, .abs), (.nop1, .imp)]

/-- Row 9x of the opcode map. -/
def opcodeRow9 : List (Mnemonic × Mode) :=
  [(.bcc, .rel), (.sta, .idy), (.sta, .zpi), (.nop1, .imp),
   (.sty, .zpx), (.sta, .zpx), (.stx, .zpy), (.nop1, .imp),
   (.tya, .imp), (.sta, .aby), (.txs, .imp), (.nop1, .imp),
   (.stz, .abs), (.sta, .abx), (.stz, .abx), (.nop1, .imp)]

/-- Row Ax of the opcode map. -/
def opcodeRowA : List (Mnemonic × Mode) :=
  [(.ldy, .imm), (.lda, .idx), (.ldx, .imm), (.nop1, .imp),
   (.ldy, .zpg), (.lda, .zpg), (.ldx, .zpg), (.nop1, .imp),
   (.tay, .imp), (.lda, .imm), (.tax, .imp), (.nop1, .imp),
   (.ldy, .abs), (.lda, .abs), (.ldx, .abs), (.nop1, .imp)]

/-- Row Bx of the opcode map. -/
def opcodeRowB : List (Mnemonic × Mode) :=
  [(.bcs, .rel), (.lda, .idy), (.lda, .zpi), (.nop1, .imp),
   (.ldy, .zpx), (.lda, .zpx), (.ldx, .zpy), (.nop1, .imp),
   (.clv, .imp), (.lda, .aby), (.tsx, .imp), (.nop1, .imp),
   (.ldy, .abx), (.lda, .abx), (.ldx, .aby), (.nop1, .imp)]

/-- Row Cx of the opcode map. -/
def opcodeRowC : List (Mnemonic × Mode) :=
  [(.cpy, .imm), (.cmp, .idx), (.nop2, .by2), (.nop1, .imp),
   (.cpy, .zpg), (.cmp, .zpg), (.dec, .zpg), (.nop1, .imp),
   (.iny, .imp), (.cmp, .imm), (.dex, .imp), (.nop1, .imp),
   (.cpy, .abs), (.cmp, .abs), (.dec, .abs), (.nop1, .imp)]

/-- Row Dx of the opcode map. -/
def opcodeRowD : List (Mnemonic × Mode) :=
  [(.bne, .rel), (.cmp, .idy), (.cmp, .zpi), (.nop1, .imp),
   (.nop2, .by2), (.cmp, .zpx), (.dec, .zpx), (.nop1, .imp),
   (.cld, .imp), (.cmp, .aby), (.phx, .imp), (.nop1, .imp),
   (.nop3, .by3), (.cmp, .abx), (.dec, .abx), (.nop1, .imp)]

/-- Row Ex of the opcode map. -/
def opcodeRowE : List (Mnemonic × Mode) :=
  [(.cpx, .imm), (.sbc, .idx), (.nop2, .by2), (.nop1, .imp),
   (.cpx, .zpg), (.sbc, .zpg), (.inc, .zpg), (.nop1, .imp),
   (.inx, .imp), (.sbc, .imm), (.nop, .imp), (.nop1, .imp),
   (.cpx, .abs), (.sbc, .abs), (.inc, .abs), (.nop1, .imp)]

/-- Row Fx of the opcode map. -/
def opcodeRowF : List (Mnemonic × Mode) :=
  [(.beq, .rel), (.sbc, .idy), (.sbc, .zpi), (.nop1, .imp),
   (.nop2, .by2), (.sbc, .zpx), (.inc, .zpx), (.nop1, .imp),
   (.sed, .imp), (.sbc, .aby), (.plx, .imp), (.nop1, .imp),
   (.nop3, .by3), (.sbc, .abx), (.inc, .abx), (.nop1, .imp)]

/-- The opcode map: rows by high nibble, columns by low nibble. -/
def opcodeMap : List (List (Mnemonic × Mode)) :=
  [opcodeRow0, opcodeRow1, opcodeRow2, opcodeRow3, opcodeRow4, opcodeRow5, opcodeRow6, opcodeRow7,
   opcodeRow8, opcodeRow9, opcodeRowA, opcodeRowB, opcodeRowC, opcodeRowD, opcodeRowE, opcodeRowF]

/-- The mnemonic and mode of an opcode byte. The map is full (R137), so the default is never used. -/
def opcodeEntry (op : Byte) : Mnemonic × Mode :=
  (opcodeMap.getD (op.toNat / 16) []).getD (op.toNat % 16) (.nop, .imp)

/-- Operand assembly, 30_encoding.md R133: `b1` for the two-byte modes, `word(b2, b1)` for the
three-byte modes. -/
def operandOf (m : Mode) (b1 b2 : Byte) : Operand :=
  match m with
  | .imp => .imp
  | .acc => .acc
  | .imm => .imm b1
  | .zpg => .zpg b1
  | .zpx => .zpx b1
  | .zpy => .zpy b1
  | .abs => .abs (word b2 b1)
  | .abx => .abx (word b2 b1)
  | .aby => .aby (word b2 b1)
  | .ind => .ind (word b2 b1)
  | .idx => .idx b1
  | .idy => .idy b1
  | .zpi => .zpi b1
  | .iax => .iax (word b2 b1)
  | .rel => .rel b1
  | .by2 => .by2 b1
  | .by3 => .by3 (word b2 b1)

/-- The instruction of a mnemonic, given its opcode byte, its operand, and the operand's bytes. -/
def instrOf (m : Mnemonic) (op : Byte) (o : Operand) (b1 b2 : Byte) : Instr :=
  match m with
  | .adc => .adc o
  | .and => .and o
  | .asl => .asl o
  | .bcc => .bcc b1
  | .bcs => .bcs b1
  | .beq => .beq b1
  | .bit => .bit o
  | .bmi => .bmi b1
  | .bne => .bne b1
  | .bpl => .bpl b1
  | .bra => .bra b1
  | .brk => .brk
  | .bvc => .bvc b1
  | .bvs => .bvs b1
  | .clc => .clc
  | .cld => .cld
  | .cli => .cli
  | .clv => .clv
  | .cmp => .cmp o
  | .cpx => .cpx o
  | .cpy => .cpy o
  | .dec => .dec o
  | .dex => .dex
  | .dey => .dey
  | .eor => .eor o
  | .inc => .inc o
  | .inx => .inx
  | .iny => .iny
  | .jmp => .jmp o
  | .jsr => .jsr (word b2 b1)
  | .lda => .lda o
  | .ldx => .ldx o
  | .ldy => .ldy o
  | .lsr => .lsr o
  | .nop => .nop
  | .nop1 => .nop1 op
  | .nop2 => .nop2 op b1
  | .nop3 => .nop3 op (word b2 b1)
  | .ora => .ora o
  | .pha => .pha
  | .php => .php
  | .phx => .phx
  | .phy => .phy
  | .pla => .pla
  | .plp => .plp
  | .plx => .plx
  | .ply => .ply
  | .rol => .rol o
  | .ror => .ror o
  | .rti => .rti
  | .rts => .rts
  | .sbc => .sbc o
  | .sec => .sec
  | .sed => .sed
  | .sei => .sei
  | .sta => .sta o
  | .stx => .stx o
  | .sty => .sty o
  | .stz => .stz o
  | .tax => .tax
  | .tay => .tay
  | .trb => .trb o
  | .tsb => .tsb o
  | .tsx => .tsx
  | .txa => .txa
  | .txs => .txs
  | .tya => .tya

/-- The instruction of an opcode byte and the two bytes after it; a shorter instruction ignores the
bytes beyond its length. Total on every byte: there is no illegal encoding (30_encoding.md R138). -/
def decodeBytes (op b1 b2 : Byte) : Instr :=
  instrOf (opcodeEntry op).1 op (operandOf (opcodeEntry op).2 b1 b2) b1 b2

/-- Why a list of bytes is no instruction: it ends too early. Nothing else can be wrong (R138). -/
inductive DecodeError where
  /-- There is no opcode byte. -/
  | noOpcode
  /-- The opcode byte asks for more operand bytes than there are. -/
  | truncated (op : Byte) (needed : Nat) (got : Nat)
  deriving DecidableEq, Repr

/-- Decode the first instruction of a list of bytes, and give the bytes after it. -/
def decode : List Byte → Except DecodeError (Instr × List Byte)
  | [] => .error .noOpcode
  | op :: rest =>
    match (opcodeEntry op).2.length, rest with
    | 1, rest => .ok (decodeBytes op 0 0, rest)
    | 2, b1 :: rest => .ok (decodeBytes op b1 0, rest)
    | 3, b1 :: b2 :: rest => .ok (decodeBytes op b1 b2, rest)
    | n, rest => .error (.truncated op n (rest.length + 1))

/-- The host's view: byte `k` of the instruction is bits `8k+7 .. 8k` of `w`, and every bit from
`nbits` up is 0. -/
def decodeTableWord (nbits w : Nat) : Option Instr :=
  match decode (tableBytes nbits w) with
  | .ok (i, _) => some i
  | .error _ => none

/-! ## Encoding, 30_encoding.md R136 -/

/-- Arithmetic, compare, increment (42_arithmetic.md). -/
def arithmeticOpcodes : List ((Mnemonic × Mode) × Byte) :=
  [((.adc, .idx), 0x61), ((.adc, .zpg), 0x65), ((.adc, .imm), 0x69), ((.adc, .abs), 0x6D), ((.adc, .idy), 0x71), ((.adc, .zpi), 0x72), ((.adc, .zpx), 0x75), ((.adc, .aby), 0x79), ((.adc, .abx), 0x7D),
   ((.sbc, .idx), 0xE1), ((.sbc, .zpg), 0xE5), ((.sbc, .imm), 0xE9), ((.sbc, .abs), 0xED), ((.sbc, .idy), 0xF1), ((.sbc, .zpi), 0xF2), ((.sbc, .zpx), 0xF5), ((.sbc, .aby), 0xF9), ((.sbc, .abx), 0xFD),
   ((.cmp, .idx), 0xC1), ((.cmp, .zpg), 0xC5), ((.cmp, .imm), 0xC9), ((.cmp, .abs), 0xCD), ((.cmp, .idy), 0xD1), ((.cmp, .zpi), 0xD2), ((.cmp, .zpx), 0xD5), ((.cmp, .aby), 0xD9), ((.cmp, .abx), 0xDD),
   ((.cpx, .imm), 0xE0), ((.cpx, .zpg), 0xE4), ((.cpx, .abs), 0xEC),
   ((.cpy, .imm), 0xC0), ((.cpy, .zpg), 0xC4), ((.cpy, .abs), 0xCC),
   ((.inc, .acc), 0x1A), ((.inc, .zpg), 0xE6), ((.inc, .abs), 0xEE), ((.inc, .zpx), 0xF6), ((.inc, .abx), 0xFE),
   ((.dec, .acc), 0x3A), ((.dec, .zpg), 0xC6), ((.dec, .abs), 0xCE), ((.dec, .zpx), 0xD6), ((.dec, .abx), 0xDE),
   ((.inx, .imp), 0xE8),
   ((.iny, .imp), 0xC8),
   ((.dex, .imp), 0xCA),
   ((.dey, .imp), 0x88)]

/-- Logic, bit test, shift, rotate (43_logic_shift.md). -/
def logicOpcodes : List ((Mnemonic × Mode) × Byte) :=
  [((.and, .idx), 0x21), ((.and, .zpg), 0x25), ((.and, .imm), 0x29), ((.and, .abs), 0x2D), ((.and, .idy), 0x31), ((.and, .zpi), 0x32), ((.and, .zpx), 0x35), ((.and, .aby), 0x39), ((.and, .abx), 0x3D),
   ((.ora, .idx), 0x01), ((.ora, .zpg), 0x05), ((.ora, .imm), 0x09), ((.ora, .abs), 0x0D), ((.ora, .idy), 0x11), ((.ora, .zpi), 0x12), ((.ora, .zpx), 0x15), ((.ora, .aby), 0x19), ((.ora, .abx), 0x1D),
   ((.eor, .idx), 0x41), ((.eor, .zpg), 0x45), ((.eor, .imm), 0x49), ((.eor, .abs), 0x4D), ((.eor, .idy), 0x51), ((.eor, .zpi), 0x52), ((.eor, .zpx), 0x55), ((.eor, .aby), 0x59), ((.eor, .abx), 0x5D),
   ((.bit, .zpg), 0x24), ((.bit, .abs), 0x2C), ((.bit, .zpx), 0x34), ((.bit, .abx), 0x3C), ((.bit, .imm), 0x89),
   ((.tsb, .zpg), 0x04), ((.tsb, .abs), 0x0C),
   ((.trb, .zpg), 0x14), ((.trb, .abs), 0x1C),
   ((.asl, .zpg), 0x06), ((.asl, .acc), 0x0A), ((.asl, .abs), 0x0E), ((.asl, .zpx), 0x16), ((.asl, .abx), 0x1E),
   ((.lsr, .zpg), 0x46), ((.lsr, .acc), 0x4A), ((.lsr, .abs), 0x4E), ((.lsr, .zpx), 0x56), ((.lsr, .abx), 0x5E),
   ((.rol, .zpg), 0x26), ((.rol, .acc), 0x2A), ((.rol, .abs), 0x2E), ((.rol, .zpx), 0x36), ((.rol, .abx), 0x3E),
   ((.ror, .zpg), 0x66), ((.ror, .acc), 0x6A), ((.ror, .abs), 0x6E), ((.ror, .zpx), 0x76), ((.ror, .abx), 0x7E)]

/-- Load, store, transfer (41_load_store_transfer.md). -/
def loadStoreOpcodes : List ((Mnemonic × Mode) × Byte) :=
  [((.lda, .idx), 0xA1), ((.lda, .zpg), 0xA5), ((.lda, .imm), 0xA9), ((.lda, .abs), 0xAD), ((.lda, .idy), 0xB1), ((.lda, .zpi), 0xB2), ((.lda, .zpx), 0xB5), ((.lda, .aby), 0xB9), ((.lda, .abx), 0xBD),
   ((.ldx, .imm), 0xA2), ((.ldx, .zpg), 0xA6), ((.ldx, .abs), 0xAE), ((.ldx, .zpy), 0xB6), ((.ldx, .aby), 0xBE),
   ((.ldy, .imm), 0xA0), ((.ldy, .zpg), 0xA4), ((.ldy, .abs), 0xAC), ((.ldy, .zpx), 0xB4), ((.ldy, .abx), 0xBC),
   ((.sta, .idx), 0x81), ((.sta, .zpg), 0x85), ((.sta, .abs), 0x8D), ((.sta, .idy), 0x91), ((.sta, .zpi), 0x92), ((.sta, .zpx), 0x95), ((.sta, .aby), 0x99), ((.sta, .abx), 0x9D),
   ((.stx, .zpg), 0x86), ((.stx, .abs), 0x8E), ((.stx, .zpy), 0x96),
   ((.sty, .zpg), 0x84), ((.sty, .abs), 0x8C), ((.sty, .zpx), 0x94),
   ((.stz, .zpg), 0x64), ((.stz, .zpx), 0x74), ((.stz, .abs), 0x9C), ((.stz, .abx), 0x9E),
   ((.tax, .imp), 0xAA),
   ((.tay, .imp), 0xA8),
   ((.txa, .imp), 0x8A),
   ((.tya, .imp), 0x98),
   ((.tsx, .imp), 0xBA),
   ((.txs, .imp), 0x9A)]

/-- Stack and flags (44_stack_flags.md). -/
def stackFlagOpcodes : List ((Mnemonic × Mode) × Byte) :=
  [((.pha, .imp), 0x48),
   ((.php, .imp), 0x08),
   ((.phx, .imp), 0xDA),
   ((.phy, .imp), 0x5A),
   ((.pla, .imp), 0x68),
   ((.plp, .imp), 0x28),
   ((.plx, .imp), 0xFA),
   ((.ply, .imp), 0x7A),
   ((.clc, .imp), 0x18),
   ((.sec, .imp), 0x38),
   ((.cli, .imp), 0x58),
   ((.sei, .imp), 0x78),
   ((.cld, .imp), 0xD8),
   ((.sed, .imp), 0xF8),
   ((.clv, .imp), 0xB8)]

/-- Control flow and NOP (45_control_flow.md). -/
def controlOpcodes : List ((Mnemonic × Mode) × Byte) :=
  [((.bcc, .rel), 0x90),
   ((.bcs, .rel), 0xB0),
   ((.beq, .rel), 0xF0),
   ((.bne, .rel), 0xD0),
   ((.bmi, .rel), 0x30),
   ((.bpl, .rel), 0x10),
   ((.bvc, .rel), 0x50),
   ((.bvs, .rel), 0x70),
   ((.bra, .rel), 0x80),
   ((.jmp, .abs), 0x4C), ((.jmp, .ind), 0x6C), ((.jmp, .iax), 0x7C),
   ((.jsr, .abs), 0x20),
   ((.rts, .imp), 0x60),
   ((.brk, .imp), 0x00),
   ((.rti, .imp), 0x40),
   ((.nop, .imp), 0xEA)]

/-- The opcode bytes by mnemonic and mode, but for the reserved no-ops, which carry their own. -/
def opcodeTable : List ((Mnemonic × Mode) × Byte) :=
  arithmeticOpcodes ++ (logicOpcodes ++ (loadStoreOpcodes ++ (stackFlagOpcodes ++ controlOpcodes)))

/-- The opcode byte of an instruction; none where the table has no such row. -/
def Instr.opcode : Instr → Option Byte
  | .nop1 op => some op
  | .nop2 op _ => some op
  | .nop3 op _ => some op
  | i => opcodeTable.lookup (i.mnemonic, i.operand.mode)

/-- The operand bytes in memory order: the low byte of a Word first (30_encoding.md R131, R133). -/
def Operand.bytes : Operand → List Byte
  | .imp | .acc => []
  | .imm b | .zpg b | .zpx b | .zpy b | .idx b | .idy b | .zpi b | .rel b | .by2 b => [b]
  | .abs w | .abx w | .aby w | .ind w | .iax w | .by3 w => [lo w, hi w]

/-- The bytes of an instruction, at rising addresses; no bytes for an instruction the table lacks. -/
def encode (i : Instr) : List Byte :=
  match i.opcode with
  | some op => op :: i.operand.bytes
  | none => []

end Sys2Proof
end

