-- ==== Sys2Proof/Config.lean ====
section
/-! DEFINITION. The configuration record `Cfg` of 00_scope.md R7, the types it is made of, and the free
values: constants with no body, which nothing in Lean can evaluate. The values a machine is reset with
are in `Machine/Defaults.lean`. -/

namespace Sys2Proof

/-- What ADC and SBC do when D is set (42_arithmetic.md R212). -/
inductive DecimalMode where
  /-- The step is refused. -/
  | refuse
  /-- D is ignored. -/
  | binary
  /-- Packed BCD arithmetic. -/
  | bcd
  deriving DecidableEq, Repr

/-- The two $D000 RAM banks (10_state.md R22, `BankSel`). -/
inductive Bank where
  | one | two
  deriving DecidableEq, Repr

/-- An entry of the 5×5 phase table: "an offset of -1, 0, or +1 half-steps" (51_drive.md R384). -/
inductive HeadStep where
  | outward | stay | inward
  deriving DecidableEq, Repr

/-- The one-flag state changes a soft switch can command (22_soft_switches.md R92, R94, R95). -/
inductive SwitchEffect where
  | store80 (on : Bool) | readAux (on : Bool) | writeAux (on : Bool) | intCxROM (on : Bool)
  | slotC3ROM (on : Bool) | col80 (on : Bool) | altChar (on : Bool)
  | text (on : Bool) | mixed (on : Bool) | page2 (on : Bool) | hiRes (on : Bool)
  /-- Honoured only while `IOUEnable` is set (R95). -/
  | dHiRes (on : Bool)
  | iouEnable (on : Bool)
  deriving DecidableEq, Repr

/-- The one-bit statuses a soft switch can report (22_soft_switches.md R88, R91, R92, R94, R95). -/
inductive StatusBit where
  | bankSel2 | bankReadRAM | readAux | writeAux | intCxROM | sysBlockAux | slotC3ROM | store80
  | text | mixed | page2 | hiRes | altChar | col80 | iouEnable | dHiRes
  deriving DecidableEq, Repr

/-- The read handlers of the I/O page (22_soft_switches.md R100). -/
inductive ReadSwitch where
  /-- The keyboard byte (R96). -/
  | keyboard
  /-- `AnyKeyDown` and the key code; clears the strobe (R96). -/
  | anyKey
  /-- `flag(b)` of a status (R71, R88, R91 to R95). -/
  | status (f : StatusBit)
  /-- Performs the effect and returns an unspecified byte (R94, R95). -/
  | command (e : SwitchEffect)
  /-- Returns an unspecified byte (R97). -/
  | unspecified
  /-- The bank switch of R84, R85, R87; returns an unspecified byte (R86). -/
  | bankSwitch
  /-- The drive dispatch (R99). -/
  | drive
  deriving DecidableEq, Repr

/-- The write handlers of the I/O page (22_soft_switches.md R100). -/
inductive WriteSwitch where
  /-- Performs the effect; the value written is ignored. -/
  | command (e : SwitchEffect)
  /-- The system-block flag with its 512-byte copy (R90); it acts on writes only (R91). -/
  | sysBlock (on : Bool)
  /-- Clears the keyboard strobe (R93, R96). -/
  | clearStrobe
  /-- The bank switch of R84, R85, R87. -/
  | bankSwitch
  /-- The drive dispatch (R99). -/
  | drive
  deriving DecidableEq, Repr

/-- A row of the soft-switch table: the handlers of the addresses `first` to `last`. -/
structure SwitchRow where
  first : Nat
  last : Nat
  read : Option ReadSwitch
  write : Option WriteSwitch
  deriving DecidableEq, Repr

/-- The physical segments behind the bus (10_state.md R26). -/
inductive Segment where
  | main | mainBank2 | aux | auxBank2 | rom | slotROM
  deriving DecidableEq, Repr

/-- The configuration record (00_scope.md R7): the parameters the source leaves open, and the segment
sizes. It is a field of `State`, and no step changes it. -/
structure Cfg where
  decimalMode : DecimalMode
  /-- P after Reset; `Cfg.resetPValid` is the constraint on it. -/
  resetP : Byte
  resetBank : Bank
  bootVector : Option Word
  /-- Rows by previous phase, columns by new phase (51_drive.md R384, R386). -/
  phaseTable : Vector (Vector HeadStep 5) 5
  switchMap : List SwitchRow
  mainSize : Nat
  auxSize : Nat
  bankSize : Nat
  romSize : Nat
  slotROMSize : Nat
  deriving DecidableEq, Repr

/-- The constraint of 00_scope.md R7 on `RESET_P`: bit 2 (I) is set and bit 3 (D) is clear (92_eei_decisions.md D6). -/
def Cfg.resetPValid (c : Cfg) : Bool := c.resetP.getLsbD 2 && !c.resetP.getLsbD 3

/-- The size of a segment (10_state.md R26). -/
def Cfg.size (c : Cfg) : Segment → Nat
  | .main => c.mainSize
  | .aux => c.auxSize
  | .mainBank2 | .auxBank2 => c.bankSize
  | .rom => c.romSize
  | .slotROM => c.slotROMSize

/-- FREE VALUE. The `n`-th unspecified byte the machine draws (93_implementation_defined.md U6, U7, U8;
70_reset_and_hazards.md R448): a command switch read, $C019, an empty drive, A after a decimal ADC or SBC
of an operand that is not packed BCD, a register after a bus fault or before the first Reset. -/
opaque Config.freeByte : Nat → Byte

/-- FREE VALUE. The `n`-th unspecified flag or bit the machine draws (42_arithmetic.md R212; U4). -/
opaque Config.freeBit : Nat → Bool

end Sys2Proof
end

