-- ==== Sys2Proof/Machine/Codec.lean ====
section
/-! DEFINITION. The 6-and-2 GCR disk codec (50_disk_codec.md): pure functions on lists of bytes, run only by
Load and by a host save, never by an instruction. -/

namespace Sys2Proof.Machine

/-- How an image's sectors are ordered (R352; 10_state.md R24). -/
inductive ImageType where
  | dos | proDOS | nib
  deriving DecidableEq, Repr

/-! ## Constants (R343, R344, R352) -/

def addrPrologue : List Byte := [0xD5, 0xAA, 0x96]
def addrEpilogue : List Byte := [0xDE, 0xAA, 0xEB]
def dataPrologue : List Byte := [0xD5, 0xAA, 0xAD]
def dataEpilogue : List Byte := [0xDE, 0xAA, 0xEB]
/-- The volume number written in every address field. -/
def volume : Byte := 254
/-- The self-sync and padding byte. -/
def syncByte : Byte := 0xFF
def gap1 : Nat := 48
def gap2 : Nat := 6
def gap3 : Nat := 44
def physSectorLen : Nat := 413
def physTrackLen : Nat := 6656
/-- Tracks of a disk (R341). -/
def trackCount : Nat := 35
/-- Bytes of a logical image: 35 tracks of 16 sectors of 256 bytes (R341). -/
def logicalImageLen : Nat := 143360
/-- Bytes of a physical image (R342). -/
def physImageLen : Nat := trackCount * physTrackLen

/-- The 64-entry table from 6-bit groups to disk bytes (R344). -/
def gcr62 : List Byte :=
  [0x96, 0x97, 0x9A, 0x9B, 0x9D, 0x9E, 0x9F, 0xA6, 0xA7, 0xAB, 0xAC, 0xAD, 0xAE, 0xAF, 0xB2, 0xB3] ++
  ([0xB4, 0xB5, 0xB6, 0xB7, 0xB9, 0xBA, 0xBB, 0xBC, 0xBD, 0xBE, 0xBF, 0xCB, 0xCD, 0xCE, 0xCF, 0xD3] ++
  ([0xD6, 0xD7, 0xD9, 0xDA, 0xDB, 0xDC, 0xDD, 0xDE, 0xDF, 0xE5, 0xE6, 0xE7, 0xE9, 0xEA, 0xEB, 0xEC] ++
  [0xED, 0xEE, 0xEF, 0xF2, 0xF3, 0xF4, 0xF5, 0xF6, 0xF7, 0xF9, 0xFA, 0xFB, 0xFC, 0xFD, 0xFE, 0xFF]))

/-- `ORDER[type][ps]`: the logical sector stored in each physical sector (R352). -/
def sectorOrder : ImageType → List Nat
  | .dos => [0, 7, 14, 6, 13, 5, 12, 4, 11, 3, 10, 2, 9, 1, 8, 15]
  | .proDOS => [0, 8, 1, 9, 2, 10, 3, 11, 4, 12, 5, 13, 6, 14, 7, 15]
  | .nib => [0, 1, 2, 3, 4, 5, 6, 7, 8, 9, 10, 11, 12, 13, 14, 15]

/-- `GCR62[v]`. -/
def gcrByte (v : BitVec 6) : Byte := gcr62.getD v.toNat 0

/-- `INV62[b]`, undefined off the table (R344). -/
def gcrInverse (b : Byte) : Option (BitVec 6) := (gcr62.idxOf? b).map (BitVec.ofNat 6)

/-- `n` bytes of a list from an offset up, fewer where the list ends before (log 26). -/
def slice (l : List Byte) (start n : Nat) : List Byte := (l.drop start).take n

/-! ## The address field (R345, R346) -/

/-- 4-and-4 encoding: odd bits first. -/
def enc44 (b : Byte) : List Byte := [(b >>> 1) ||| 0xAA, b ||| 0xAA]

/-- 4-and-4 decoding. -/
def dec44 (h l : Byte) : Byte := ((h <<< 1) ||| 1) &&& l

/-- Volume, track, physical sector and their exclusive or, 4-and-4 encoded. -/
def addrField (vol trk ps : Byte) : List Byte :=
  enc44 vol ++ (enc44 trk ++ (enc44 ps ++ enc44 (vol ^^^ trk ^^^ ps)))

/-! ## The data field (R347, R348, R355) -/

/-- The two low bits swapped, the others dropped. -/
def rev2 (x : Byte) : Byte := ((x &&& 1) <<< 1) ||| ((x >>> 1) &&& 1)

/-- `B[i]` for `i` in 0..85: the low bit pairs of bytes `i`, `i + 86` and, below 84, `i + 172`. DESIGN CHOICE
(log 26): of a list that is not 256 bytes, missing bytes count as 0 and bytes past 256 are ignored. -/
def lowGroup (d : List Byte) (i : Nat) : BitVec 6 :=
  (rev2 (d.getD i 0 &&& 3) ||| (rev2 (d.getD (i + 86) 0 &&& 3) <<< 2) |||
    (if i < 84 then rev2 (d.getD (i + 172) 0 &&& 3) <<< 4 else 0)).setWidth 6

/-- `B[86 + k]`: the high six bits of byte `k`; a missing byte counts as 0 (log 26). -/
def highGroup (d : List Byte) (k : Nat) : BitVec 6 := (d.getD k 0 >>> 2).setWidth 6

/-- The 342-byte intermediate buffer of a sector (R347). -/
def sectorBuffer (d : List Byte) : List (BitVec 6) :=
  (List.range 86).map (lowGroup d) ++ (List.range 256).map (highGroup d)

/-- The XOR chain with its trailing checksum, translated (R348). -/
def xorChain (prev : BitVec 6) : List (BitVec 6) → List Byte
  | [] => [gcrByte prev]
  | b :: rest => gcrByte (b ^^^ prev) :: xorChain b rest

/-- `Enc62`: 342 data nibbles and the checksum nibble (R348). -/
def enc62 (d : List Byte) : List Byte := xorChain 0 (sectorBuffer d)

/-- Undo the chain; none if a byte is off the table or the terminal XOR is not zero (R355). -/
def xorUnchain (prev : BitVec 6) : List Byte → Option (List (BitVec 6))
  | [] => none
  | [c] =>
    match gcrInverse c with
    | some v => if v ^^^ prev = 0 then some [] else none
    | none => none
  | p :: rest =>
    match gcrInverse p with
    | some v => (xorUnchain (v ^^^ prev) rest).map fun buf => (v ^^^ prev) :: buf
    | none => none

/-- `D[k]` from the buffer (R355): six high bits of `B[86 + k]`, two low bits from group `k div 86` of
`B[k mod 86]`. -/
def sectorByte (buf : List (BitVec 6)) (k : Nat) : Byte :=
  ((buf.getD (86 + k) 0).setWidth 8 <<< 2) |||
    rev2 (((buf.getD (k % 86) 0).setWidth 8 >>> (2 * (k / 86))) &&& 3)

/-- `Dec62`: the 256 bytes of a sector, or none for `CorruptSector` (R355). DESIGN CHOICE (log 26): a list that is
not 343 bytes is `CorruptSector` too. -/
def dec62 (p : List Byte) : Option (List Byte) :=
  if p.length = 343 then (xorUnchain 0 p).map fun buf => (List.range 256).map (sectorByte buf) else none

/-! ## Sectors, tracks and images (R350 to R358) -/

/-- One physical sector (R350). -/
def encodeSector (vol trk ps : Byte) (d : List Byte) : List Byte :=
  addrPrologue ++ (addrField vol trk ps ++ (addrEpilogue ++ (List.replicate gap2 syncByte ++
    (dataPrologue ++ (enc62 d ++ (dataEpilogue ++ List.replicate gap3 syncByte))))))

/-- One physical track of a 4096-byte logical track (R351, R353); another length as `slice` and `enc62` have it
(log 26). -/
def encodeTrack (type : ImageType) (trk : Byte) (l : List Byte) : List Byte :=
  List.replicate gap1 syncByte ++ (List.range 16).flatMap fun ps =>
    encodeSector volume trk (BitVec.ofNat 8 ps) (slice l ((sectorOrder type).getD ps 0 * 256) 256)

/-- The recoverable errors of the codec (R359, R360). -/
inductive CodecError where
  /-- The image has the wrong length; raised by `encodeImage` (R360) and by `decodeImage` (log 26); safe, nothing is
  modified. -/
  | badImageLength
  /-- The data field of this physical sector of this track is corrupt; raised by `decodeImage`; safe. -/
  | corruptSector (track ps : Nat)
  deriving DecidableEq, Repr

/-- `Encode(type, img)`: the physical image (R354, R360). -/
def encodeImage (type : ImageType) (img : List Byte) : Except CodecError (List Byte) :=
  match type with
  | .nib => if img.length = physImageLen then .ok img else .error .badImageLength
  | t =>
    if img.length = logicalImageLen then
      .ok ((List.range trackCount).flatMap fun k => encodeTrack t (BitVec.ofNat 8 k) (slice img (k * 4096) 4096))
    else .error .badImageLength

/-- The data field of physical sector `ps` of a track, found by position (R356). -/
def sectorData (p : List Byte) (ps : Nat) : List Byte := slice p (gap1 + ps * physSectorLen + 23) 343

/-- The sectors of a track in physical order, from `ps` up; the number of the first corrupt one (R357). -/
def decodeSectors (p : List Byte) : List Nat → Except Nat (List (List Byte))
  | [] => .ok []
  | ps :: rest =>
    match dec62 (sectorData p ps) with
    | none => .error ps
    | some d => (decodeSectors p rest).map (d :: ·)

/-- `DecodeTrack(type, P)`: the 4096-byte logical track, or the corrupt physical sector (R357). DESIGN CHOICE
(log 26): of a list that is not `physTrackLen` bytes, a sector whose data field is cut off is corrupt and bytes past
the end are ignored. -/
def decodeTrack (type : ImageType) (p : List Byte) : Except Nat (List Byte) :=
  (decodeSectors p (List.range 16)).map fun sectors =>
    (List.range 16).flatMap fun ls => sectors.getD ((sectorOrder type).idxOf ls) []

/-- The logical tracks of a physical image, from the given ones on; the first corrupt sector (R358). -/
def decodeTracks (type : ImageType) (phys : List Byte) : List Nat → Except CodecError (List Byte)
  | [] => .ok []
  | t :: rest =>
    match decodeTrack type (slice phys (t * physTrackLen) physTrackLen) with
    | .error ps => .error (.corruptSector t ps)
    | .ok l => (decodeTracks type phys rest).map (l ++ ·)

/-- `Decode(type, phys)`: the logical image (R358); needed only by a host that saves a disk. DEDUCED (log 26): a
buffer of the wrong length, of any type, is `BadImageLength`; R340 sends a wrong length to R360, which names it for
Encode alone. -/
def decodeImage (type : ImageType) (phys : List Byte) : Except CodecError (List Byte) :=
  if phys.length = physImageLen then
    match type with
    | .nib => .ok phys
    | t => decodeTracks t phys (List.range trackCount)
  else .error .badImageLength

end Sys2Proof.Machine
end

