-- ==== Sys2Proof/Machine/Defaults.lean ====
section
/-! DEFINITION. The values of the parameters of 00_scope.md R7: those the spec says to instantiate, as
constants, the spec's default configuration as `defaultCfg`, and the one a reset machine has as `resetCfg`. -/

namespace Sys2Proof.Machine

/-- Base of the fixed stack page (R7 `STACK_PAGE`). -/
def stackPage : Word := 0x0100

/-- Address of the reset vector (R7 `VEC_RESET`). -/
def vecReset : Word := 0xFFFC

/-- Address of the BRK vector (R7 `VEC_BRK`). -/
def vecBrk : Word := 0xFFFE

/-- S after Reset (R7 `RESET_S`). -/
def resetS : Byte := 0xFF

/-- Highest half-track position (51_drive.md R381). -/
def maxSteps : Nat := 69

/-- `hi` of the hi/lo convention (22_soft_switches.md R71). -/
def hiByte : Byte := 0x80

/-- `lo` of the hi/lo convention (22_soft_switches.md R71). -/
def loByte : Byte := 0x00

/-- The default `PHASE_TABLE` (51_drive.md R386). -/
def phaseTable : Vector (Vector HeadStep 5) 5 :=
  #v[#v[.stay, .stay, .stay, .stay, .stay],
     #v[.stay, .stay, .inward, .stay, .outward],
     #v[.stay, .outward, .stay, .inward, .stay],
     #v[.stay, .stay, .outward, .stay, .inward],
     #v[.stay, .inward, .stay, .outward, .stay]]

/-! ## The default `SWITCH_MAP` (22_soft_switches.md R100); addresses without a row have no handler -/

/-- $C000 to $C00F: reads give the keyboard byte, writes command (R92, R96). -/
def switchRowsC00 : List SwitchRow :=
  [⟨0xC000, 0xC000, some .keyboard, some (.command (.store80 false))⟩,
   ⟨0xC001, 0xC001, some .keyboard, some (.command (.store80 true))⟩,
   ⟨0xC002, 0xC002, some .keyboard, some (.command (.readAux false))⟩,
   ⟨0xC003, 0xC003, some .keyboard, some (.command (.readAux true))⟩,
   ⟨0xC004, 0xC004, some .keyboard, some (.command (.writeAux false))⟩,
   ⟨0xC005, 0xC005, some .keyboard, some (.command (.writeAux true))⟩,
   ⟨0xC006, 0xC006, some .keyboard, some (.command (.intCxROM false))⟩,
   ⟨0xC007, 0xC007, some .keyboard, some (.command (.intCxROM true))⟩,
   ⟨0xC008, 0xC008, some .keyboard, some (.sysBlock false)⟩,
   ⟨0xC009, 0xC009, some .keyboard, some (.sysBlock true)⟩,
   ⟨0xC00A, 0xC00A, some .keyboard, some (.command (.slotC3ROM false))⟩,
   ⟨0xC00B, 0xC00B, some .keyboard, some (.command (.slotC3ROM true))⟩,
   ⟨0xC00C, 0xC00C, some .keyboard, some (.command (.col80 false))⟩,
   ⟨0xC00D, 0xC00D, some .keyboard, some (.command (.col80 true))⟩,
   ⟨0xC00E, 0xC00E, some .keyboard, some (.command (.altChar false))⟩,
   ⟨0xC00F, 0xC00F, some .keyboard, some (.command (.altChar true))⟩]

/-- $C010 to $C01F: reads give a status, writes clear the strobe (R88, R91 to R93, R96, R97). -/
def switchRowsC01 : List SwitchRow :=
  [⟨0xC010, 0xC010, some .anyKey, some .clearStrobe⟩,
   ⟨0xC011, 0xC011, some (.status .bankSel2), some .clearStrobe⟩,
   ⟨0xC012, 0xC012, some (.status .bankReadRAM), some .clearStrobe⟩,
   ⟨0xC013, 0xC013, some (.status .readAux), some .clearStrobe⟩,
   ⟨0xC014, 0xC014, some (.status .writeAux), some .clearStrobe⟩,
   ⟨0xC015, 0xC015, some (.status .intCxROM), some .clearStrobe⟩,
   ⟨0xC016, 0xC016, some (.status .sysBlockAux), some .clearStrobe⟩,
   ⟨0xC017, 0xC017, some (.status .slotC3ROM), some .clearStrobe⟩,
   ⟨0xC018, 0xC018, some (.status .store80), some .clearStrobe⟩,
   ⟨0xC019, 0xC019, some .unspecified, some .clearStrobe⟩,
   ⟨0xC01A, 0xC01A, some (.status .text), some .clearStrobe⟩,
   ⟨0xC01B, 0xC01B, some (.status .mixed), some .clearStrobe⟩,
   ⟨0xC01C, 0xC01C, some (.status .page2), some .clearStrobe⟩,
   ⟨0xC01D, 0xC01D, some (.status .hiRes), some .clearStrobe⟩,
   ⟨0xC01E, 0xC01E, some (.status .altChar), some .clearStrobe⟩,
   ⟨0xC01F, 0xC01F, some (.status .col80), some .clearStrobe⟩]

/-- $C050 to $C07F: the display toggles, and double hi-res under the IOU flag (R94, R95). -/
def switchRowsC05 : List SwitchRow :=
  [⟨0xC050, 0xC050, some (.command (.text false)), some (.command (.text false))⟩,
   ⟨0xC051, 0xC051, some (.command (.text true)), some (.command (.text true))⟩,
   ⟨0xC052, 0xC052, some (.command (.mixed false)), some (.command (.mixed false))⟩,
   ⟨0xC053, 0xC053, some (.command (.mixed true)), some (.command (.mixed true))⟩,
   ⟨0xC054, 0xC054, some (.command (.page2 false)), some (.command (.page2 false))⟩,
   ⟨0xC055, 0xC055, some (.command (.page2 true)), some (.command (.page2 true))⟩,
   ⟨0xC056, 0xC056, some (.command (.hiRes false)), some (.command (.hiRes false))⟩,
   ⟨0xC057, 0xC057, some (.command (.hiRes true)), some (.command (.hiRes true))⟩,
   ⟨0xC05E, 0xC05E, some (.command (.dHiRes true)), some (.command (.dHiRes true))⟩,
   ⟨0xC05F, 0xC05F, some (.command (.dHiRes false)), some (.command (.dHiRes false))⟩,
   ⟨0xC07E, 0xC07E, some (.status .iouEnable), some (.command (.iouEnable true))⟩,
   ⟨0xC07F, 0xC07F, some (.status .dHiRes), some (.command (.iouEnable false))⟩]

/-- $C080 to $C08F the bank switches, $C0E0 to $C0FF the drives (R84 to R87, R99). -/
def switchRowsC08 : List SwitchRow :=
  [⟨0xC080, 0xC08F, some .bankSwitch, some .bankSwitch⟩,
   ⟨0xC0E0, 0xC0FF, some .drive, some .drive⟩]

/-- The default `SWITCH_MAP`. -/
def switchMap : List SwitchRow := switchRowsC00 ++ (switchRowsC01 ++ (switchRowsC05 ++ switchRowsC08))

/-- The configuration with the spec's default for every parameter (R7, R212). -/
def defaultCfg : Cfg where
  decimalMode := .refuse
  resetP := 0x34
  resetBank := .two
  bootVector := none
  phaseTable := phaseTable
  switchMap := switchMap
  mainSize := 0x10000
  auxSize := 0x10000
  bankSize := 0x1000
  romSize := 0x4000
  slotROMSize := 0x0F00

/-- The configuration of a reset machine: the spec's defaults, but for `DECIMAL_MODE`, which the spec leaves open in
three settings; this is the one that gives decimal ADC and SBC their BCD effect. DESIGN CHOICE, unsafe (log 3,
log 4). -/
def resetCfg : Cfg := { defaultCfg with decimalMode := .bcd }

end Sys2Proof.Machine
end

