-- ==== Sys2Proof/Machine/Memory.lean ====
section
/-! DEFINITION. The contents of one AddressableMemory (20_memory.md R40) as a canonical sparse list: offsets
strictly rising, no entry equal to what an unlisted offset reads as. Bounds are checked where the bus
reaches a segment (`Machine/Bus.lean`). -/

namespace Sys2Proof.Machine

/-- The listed bytes of a segment. -/
abbrev Memory := List Host.Cell

/-- What an unlisted offset reads as. DESIGN CHOICE, unsafe (log 1): the content of RAM at construction and
of the ROM images is a launch input (10_state.md R26). -/
def Memory.blank : Byte := 0

/-- The byte at an offset. -/
def Memory.read : Memory → Nat → Byte
  | [], _ => Memory.blank
  | (k, v) :: t, a => if k = a then v else Memory.read t a

/-- Replace the byte at an offset, keeping the canonical form. -/
def Memory.write : Memory → Nat → Byte → Memory
  | [], a, v => if v = Memory.blank then [] else [(a, v)]
  | (k, w) :: t, a, v =>
    if a < k then (if v = Memory.blank then (k, w) :: t else (a, v) :: (k, w) :: t)
    else if a = k then (if v = Memory.blank then t else (a, v) :: t)
    else (k, w) :: Memory.write t a v

/-- Offsets at least `low`, strictly rising, and no blank byte listed. -/
def Memory.wfFrom (low : Nat) : Memory → Bool
  | [] => true
  | (k, v) :: t => low ≤ k && v != Memory.blank && Memory.wfFrom (k + 1) t

/-- The canonical form. -/
def Memory.wf (m : Memory) : Bool := Memory.wfFrom 0 m

/-- Every listed offset lies inside a segment of `size` bytes. -/
def Memory.inside (size : Nat) (m : Memory) : Bool := m.all fun cell => cell.1 < size

/-- The first `n` bytes of `src` in front of the rest of `dst`: what copying the offsets `0 .. n-1` one by
one leaves in `dst` (22_soft_switches.md R90). -/
def Memory.copyPrefix (src dst : Memory) (n : Nat) : Memory :=
  src.filter (fun cell => cell.1 < n) ++ dst.filter (fun cell => n ≤ cell.1)

/-- Replace the bytes from an offset up. -/
def Memory.writeList (m : Memory) (off : Nat) : List Byte → Memory
  | [] => m
  | b :: bs => Memory.writeList (m.write off b) (off + 1) bs

/-- `copy_in(offset, bytes)` of R40: how many bytes were copied, or failure if the range leaves the segment. -/
def Memory.copyIn (size : Nat) (m : Memory) (off : Nat) (bytes : List Byte) : Option (Memory × Nat) :=
  if off + bytes.length ≤ size then some (m.writeList off bytes, bytes.length) else none

/-- `extract(from, start, end)` of R40, or failure if the range is invalid. R40 gives the signature alone. DESIGN
CHOICE (log 27): `end` is exclusive, the bytes are `start .. end-1`, and an empty range inside the segment is valid. -/
def Memory.extract (size : Nat) (m : Memory) (start stop : Nat) : Option (List Byte) :=
  if start ≤ stop ∧ stop ≤ size then some ((List.range (stop - start)).map fun k => m.read (start + k))
  else none

/-- The byte order of a segment's 16-bit accessors (20_memory.md R40, R47). -/
inductive ByteOrder where
  | little | big
  deriving DecidableEq, Repr

/-- `get16(addr)` of R40 with its configured byte order; no instruction uses it (R47). -/
def Memory.get16 (order : ByteOrder) (size : Nat) (m : Memory) (a : Nat) : Option Word :=
  if a + 1 < size then
    some (match order with
      | .little => word (m.read (a + 1)) (m.read a)
      | .big => word (m.read a) (m.read (a + 1)))
  else none

/-- `set16(addr, word)` of R40 with its configured byte order; no instruction uses it (R47). -/
def Memory.set16 (order : ByteOrder) (size : Nat) (m : Memory) (a : Nat) (w : Word) : Option Memory :=
  if a + 1 < size then
    some (match order with
      | .little => (m.write a (lo w)).write (a + 1) (hi w)
      | .big => (m.write a (hi w)).write (a + 1) (lo w))
  else none

end Sys2Proof.Machine
end

