-- ==== Sys2Proof/Machine/State.lean ====
section
/-! DEFINITION. The machine's state as plain data, the reasons a step can stop, and the state after reset
(10_state.md). -/

namespace Sys2Proof.Machine

/-- Where reads of $D000-$FFFF come from (R22, `BankRead`). -/
inductive ReadSource where
  | rom | ram
  deriving DecidableEq, Repr

/-- The soft-switch registers, one field for each key (R22, R23). -/
structure MachineState where
  bankRead : ReadSource
  bankWrite : Bool
  bankSel : Bank
  sysBlockAux : Bool
  /-- The toggle address of the last write-enable attempt (R23). -/
  preWriteAddr : Option Word
  /-- How many attempts in a row hit it, 0 to 2 (R23). -/
  preWriteCount : Nat
  readAux : Bool
  writeAux : Bool
  store80 : Bool
  page2 : Bool
  hiRes : Bool
  text : Bool
  mixed : Bool
  col80 : Bool
  altChar : Bool
  dHiRes : Bool
  iouEnable : Bool
  intCxROM : Bool
  slotC3ROM : Bool
  keyLatch : Byte
  keyStrobe : Bool
  anyKeyDown : Bool
  deriving DecidableEq, Repr

/-- The two drives (R24). -/
inductive DriveId where
  | one | two
  deriving DecidableEq, Repr

/-- Q7: whether the strobe reads or writes (R24). -/
inductive DriveMode where
  | read | write
  deriving DecidableEq, Repr

/-- One drive (R24). -/
structure Drive where
  /-- The physical (nibblized) buffer. -/
  data : Option (List Byte)
  /-- The raw image as loaded. -/
  image : Option (List Byte)
  imageType : ImageType
  /-- Head position in half-tracks, 0 to `maxSteps`. -/
  trackPos : Nat
  /-- Byte offset within the physical track, below `physTrackLen`. -/
  sectorPos : Nat
  /-- Last motor phase; 0 is none. -/
  phase : Fin 5
  latch : Byte
  mode : DriveMode
  online : Bool
  writeProtect : Bool
  locked : Bool
  deriving DecidableEq, Repr

/-- Everything behind the bus: the switches, the drives, and the segments (R22, R24, R26). -/
structure Bus where
  ms : MachineState
  drive1 : Drive
  drive2 : Drive
  selected : DriveId
  main : Memory
  mainBank2 : Memory
  aux : Memory
  auxBank2 : Memory
  rom : Memory
  slotROM : Memory
  /-- The model's own: how many unspecified values have been drawn (log 5). -/
  draws : Nat
  deriving DecidableEq, Repr

/-- What a bounds fault names: a segment, or a drive's data buffer (20_memory.md R59; 51_drive.md R390). -/
inductive FaultSite where
  | segment (g : Segment)
  | diskData (d : DriveId)
  deriving DecidableEq, Repr

/-- The machine status (R28). -/
inductive Status where
  | running
  | faulted (site : FaultSite) (off : Nat)
  deriving DecidableEq, Repr

/-- The machine. `s.sp` is the register S. -/
structure State where
  /-- The configuration; no step changes it (00_scope.md R7). -/
  cfg : Cfg
  a : Byte
  x : Byte
  y : Byte
  sp : Byte
  p : Byte
  pc : Word
  bus : Bus
  status : Status
  /-- The model's own: whether a Reset has been performed (log 9). -/
  booted : Bool
  deriving DecidableEq, Repr

/-- Why a step stops with a fault. -/
inductive Fault where
  /-- A bus access outside a segment's size (20_memory.md R59, 60_exceptions.md R412), with the bus as the
  accesses before it left it. Raised by every bus access; unreachable with the default sizes. Safe: the spec
  ends the step here, and nothing is said of the registers afterwards. -/
  | busFault (site : FaultSite) (off : Nat) (bus : Bus)
  /-- A step of a Faulted machine: "no step" (10_state.md R28). Raised by `step` alone. Safe: the machine is
  stuck until a host Reset or Boot. -/
  | stuck (site : FaultSite) (off : Nat)
  deriving DecidableEq, Repr

/-- Why the model gives a step no meaning. -/
inductive Refusal where
  /-- An instruction whose arm has no meaning yet. Raised by `exec`'s arms; safe. -/
  | notModelled (mnemonic : String)
  /-- ADC or SBC with D set while `DECIMAL_MODE = refuse` (42_arithmetic.md R212, 60_exceptions.md R410).
  Raised by the meanings of ADC and SBC; safe. -/
  | decimalRefused
  /-- A step taken before Boot (93_implementation_defined.md U3). Raised by `step`; safe. -/
  | notBooted
  deriving DecidableEq, Repr

/-- The reset column of R22, for the reset bank of R7. -/
def MachineState.reset (bank : Bank) : MachineState where
  bankRead := .rom
  bankWrite := false
  bankSel := bank
  sysBlockAux := false
  preWriteAddr := none
  preWriteCount := 0
  readAux := false
  writeAux := false
  store80 := false
  page2 := false
  hiRes := false
  text := false
  mixed := false
  col80 := false
  altChar := false
  dHiRes := false
  iouEnable := false
  intCxROM := false
  slotC3ROM := false
  keyLatch := 0
  keyStrobe := false
  anyKeyDown := false

/-- An empty drive: the construction values of R24. -/
def Drive.empty : Drive where
  data := none
  image := none
  imageType := .dos
  trackPos := 0
  sectorPos := 0
  phase := 0
  latch := 0
  mode := .read
  online := false
  writeProtect := false
  locked := false

/-- The bus of a constructed and reset machine: empty drives, drive 1 selected, nothing listed in any
segment (R24, R26, R27). DESIGN CHOICE for what the segments hold (log 1). -/
def Bus.reset (bank : Bank) : Bus where
  ms := MachineState.reset bank
  drive1 := Drive.empty
  drive2 := Drive.empty
  selected := .one
  main := []
  mainBank2 := []
  aux := []
  auxBank2 := []
  rom := []
  slotROM := []
  draws := 0

/-- The machine right after reset (R27; 70_reset_and_hazards.md R431): S at the top of the stack page, P at
`RESET_P`, PC the word at the reset vector, here in an empty ROM segment (log 1, log 6). A, X and Y are
DESIGN CHOICE, unsafe (log 2): Reset leaves them unchanged and construction leaves them unspecified. -/
def State.reset : State where
  cfg := resetCfg
  a := 0
  x := 0
  y := 0
  sp := resetS
  p := resetCfg.resetP
  pc := word Memory.blank Memory.blank
  bus := Bus.reset resetCfg.resetBank
  status := .running
  booted := true

/-- The contents of a segment. -/
def Bus.mem (b : Bus) : Segment → Memory
  | .main => b.main
  | .mainBank2 => b.mainBank2
  | .aux => b.aux
  | .auxBank2 => b.auxBank2
  | .rom => b.rom
  | .slotROM => b.slotROM

/-- Replace the contents of a segment. -/
def Bus.setMem (b : Bus) (m : Memory) : Segment → Bus
  | .main => { b with main := m }
  | .mainBank2 => { b with mainBank2 := m }
  | .aux => { b with aux := m }
  | .auxBank2 => { b with auxBank2 := m }
  | .rom => { b with rom := m }
  | .slotROM => { b with slotROM := m }

/-- The selected drive (51_drive.md R380). -/
def Bus.drive (b : Bus) : Drive :=
  match b.selected with
  | .one => b.drive1
  | .two => b.drive2

/-- Replace the selected drive. -/
def Bus.setDrive (b : Bus) (d : Drive) : Bus :=
  match b.selected with
  | .one => { b with drive1 := d }
  | .two => { b with drive2 := d }

/-- What an operation of the bus gives: a value and the bus after it, or a bounds fault and the bus as the
accesses before the faulting one left it. -/
inductive BusRes (α : Type) where
  | ok (v : α) (b : Bus)
  | fault (site : FaultSite) (off : Nat) (b : Bus)

/-- What an operation of the machine gives. -/
inductive Res (α : Type) where
  | ok (v : α) (s : State)
  | fault (f : Fault)
  | refused (r : Refusal)

/-- Where a bus read goes: a byte of a segment, or a read handler. -/
inductive ReadTarget where
  | cell (g : Segment) (off : Nat)
  | handler (h : ReadSwitch)
  deriving DecidableEq, Repr

/-- Where a bus write goes: a byte of a segment, nowhere, or a write handler. -/
inductive WriteTarget where
  | cell (g : Segment) (off : Nat)
  | dropped
  | handler (h : WriteSwitch)
  deriving DecidableEq, Repr

end Sys2Proof.Machine
end

