-- ==== Sys2Proof/Machine/Drive.lean ====
section
/-! DEFINITION. The drive state machine and the disk-controller switches (51_drive.md). -/

namespace Sys2Proof.Machine

/-- Continue after a bus operation that succeeds. -/
def BusRes.bind {α β : Type} (r : BusRes α) (k : α → Bus → BusRes β) : BusRes β :=
  match r with
  | .ok v b => k v b
  | .fault site off b => .fault site off b

/-- A fresh unspecified byte (70_reset_and_hazards.md R448; log 5). -/
def Bus.draw (b : Bus) : BusRes Byte := .ok (Config.freeByte b.draws) { b with draws := b.draws + 1 }

/-- `flag(b)` of the hi/lo convention (22_soft_switches.md R71). -/
def flagByte (b : Bool) : Byte := if b then hiByte else loByte

/-- The half-steps of a phase-table entry (51_drive.md R384). -/
def headDelta : HeadStep → Int
  | .outward => -1
  | .stay => 0
  | .inward => 1

/-- The position of the head in the physical buffer (R390). -/
def Drive.pos (d : Drive) : Nat := d.trackPos / 2 * physTrackLen + d.sectorPos

/-- The phase a low nibble 0..7 selects: none for the phase-off switches (R383). -/
def phaseOf (n : Nat) : Option (Fin 5) :=
  match n with
  | 1 => some 1
  | 3 => some 2
  | 5 => some 3
  | 7 => some 4
  | _ => none

/-- `StepPhase` (R384). -/
def Drive.stepPhase (c : Cfg) (d : Drive) (n : Nat) : Drive :=
  match phaseOf n with
  | none => d
  | some new =>
    match (c.phaseTable[d.phase])[new] with
    | .stay => { d with phase := new }
    | step =>
      { d with
        trackPos := (min (maxSteps : Int) (max 0 ((d.trackPos : Int) + headDelta step))).toNat
        sectorPos := 0
        phase := new }

/-- `Shift` (R387): off either end of the track it lands on 0; nothing moves while the drive is locked. -/
def Drive.shift (d : Drive) (k : Int) : Drive :=
  if d.locked then d
  else
    let p := (d.sectorPos : Int) + k
    { d with sectorPos := if p < 0 ∨ (physTrackLen : Int) ≤ p then 0 else p.toNat }

/-- `Read` on the selected drive (R391). With no disk the latch gets an unspecified byte. -/
def Bus.driveRead (b : Bus) : BusRes Unit :=
  match b.drive.data with
  | none => b.draw.bind fun v b => .ok () (b.setDrive ({ b.drive with latch := v }.shift 1))
  | some bytes =>
    match bytes[b.drive.pos]? with
    | some v => .ok () (b.setDrive ({ b.drive with latch := v }.shift 1))
    | none => .fault (.diskData b.selected) b.drive.pos b

/-- `Write` on the selected drive (R393): the byte is committed only with bit 7 set, on an unprotected
disk; the position advances whether or not it was. -/
def Bus.driveWrite (b : Bus) : BusRes Unit :=
  match b.drive.data with
  | none => .ok () (b.setDrive (b.drive.shift 1))
  | some bytes =>
    if b.drive.latch.msb && !b.drive.writeProtect then
      if b.drive.pos < bytes.length then
        .ok () (b.setDrive ({ b.drive with data := some (bytes.set b.drive.pos b.drive.latch) }.shift 1))
      else .fault (.diskData b.selected) b.drive.pos b
    else .ok () (b.setDrive (b.drive.shift 1))

/-- The byte a write carries into the latch, if the access is a write (R395). -/
def Drive.loadLatch (d : Drive) : Option Byte → Drive
  | some v => { d with latch := v }
  | none => d

/-- The effect of an access of low nibble `n` on the selected drive; `v` is the value of a write (R395). -/
def Bus.driveEffect (c : Cfg) (b : Bus) (n : Nat) (v : Option Byte) : BusRes Unit :=
  match n with
  | 0x8 => .ok () (b.setDrive { b.drive with online := false })
  | 0x9 => .ok () (b.setDrive { b.drive with online := true })
  | 0xA => .ok () { b with selected := .one }
  | 0xB => .ok () { b with selected := .two }
  | 0xC =>
    match b.drive.mode with
    | .read => b.driveRead
    | .write => b.driveWrite
  | 0xD => .ok () (b.setDrive (b.drive.loadLatch v))
  | 0xE => .ok () (b.setDrive { b.drive with mode := .read })
  | 0xF => .ok () (b.setDrive ({ b.drive with mode := .write }.loadLatch v))
  | n => .ok () (b.setDrive (b.drive.stepPhase c n))

/-- The byte a read of low nibble `n` returns, after its effect (R396). -/
def Bus.driveValue (b : Bus) (n : Nat) : BusRes Byte :=
  if n = 0xE then .ok (flagByte b.drive.writeProtect) b
  else if n % 2 = 0 then .ok b.drive.latch b
  else b.draw

/-- The drive dispatch for a read (R395, R396; 22_soft_switches.md R99). -/
def Bus.driveReadAccess (c : Cfg) (b : Bus) (a : Word) : BusRes Byte :=
  (b.driveEffect c (a.toNat % 16) none).bind fun _ b => b.driveValue (a.toNat % 16)

/-- The drive dispatch for a write (R395; 22_soft_switches.md R99). -/
def Bus.driveWriteAccess (c : Cfg) (b : Bus) (a : Word) (v : Byte) : BusRes Unit :=
  b.driveEffect c (a.toNat % 16) (some v)

end Sys2Proof.Machine
end

