-- ==== Sys2Proof/Machine/SoftSwitch.lean ====
section
/-! DEFINITION. The soft-switch handlers of the I/O page $C000-$C0FF (22_soft_switches.md sections 5 to 9). -/

namespace Sys2Proof.Machine

/-- The row of the soft-switch table that covers an address (R100). -/
def switchRow (c : Cfg) (a : Nat) : Option SwitchRow :=
  c.switchMap.find? fun row => row.first ≤ a && a ≤ row.last

/-- The read handler of an address of the I/O page, if it has one (R79, R100). -/
def readSwitch (c : Cfg) (a : Nat) : Option ReadSwitch := (switchRow c a).bind (·.read)

/-- The write handler of an address of the I/O page, if it has one (R79, R100). -/
def writeSwitch (c : Cfg) (a : Nat) : Option WriteSwitch := (switchRow c a).bind (·.write)

/-- An access of a bank-switch address: bank selector and read source from the address bits (R84), then the
write-enable debounce (R85). Reads and writes both count (R87). -/
def bankAccess (m : MachineState) (a : Word) : MachineState :=
  let m := { m with
    bankSel := if a.getLsbD 3 then .one else .two
    bankRead := if a.getLsbD 0 == a.getLsbD 1 then .ram else .rom }
  if !a.getLsbD 0 then { m with bankWrite := false, preWriteAddr := none, preWriteCount := 0 }
  else
    let count := if m.preWriteAddr = some a then m.preWriteCount + 1 else 1
    if 2 ≤ count then { m with bankWrite := true, preWriteAddr := none, preWriteCount := 0 }
    else { m with preWriteAddr := some a, preWriteCount := count }

/-- The 512-byte copy between segments (R90): byte by byte from offset 0, so a segment too small for it
faults at the first offset it lacks, the bytes before it copied (log 17). -/
def Bus.copyBlock (c : Cfg) (b : Bus) (src dst : Segment) : BusRes Unit :=
  let n := min 512 (min (c.size src) (c.size dst))
  let b := b.setMem ((b.mem src).copyPrefix (b.mem dst) n) dst
  if n = 512 then .ok () b
  else .fault (.segment (if c.size src ≤ n then src else dst)) n b

/-- Set or clear the system-block flag; the copy runs only when the flag changes, from the segment that was
active to the one that becomes active (R90). -/
def Bus.setSysBlock (c : Cfg) (b : Bus) (on : Bool) : BusRes Unit :=
  if b.ms.sysBlockAux = on then .ok () b
  else
    (b.copyBlock c (if on then .main else .aux) (if on then .aux else .main)).bind fun _ b =>
      .ok () { b with ms := { b.ms with sysBlockAux := on } }

/-- The state change of a commanded soft switch (R92, R94, R95). -/
def MachineState.command (m : MachineState) : SwitchEffect → MachineState
  | .store80 on => { m with store80 := on }
  | .readAux on => { m with readAux := on }
  | .writeAux on => { m with writeAux := on }
  | .intCxROM on => { m with intCxROM := on }
  | .slotC3ROM on => { m with slotC3ROM := on }
  | .col80 on => { m with col80 := on }
  | .altChar on => { m with altChar := on }
  | .text on => { m with text := on }
  | .mixed on => { m with mixed := on }
  | .page2 on => { m with page2 := on }
  | .hiRes on => { m with hiRes := on }
  | .dHiRes on => { m with dHiRes := if m.iouEnable then on else m.dHiRes }
  | .iouEnable on => { m with iouEnable := on }

/-- A status bit (R88, R91, R92, R94, R95). -/
def MachineState.statusBit (m : MachineState) : StatusBit → Bool
  | .bankSel2 => m.bankSel = .two
  | .bankReadRAM => m.bankRead = .ram
  | .readAux => m.readAux
  | .writeAux => m.writeAux
  | .intCxROM => m.intCxROM
  | .sysBlockAux => m.sysBlockAux
  | .slotC3ROM => m.slotC3ROM
  | .store80 => m.store80
  | .text => m.text
  | .mixed => m.mixed
  | .page2 => m.page2
  | .hiRes => m.hiRes
  | .altChar => m.altChar
  | .col80 => m.col80
  | .iouEnable => m.iouEnable
  | .dHiRes => m.dHiRes

/-- The key code in bits 6:0 under a bit 7 (R96). -/
def keyByte (top : Bool) (latch : Byte) : Byte := flagByte top ||| latch

/-- A read handler (R70, R100). -/
def Bus.readHandler (c : Cfg) (b : Bus) (a : Word) : ReadSwitch → BusRes Byte
  | .keyboard => .ok (keyByte b.ms.keyStrobe b.ms.keyLatch) b
  | .anyKey =>
    .ok (keyByte b.ms.anyKeyDown b.ms.keyLatch) { b with ms := { b.ms with keyStrobe := false } }
  | .status f => .ok (flagByte (b.ms.statusBit f)) b
  | .command e => { b with ms := b.ms.command e }.draw
  | .unspecified => b.draw
  | .bankSwitch => { b with ms := bankAccess b.ms a }.draw
  | .drive => b.driveReadAccess c a

/-- A write handler (R70, R100). -/
def Bus.writeHandler (c : Cfg) (b : Bus) (a : Word) (v : Byte) : WriteSwitch → BusRes Unit
  | .command e => .ok () { b with ms := b.ms.command e }
  | .sysBlock on => b.setSysBlock c on
  | .clearStrobe => .ok () { b with ms := { b.ms with keyStrobe := false } }
  | .bankSwitch => .ok () { b with ms := bankAccess b.ms a }
  | .drive => b.driveWriteAccess c a v

end Sys2Proof.Machine
end

