-- ==== Sys2Proof/Machine/Bus.lean ====
section
/-! DEFINITION. The bus the CPU sees (20_memory.md) and the steering of a logical address to a physical
location (22_soft_switches.md sections 1 to 4). -/

namespace Sys2Proof.Machine

/-- `M.get(a)` of a segment, with its bounds fault (20_memory.md R40, R59). -/
def Bus.getCell (c : Cfg) (b : Bus) (g : Segment) (off : Nat) : BusRes Byte :=
  if off < c.size g then .ok ((b.mem g).read off) b else .fault (.segment g) off b

/-- `M.set(a, v)` of a segment, with its bounds fault (20_memory.md R40, R59). -/
def Bus.setCell (c : Cfg) (b : Bus) (g : Segment) (off : Nat) (v : Byte) : BusRes Unit :=
  if off < c.size g then .ok () (b.setMem ((b.mem g).write off v) g) else .fault (.segment g) off b

/-- The RAM segment of the main or the auxiliary side. -/
def ramSegment (isAux : Bool) : Segment := if isAux then .aux else .main

/-- Whether $0200-$BFFF goes to auxiliary RAM; `direct` is `ReadAux` for a read (R73) and `WriteAux` for a
write (R74). -/
def auxSelected (m : MachineState) (direct : Bool) (a : Nat) : Bool :=
  if m.store80 ∧ 0x0400 ≤ a ∧ a ≤ 0x07FF then m.page2
  else if m.store80 ∧ m.hiRes ∧ 0x2000 ≤ a ∧ a ≤ 0x3FFF then m.page2
  else direct

/-- `BankRAM(a)` for $D000-$FFFF (R80). -/
def bankRAM (m : MachineState) (a : Nat) : Segment × Nat :=
  if a ≤ 0xDFFF ∧ m.bankSel = .two then (if m.sysBlockAux then .auxBank2 else .mainBank2, a - 0xD000)
  else (ramSegment m.sysBlockAux, a)

/-- Where a read of $C100-$CFFF comes from (R77). -/
def slotWindow (m : MachineState) (a : Nat) : Segment × Nat :=
  if m.intCxROM then (.rom, a - 0xC000)
  else if 0xC300 ≤ a ∧ a ≤ 0xC3FF ∧ m.slotC3ROM = false then (.rom, a - 0xC000)
  else (.slotROM, a - 0xC100)

/-- What a read of an address reaches (R70, R72, R75, R77, R79, R81). -/
def Bus.readTarget (c : Cfg) (b : Bus) (addr : Word) : ReadTarget :=
  let a := addr.toNat
  if a < 0x0200 then .cell (ramSegment b.ms.sysBlockAux) a
  else if a < 0xC000 then .cell (ramSegment (auxSelected b.ms b.ms.readAux a)) a
  else if a < 0xC100 then
    match readSwitch c a with
    | some h => .handler h
    | none => .cell .main a
  else if a < 0xD000 then .cell (slotWindow b.ms a).1 (slotWindow b.ms a).2
  else
    match b.ms.bankRead with
    | .rom => .cell .rom (a - 0xC000)
    | .ram => .cell (bankRAM b.ms a).1 (bankRAM b.ms a).2

/-- What a write of an address reaches (R70, R72, R76, R78, R79, R83). -/
def Bus.writeTarget (c : Cfg) (b : Bus) (addr : Word) : WriteTarget :=
  let a := addr.toNat
  if a < 0x0200 then .cell (ramSegment b.ms.sysBlockAux) a
  else if a < 0xC000 then .cell (ramSegment (auxSelected b.ms b.ms.writeAux a)) a
  else if a < 0xC100 then
    match writeSwitch c a with
    | some h => .handler h
    | none => .cell .main a
  else if a < 0xD000 then .dropped
  else if b.ms.bankWrite then .cell (bankRAM b.ms a).1 (bankRAM b.ms a).2
  else .dropped

/-- `Get(a)`: one bus read (20_memory.md R42, R44). -/
def Bus.read (c : Cfg) (b : Bus) (a : Word) : BusRes Byte :=
  match b.readTarget c a with
  | .cell g off => b.getCell c g off
  | .handler h => b.readHandler c a h

/-- `Set(a, v)`: one bus write (20_memory.md R42, R45). -/
def Bus.write (c : Cfg) (b : Bus) (a : Word) (v : Byte) : BusRes Unit :=
  match b.writeTarget c a with
  | .cell g off => b.setCell c g off v
  | .dropped => .ok () b
  | .handler h => b.writeHandler c a v h

/-- Two bus reads, low byte first, the second address modulo 65536 (20_memory.md R47). -/
def Bus.read16 (c : Cfg) (b : Bus) (a : Word) : BusRes Word :=
  (b.read c a).bind fun l b => (b.read c (a + 1)).bind fun h b => .ok (word h l) b

/-- The byte a read of an address without a handler would give, with no side effect: the model's own peek
(20_memory.md R43); none where the read has a handler. -/
def Bus.peek (c : Cfg) (b : Bus) (a : Word) : Option Byte :=
  match b.readTarget c a with
  | .cell g off => some ((b.mem g).read off)
  | .handler _ => none

/-- Put a byte where the bus would read it, in RAM or in a ROM image: the launch placement of
70_reset_and_hazards.md R433, not a bus write. An address with a read handler is left alone. -/
def Bus.place (c : Cfg) (b : Bus) (a : Word) (v : Byte) : Bus :=
  match b.readTarget c a with
  | .cell g off => b.setMem ((b.mem g).write off v) g
  | .handler _ => b

end Sys2Proof.Machine
end

