-- ==== Sys2Proof/Machine/Flags.lean ====
section
/-! DEFINITION. The status register and every flag computation: 10_state.md R14 to R17, and the cores of
42_arithmetic.md and 43_logic_shift.md. -/

namespace Sys2Proof.Machine

/-- The flags of P (R15). -/
inductive Flag where
  | c | z | i | d | b | u | v | n
  deriving DecidableEq, Repr

/-- The bit number of a flag (R15). -/
def Flag.index : Flag → Nat
  | .c => 0
  | .z => 1
  | .i => 2
  | .d => 3
  | .b => 4
  | .u => 5
  | .v => 6
  | .n => 7

/-- The mask of a flag (R15). -/
def Flag.mask : Flag → Byte
  | .c => 0x01
  | .z => 0x02
  | .i => 0x04
  | .d => 0x08
  | .b => 0x10
  | .u => 0x20
  | .v => 0x40
  | .n => 0x80

/-- Read one flag of a status byte. -/
def getFlag (p : Byte) (f : Flag) : Bool := p.getLsbD f.index

/-- Write one flag of a status byte. -/
def setFlag (p : Byte) (f : Flag) (on : Bool) : Byte := if on then p ||| f.mask else p &&& ~~~f.mask

/-- `SetNZ(v)` (00_scope.md R8). -/
def setNZ (p v : Byte) : Byte := setFlag (setFlag p .n v.msb) .z (v == 0)

/-- B and U forced on, the last action on P of every step (R17). -/
def forced (p : Byte) : Byte := p ||| 0x30

/-- What an addition gives. -/
structure Sum where
  value : Byte
  carry : Bool
  overflow : Bool
  deriving DecidableEq, Repr

/-- `AddCore(a, m, c)`: the exact sum, then narrowed (42_arithmetic.md R210). -/
def addCore (a m : Byte) (c : Bool) : Sum :=
  let s := a.toNat + m.toNat + bit c
  let r : Byte := BitVec.ofNat 8 s
  { value := r, carry := 255 < s, overflow := a.msb == m.msb && r.msb != a.msb }

/-- The flags of an ADC or SBC whose sum is `r` (R211, R213). -/
def sumFlags (p : Byte) (r : Sum) : Byte := setNZ (setFlag (setFlag p .c r.carry) .v r.overflow) r.value

/-- `Compare(r, m)`: the flags, C meaning "no borrow" (42_arithmetic.md R224). -/
def compareFlags (p r m : Byte) : Byte :=
  setFlag (setFlag (setFlag p .c (m.toNat ≤ r.toNat)) .z (r == m)) .n (r - m).msb

/-- The flags of a memory BIT: Z from the AND, N and V from the operand (43_logic_shift.md R243). -/
def bitFlags (p a m : Byte) : Byte := setFlag (setFlag (setFlag p .z (a &&& m == 0)) .n m.msb) .v (m.getLsbD 6)

/-- Z from the AND of A and the operand, the other flags kept (R244 to R246). -/
def testFlags (p a m : Byte) : Byte := setFlag p .z (a &&& m == 0)

/-- The flags of a shift or rotate: the bit moved out, and N and Z of the result (R247 to R250). -/
def shiftFlags (p : Byte) (out : Bool) (v : Byte) : Byte := setNZ (setFlag p .c out) v

/-! ## Packed BCD (42_arithmetic.md R212) -/

/-- Both nibbles are decimal digits. -/
def validBcd (b : Byte) : Bool := b.toNat / 16 ≤ 9 && b.toNat % 16 ≤ 9

/-- The number a packed BCD byte stands for. -/
def bcdValue (b : Byte) : Nat := 10 * (b.toNat / 16) + b.toNat % 16

/-- The packed BCD byte of a number below 100. -/
def bcdByte (u : Nat) : Byte := BitVec.ofNat 8 (16 * (u / 10) + u % 10)

/-- The decimal sum and its carry. -/
def bcdAdd (a m : Byte) (c : Bool) : Byte × Bool :=
  let t := bcdValue a + bcdValue m + bit c
  (bcdByte (t % 100), 100 ≤ t)

/-- The decimal difference and its carry, which means "no borrow"; the residue is not negative. -/
def bcdSub (a m : Byte) (c : Bool) : Byte × Bool :=
  let t : Int := (bcdValue a : Int) - bcdValue m - (1 - bit c)
  (bcdByte (t % 100).toNat, 0 ≤ t)

end Sys2Proof.Machine
end

