-- ==== Sys2Proof/Machine/Ops.lean ====
section
/-! DEFINITION. The named operations of the CPU: bus accesses, the stack, the end of a step, taking the BRK
trap and returning from it. -/

namespace Sys2Proof.Machine

/-- Continue after an operation that succeeds. -/
def Res.bind {α β : Type} (r : Res α) (k : α → State → Res β) : Res β :=
  match r with
  | .ok v s => k v s
  | .fault f => .fault f
  | .refused r => .refused r

/-- A bus operation as an operation of the machine: the registers stay; a bounds fault ends the step
(60_exceptions.md R412). -/
def State.onBus {α : Type} (s : State) : BusRes α → Res α
  | .ok v b => .ok v { s with bus := b }
  | .fault site off b => .fault (.busFault site off b)

/-- `MemRead(a, 1)` (20_memory.md R44). -/
def State.read (s : State) (a : Word) : Res Byte := s.onBus (s.bus.read s.cfg a)

/-- `MemWrite(a, 1, v)` (20_memory.md R45). -/
def State.write (s : State) (a : Word) (v : Byte) : Res Unit := s.onBus (s.bus.write s.cfg a v)

/-- `MemRead(a, 2)` (20_memory.md R47). -/
def State.read16 (s : State) (a : Word) : Res Word := s.onBus (s.bus.read16 s.cfg a)

/-- `Rd16zp(z)`: a pointer in the zero page, the second address modulo 256 (40_addressing_modes.md R152). -/
def State.read16zp (s : State) (z : Byte) : Res Word :=
  (s.read (zext z)).bind fun l s => (s.read (zext (z + 1))).bind fun h s => .ok (word h l) s

/-- The address of the stack slot S designates (10_state.md R13). -/
def stackAddr (sp : Byte) : Word := stackPage + zext sp

/-- `Push(v)`: write at S, then decrement (44_stack_flags.md R270). -/
def State.push (s : State) (v : Byte) : Res Unit :=
  (s.write (stackAddr s.sp) v).bind fun _ s => .ok () { s with sp := s.sp - 1 }

/-- `Pop()`: increment, then read at S (44_stack_flags.md R271). -/
def State.pop (s : State) : Res Byte := { s with sp := s.sp + 1 }.read (stackAddr (s.sp + 1))

/-- Read one flag of P. -/
def State.flag (s : State) (f : Flag) : Bool := getFlag s.p f

/-- Write one flag of P. -/
def State.withFlag (s : State) (f : Flag) (on : Bool) : State := { s with p := setFlag s.p f on }

/-- The end of a step: B and U forced on, PC advanced (10_state.md R17, R19; 40_addressing_modes.md R150). -/
def complete (adv : Word) : Res Unit → Host.Outcome State Fault Refusal
  | .ok _ s => .next { s with p := forced s.p, pc := s.pc + adv }
  | .fault f => .fault f
  | .refused r => .refused r

/-- Push the address two past the opcode, high byte first (45_control_flow.md R313, R315). -/
def State.pushReturn (s : State) : Res Unit :=
  (s.push (hi (s.pc + 2))).bind fun _ t => t.push (lo (s.pc + 2))

/-- Taking the one trap (45_control_flow.md R315, 60_exceptions.md R413): the return address and the status,
with B and U set, go to the stack; I is set and D cleared; PC is loaded from the BRK vector through the bus. -/
def State.enterTrap (s : State) : Res Unit :=
  s.pushReturn.bind fun _ s =>
  (s.push (forced s.p)).bind fun _ s =>
  (((s.withFlag .i true).withFlag .d false).read16 vecBrk).bind fun target s =>
  .ok () { s with pc := target }

/-- Returning from it (45_control_flow.md R316, 60_exceptions.md R414): all of P, then PC, from the stack. -/
def State.returnFromTrap (s : State) : Res Unit :=
  s.pop.bind fun p s =>
  ({ s with p := p } : State).pop.bind fun l s =>
  s.pop.bind fun h s =>
  .ok () { s with pc := word h l }

/-- The stack part of RTS (45_control_flow.md R314): the popped address and one. -/
def State.returnFromSubroutine (s : State) : Res Unit :=
  s.pop.bind fun l s => s.pop.bind fun h s => .ok () { s with pc := word h l + 1 }

end Sys2Proof.Machine
end

