-- ==== Sys2Proof/Machine/Operands.lean ====
section
/-! DEFINITION. The addressing-mode resolvers (40_addressing_modes.md). A resolver does not know the
instruction (R151): every data-memory mode reads its target. -/

namespace Sys2Proof.Machine

/-- What a resolver leaves for the handler: `EA` and `EV`; 0 where the mode has none (R153). -/
structure Resolved where
  ea : Word
  ev : Byte
  deriving DecidableEq, Repr

/-- The effective address of an operand, with its pointer reads (R156 to R167, R172). -/
def effectiveAddress (o : Operand) (s : State) : Res Word :=
  match o with
  | .imp | .acc | .imm _ | .by2 _ | .by3 _ => .ok 0 s
  | .zpg b => .ok (zext b) s
  | .zpx b => .ok (zext (b + s.x)) s
  | .zpy b => .ok (zext (b + s.y)) s
  | .abs w => .ok w s
  | .abx w => .ok (w + zext s.x) s
  | .aby w => .ok (w + zext s.y) s
  | .ind w => s.read16 w
  | .idx b => s.read16zp (b + s.x)
  | .idy b => (s.read16zp b).bind fun base s => .ok (base + zext s.y) s
  | .zpi b => s.read16zp b
  | .iax w => s.read16 (w + zext s.x)
  | .rel b => .ok (s.pc + 2 + sext8 b) s

/-- The effective value at an effective address: the data-memory modes read it from the bus (R151, R172). -/
def effectiveValue (o : Operand) (ea : Word) (s : State) : Res Byte :=
  match o with
  | .acc => .ok s.a s
  | .imm b => .ok b s
  | .zpg _ | .zpx _ | .zpy _ | .abs _ | .abx _ | .aby _ | .idx _ | .idy _ | .zpi _ => s.read ea
  | .imp | .ind _ | .iax _ | .rel _ | .by2 _ | .by3 _ => .ok 0 s

/-- `Resolve(mode)` (R150). The operand bytes were read before, by the fetch (R170). -/
def resolve (o : Operand) (s : State) : Res Resolved :=
  (effectiveAddress o s).bind fun ea s => (effectiveValue o ea s).bind fun ev s => .ok ⟨ea, ev⟩ s

/-- `WriteBack(v)`: to A in accumulator mode, else to memory (43_logic_shift.md R251). -/
def writeBack (o : Operand) (ea : Word) (v : Byte) (s : State) : Res Unit :=
  match o with
  | .acc => .ok () { s with a := v }
  | _ => s.write ea v

/-- An instruction's part of a step after its bytes were fetched: resolver, handler, forcing, advance (R150). -/
def runInstr (m : Mnemonic) (o : Operand) (handler : Resolved → State → Res Unit) (s : State) :
    Host.Outcome State Fault Refusal :=
  complete (advance m o) ((resolve o s).bind handler)

end Sys2Proof.Machine
end

