-- ==== Sys2Proof/Machine/LoadStore.lean ====
section
/-! DEFINITION. Load, store and transfer instructions (41_load_store_transfer.md). -/

namespace Sys2Proof.Machine

/-! ## Registers written with N and Z -/

/-- `A <- v; SetNZ(A)`. -/
def State.loadA (s : State) (v : Byte) : State := { s with a := v, p := setNZ s.p v }

/-- `X <- v; SetNZ(X)`. -/
def State.loadX (s : State) (v : Byte) : State := { s with x := v, p := setNZ s.p v }

/-- `Y <- v; SetNZ(Y)`. -/
def State.loadY (s : State) (v : Byte) : State := { s with y := v, p := setNZ s.p v }

/-! ## Loads -/

/-- LDA (R180). -/
def execLda (o : Operand) (s : State) : Host.Outcome State Fault Refusal :=
  runInstr .lda o (fun r s => .ok () (s.loadA r.ev)) s

/-- LDX (R181). -/
def execLdx (o : Operand) (s : State) : Host.Outcome State Fault Refusal :=
  runInstr .ldx o (fun r s => .ok () (s.loadX r.ev)) s

/-- LDY (R182). -/
def execLdy (o : Operand) (s : State) : Host.Outcome State Fault Refusal :=
  runInstr .ldy o (fun r s => .ok () (s.loadY r.ev)) s

/-! ## Stores: the resolver has read the target (R151), then one write -/

/-- STA (R183). -/
def execSta (o : Operand) (s : State) : Host.Outcome State Fault Refusal :=
  runInstr .sta o (fun r s => s.write r.ea s.a) s

/-- STX (R184). -/
def execStx (o : Operand) (s : State) : Host.Outcome State Fault Refusal :=
  runInstr .stx o (fun r s => s.write r.ea s.x) s

/-- STY (R185). -/
def execSty (o : Operand) (s : State) : Host.Outcome State Fault Refusal :=
  runInstr .sty o (fun r s => s.write r.ea s.y) s

/-- STZ (R186). -/
def execStz (o : Operand) (s : State) : Host.Outcome State Fault Refusal :=
  runInstr .stz o (fun r s => s.write r.ea 0) s

/-! ## Transfers -/

/-- TAX (R187). -/
def execTax (s : State) : Host.Outcome State Fault Refusal :=
  runInstr .tax .imp (fun _ s => .ok () (s.loadX s.a)) s

/-- TAY (R188). -/
def execTay (s : State) : Host.Outcome State Fault Refusal :=
  runInstr .tay .imp (fun _ s => .ok () (s.loadY s.a)) s

/-- TXA (R189). -/
def execTxa (s : State) : Host.Outcome State Fault Refusal :=
  runInstr .txa .imp (fun _ s => .ok () (s.loadA s.x)) s

/-- TYA (R190). -/
def execTya (s : State) : Host.Outcome State Fault Refusal :=
  runInstr .tya .imp (fun _ s => .ok () (s.loadA s.y)) s

/-- TSX (R191). -/
def execTsx (s : State) : Host.Outcome State Fault Refusal :=
  runInstr .tsx .imp (fun _ s => .ok () (s.loadX s.sp)) s

/-- TXS, the transfer that writes no flag (R192). -/
def execTxs (s : State) : Host.Outcome State Fault Refusal :=
  runInstr .txs .imp (fun _ s => .ok () { s with sp := s.x }) s

end Sys2Proof.Machine
end

