-- ==== Sys2Proof/Machine/Arithmetic.lean ====
section
/-! DEFINITION. Arithmetic, compare, increment and decrement instructions (42_arithmetic.md). -/

namespace Sys2Proof.Machine

/-! ## ADC and SBC -/

/-- Binary addition into A (R211); SBC gives the complemented operand (R213). -/
def State.addToA (s : State) (m : Byte) : State :=
  let r := addCore s.a m (s.flag .c)
  { s with a := r.value, p := sumFlags s.p r }

/-- A decimal result: A, C, N and Z from the result, V a free value (R212). -/
def State.decimalResult (s : State) (r : Byte × Bool) : State :=
  { s with
    a := r.1
    p := setNZ (setFlag (setFlag s.p .c r.2) .v (Config.freeBit s.bus.draws)) r.1
    bus := { s.bus with draws := s.bus.draws + 1 } }

/-- An operand that is not packed BCD: A and the four flags are free values (R212). -/
def State.decimalUnspecified (s : State) : State :=
  let n := s.bus.draws
  { s with
    a := Config.freeByte n
    p := setFlag (setFlag (setFlag (setFlag s.p .n (Config.freeBit n)) .v (Config.freeBit (n + 1)))
      .z (Config.freeBit (n + 2))) .c (Config.freeBit (n + 3))
    bus := { s.bus with draws := n + 4 } }

/-- ADC and SBC with D set, by `DECIMAL_MODE` (R212). -/
def State.decimal (s : State) (m : Byte) (digits : Byte → Byte → Bool → Byte × Bool) : State :=
  if validBcd s.a && validBcd m then s.decimalResult (digits s.a m (s.flag .c)) else s.decimalUnspecified

/-- The handler of ADC and SBC: `m` is the operand, `binary` the operand of the binary addition. -/
def addHandler (m binary : Byte) (digits : Byte → Byte → Bool → Byte × Bool) (s : State) : Res Unit :=
  if s.flag .d then
    match s.cfg.decimalMode with
    | .refuse => .refused .decimalRefused
    | .binary => .ok () (s.addToA binary)
    | .bcd => .ok () (s.decimal m digits)
  else .ok () (s.addToA binary)

/-- ADC (R211). -/
def execAdc (o : Operand) (s : State) : Host.Outcome State Fault Refusal :=
  runInstr .adc o (fun r s => addHandler r.ev r.ev bcdAdd s) s

/-- SBC (R213). -/
def execSbc (o : Operand) (s : State) : Host.Outcome State Fault Refusal :=
  runInstr .sbc o (fun r s => addHandler r.ev (r.ev ^^^ 0xFF) bcdSub s) s

/-! ## Compares -/

/-- `Compare(reg, m)` (R224). -/
def State.compare (s : State) (reg m : Byte) : State := { s with p := compareFlags s.p reg m }

/-- CMP (R214). -/
def execCmp (o : Operand) (s : State) : Host.Outcome State Fault Refusal :=
  runInstr .cmp o (fun r s => .ok () (s.compare s.a r.ev)) s

/-- CPX (R215). -/
def execCpx (o : Operand) (s : State) : Host.Outcome State Fault Refusal :=
  runInstr .cpx o (fun r s => .ok () (s.compare s.x r.ev)) s

/-- CPY (R216). -/
def execCpy (o : Operand) (s : State) : Host.Outcome State Fault Refusal :=
  runInstr .cpy o (fun r s => .ok () (s.compare s.y r.ev)) s

/-! ## Increment and decrement -/

/-- `SetNZ(v); WriteBack(v)`. -/
def modifyNZ (o : Operand) (ea : Word) (v : Byte) (s : State) : Res Unit :=
  writeBack o ea v { s with p := setNZ s.p v }

/-- INC (R217). -/
def execInc (o : Operand) (s : State) : Host.Outcome State Fault Refusal :=
  runInstr .inc o (fun r s => modifyNZ o r.ea (r.ev + 1) s) s

/-- DEC (R218). -/
def execDec (o : Operand) (s : State) : Host.Outcome State Fault Refusal :=
  runInstr .dec o (fun r s => modifyNZ o r.ea (r.ev - 1) s) s

/-- INX (R219). -/
def execInx (s : State) : Host.Outcome State Fault Refusal :=
  runInstr .inx .imp (fun _ s => .ok () (s.loadX (s.x + 1))) s

/-- INY (R220). -/
def execIny (s : State) : Host.Outcome State Fault Refusal :=
  runInstr .iny .imp (fun _ s => .ok () (s.loadY (s.y + 1))) s

/-- DEX (R221). -/
def execDex (s : State) : Host.Outcome State Fault Refusal :=
  runInstr .dex .imp (fun _ s => .ok () (s.loadX (s.x - 1))) s

/-- DEY (R222). -/
def execDey (s : State) : Host.Outcome State Fault Refusal :=
  runInstr .dey .imp (fun _ s => .ok () (s.loadY (s.y - 1))) s

end Sys2Proof.Machine
end

