-- ==== Sys2Proof/Machine/Control.lean ====
section
/-! DEFINITION. Branches, jumps, subroutines, BRK, RTI and the no-ops (45_control_flow.md). -/

namespace Sys2Proof.Machine

/-! ## Branches -/

/-- `Branch(cond)`: the handler writes PC whether or not the branch is taken (R300). -/
def branch (cond : State → Bool) (r : Resolved) (s : State) : Res Unit :=
  .ok () { s with pc := if cond s then r.ea else s.pc + 2 }

/-- BCC (R301). -/
def execBcc (d : Byte) (s : State) : Host.Outcome State Fault Refusal :=
  runInstr .bcc (.rel d) (branch fun s => !s.flag .c) s

/-- BCS (R302). -/
def execBcs (d : Byte) (s : State) : Host.Outcome State Fault Refusal :=
  runInstr .bcs (.rel d) (branch fun s => s.flag .c) s

/-- BEQ (R303). -/
def execBeq (d : Byte) (s : State) : Host.Outcome State Fault Refusal :=
  runInstr .beq (.rel d) (branch fun s => s.flag .z) s

/-- BNE (R304). -/
def execBne (d : Byte) (s : State) : Host.Outcome State Fault Refusal :=
  runInstr .bne (.rel d) (branch fun s => !s.flag .z) s

/-- BMI (R305). -/
def execBmi (d : Byte) (s : State) : Host.Outcome State Fault Refusal :=
  runInstr .bmi (.rel d) (branch fun s => s.flag .n) s

/-- BPL (R306). -/
def execBpl (d : Byte) (s : State) : Host.Outcome State Fault Refusal :=
  runInstr .bpl (.rel d) (branch fun s => !s.flag .n) s

/-- BVC (R307). -/
def execBvc (d : Byte) (s : State) : Host.Outcome State Fault Refusal :=
  runInstr .bvc (.rel d) (branch fun s => !s.flag .v) s

/-- BVS (R308). -/
def execBvs (d : Byte) (s : State) : Host.Outcome State Fault Refusal :=
  runInstr .bvs (.rel d) (branch fun s => s.flag .v) s

/-- BRA (R309). -/
def execBra (d : Byte) (s : State) : Host.Outcome State Fault Refusal :=
  runInstr .bra (.rel d) (branch fun _ => true) s

/-! ## Jumps and subroutines -/

/-- JMP (R310). -/
def execJmp (o : Operand) (s : State) : Host.Outcome State Fault Refusal :=
  runInstr .jmp o (fun r s => .ok () { s with pc := r.ea }) s

/-- JSR (R313). -/
def execJsr (target : Word) (s : State) : Host.Outcome State Fault Refusal :=
  runInstr .jsr (.abs target) (fun r s => s.pushReturn.bind fun _ s => .ok () { s with pc := r.ea }) s

/-- RTS (R314). -/
def execRts (s : State) : Host.Outcome State Fault Refusal :=
  runInstr .rts .imp (fun _ s => s.returnFromSubroutine) s

/-! ## BRK and RTI -/

/-- BRK (R315). -/
def execBrk (s : State) : Host.Outcome State Fault Refusal := runInstr .brk .imp (fun _ s => s.enterTrap) s

/-- RTI (R316). -/
def execRti (s : State) : Host.Outcome State Fault Refusal := runInstr .rti .imp (fun _ s => s.returnFromTrap) s

/-! ## No-ops -/

/-- NOP (R317). -/
def execNop (s : State) : Host.Outcome State Fault Refusal := runInstr .nop .imp (fun _ s => .ok () s) s

/-- NOP1, a reserved byte (R318). -/
def execNop1 (_op : Byte) (s : State) : Host.Outcome State Fault Refusal :=
  runInstr .nop1 .imp (fun _ s => .ok () s) s

/-- NOP2, a reserved byte and one ignored byte, read by the fetch (R319). -/
def execNop2 (_op ignored : Byte) (s : State) : Host.Outcome State Fault Refusal :=
  runInstr .nop2 (.by2 ignored) (fun _ s => .ok () s) s

/-- NOP3, a reserved byte and two ignored bytes, read by the fetch (R320). -/
def execNop3 (_op : Byte) (ignored : Word) (s : State) : Host.Outcome State Fault Refusal :=
  runInstr .nop3 (.by3 ignored) (fun _ s => .ok () s) s

end Sys2Proof.Machine
end

