-- ==== Sys2Proof/Machine/Logic.lean ====
section
/-! DEFINITION. Logical, bit-test, shift and rotate instructions (43_logic_shift.md). -/

namespace Sys2Proof.Machine

/-! ## Logical -/

/-- AND (R240). -/
def execAnd (o : Operand) (s : State) : Host.Outcome State Fault Refusal :=
  runInstr .and o (fun r s => .ok () (s.loadA (s.a &&& r.ev))) s

/-- ORA (R241). -/
def execOra (o : Operand) (s : State) : Host.Outcome State Fault Refusal :=
  runInstr .ora o (fun r s => .ok () (s.loadA (s.a ||| r.ev))) s

/-- EOR (R242). -/
def execEor (o : Operand) (s : State) : Host.Outcome State Fault Refusal :=
  runInstr .eor o (fun r s => .ok () (s.loadA (s.a ^^^ r.ev))) s

/-! ## Bit test, set and reset -/

/-- The flags of BIT: the immediate form writes Z only (R243, R244). -/
def bitTest (o : Operand) (p a m : Byte) : Byte :=
  match o with
  | .imm _ => testFlags p a m
  | _ => bitFlags p a m

/-- BIT (R243, R244). -/
def execBit (o : Operand) (s : State) : Host.Outcome State Fault Refusal :=
  runInstr .bit o (fun r s => .ok () { s with p := bitTest o s.p s.a r.ev }) s

/-- TSB (R245). -/
def execTsb (o : Operand) (s : State) : Host.Outcome State Fault Refusal :=
  runInstr .tsb o (fun r s => writeBack o r.ea (r.ev ||| s.a) { s with p := testFlags s.p s.a r.ev }) s

/-- TRB (R246). -/
def execTrb (o : Operand) (s : State) : Host.Outcome State Fault Refusal :=
  runInstr .trb o
    (fun r s => writeBack o r.ea (r.ev &&& (s.a ^^^ 0xFF)) { s with p := testFlags s.p s.a r.ev }) s

/-! ## Shifts and rotates: one bit position, the bit moved out goes to C -/

/-- `P.C <- out; SetNZ(v); WriteBack(v)`. -/
def shiftBack (o : Operand) (ea : Word) (out : Bool) (v : Byte) (s : State) : Res Unit :=
  writeBack o ea v { s with p := shiftFlags s.p out v }

/-- A bit as a Byte. -/
def bitByte (b : Bool) : Byte := BitVec.ofNat 8 (bit b)

/-- ASL (R247). -/
def execAsl (o : Operand) (s : State) : Host.Outcome State Fault Refusal :=
  runInstr .asl o (fun r s => shiftBack o r.ea r.ev.msb (r.ev <<< 1) s) s

/-- LSR (R248). -/
def execLsr (o : Operand) (s : State) : Host.Outcome State Fault Refusal :=
  runInstr .lsr o (fun r s => shiftBack o r.ea (r.ev.getLsbD 0) (r.ev >>> 1) s) s

/-- ROL (R249). -/
def execRol (o : Operand) (s : State) : Host.Outcome State Fault Refusal :=
  runInstr .rol o (fun r s => shiftBack o r.ea r.ev.msb ((r.ev <<< 1) ||| bitByte (s.flag .c)) s) s

/-- ROR (R250). -/
def execRor (o : Operand) (s : State) : Host.Outcome State Fault Refusal :=
  runInstr .ror o
    (fun r s => shiftBack o r.ea (r.ev.getLsbD 0) ((r.ev >>> 1) ||| (bitByte (s.flag .c) <<< 7)) s) s

end Sys2Proof.Machine
end

