-- ==== Sys2Proof/Machine/Stack.lean ====
section
/-! DEFINITION. Stack and flag instructions (44_stack_flags.md). -/

namespace Sys2Proof.Machine

/-! ## Push -/

/-- PHA (R272). -/
def execPha (s : State) : Host.Outcome State Fault Refusal := runInstr .pha .imp (fun _ s => s.push s.a) s

/-- PHP: B and U set in the pushed byte (R273). -/
def execPhp (s : State) : Host.Outcome State Fault Refusal :=
  runInstr .php .imp (fun _ s => s.push (forced s.p)) s

/-- PHX (R274). -/
def execPhx (s : State) : Host.Outcome State Fault Refusal := runInstr .phx .imp (fun _ s => s.push s.x) s

/-- PHY (R275). -/
def execPhy (s : State) : Host.Outcome State Fault Refusal := runInstr .phy .imp (fun _ s => s.push s.y) s

/-! ## Pull -/

/-- PLA (R276). -/
def execPla (s : State) : Host.Outcome State Fault Refusal :=
  runInstr .pla .imp (fun _ s => s.pop.bind fun v s => .ok () (s.loadA v)) s

/-- PLP: all eight bits; the step then forces B and U (R277). -/
def execPlp (s : State) : Host.Outcome State Fault Refusal :=
  runInstr .plp .imp (fun _ s => s.pop.bind fun v s => .ok () { s with p := v }) s

/-- PLX (R278). -/
def execPlx (s : State) : Host.Outcome State Fault Refusal :=
  runInstr .plx .imp (fun _ s => s.pop.bind fun v s => .ok () (s.loadX v)) s

/-- PLY (R279). -/
def execPly (s : State) : Host.Outcome State Fault Refusal :=
  runInstr .ply .imp (fun _ s => s.pop.bind fun v s => .ok () (s.loadY v)) s

/-! ## Flag set and clear -/

/-- CLC (R280). -/
def execClc (s : State) : Host.Outcome State Fault Refusal :=
  runInstr .clc .imp (fun _ s => .ok () (s.withFlag .c false)) s

/-- SEC (R281). -/
def execSec (s : State) : Host.Outcome State Fault Refusal :=
  runInstr .sec .imp (fun _ s => .ok () (s.withFlag .c true)) s

/-- CLI (R282). -/
def execCli (s : State) : Host.Outcome State Fault Refusal :=
  runInstr .cli .imp (fun _ s => .ok () (s.withFlag .i false)) s

/-- SEI (R283). -/
def execSei (s : State) : Host.Outcome State Fault Refusal :=
  runInstr .sei .imp (fun _ s => .ok () (s.withFlag .i true)) s

/-- CLD (R284). -/
def execCld (s : State) : Host.Outcome State Fault Refusal :=
  runInstr .cld .imp (fun _ s => .ok () (s.withFlag .d false)) s

/-- SED (R285). -/
def execSed (s : State) : Host.Outcome State Fault Refusal :=
  runInstr .sed .imp (fun _ s => .ok () (s.withFlag .d true)) s

/-- CLV (R286). -/
def execClv (s : State) : Host.Outcome State Fault Refusal :=
  runInstr .clv .imp (fun _ s => .ok () (s.withFlag .v false)) s

end Sys2Proof.Machine
end

