-- ==== Sys2Proof/Machine/Fetch.lean ====
section
/-! DEFINITION. Fetching an instruction's bytes through the bus (40_addressing_modes.md R150, R170). -/

namespace Sys2Proof.Machine

/-- Read the opcode at PC and the operand bytes its length asks for, in ascending order, each an ordinary bus
read (20_memory.md R44, R48), and decode them. PC does not move (10_state.md R18). -/
def State.fetch (s : State) : Res Instr :=
  (s.read s.pc).bind fun op s =>
    match (opcodeEntry op).2.length with
    | 2 => (s.read (s.pc + 1)).bind fun b1 s => .ok (decodeBytes op b1 0) s
    | 3 =>
      (s.read (s.pc + 1)).bind fun b1 s =>
      (s.read (s.pc + 2)).bind fun b2 s => .ok (decodeBytes op b1 b2) s
    | _ => .ok (decodeBytes op 0 0) s

/-- Whether a fetch at PC meets no read handler: the three addresses have plain bytes behind them. -/
def State.plainFetch (s : State) : Bool :=
  (s.bus.peek s.cfg s.pc).isSome && (s.bus.peek s.cfg (s.pc + 1)).isSome && (s.bus.peek s.cfg (s.pc + 2)).isSome

/-- Place three bytes where the next fetch reads them. -/
def State.placeAtPc (s : State) : List Byte → State
  | [b0, b1, b2] =>
    { s with bus := ((s.bus.place s.cfg s.pc b0).place s.cfg (s.pc + 1) b1).place s.cfg (s.pc + 2) b2 }
  | _ => s

/-- Where a program is launched when PC points into the I/O page (log 18): the address the spec's own
programs use (95_test_vectors.md section 3). -/
def launchAddress : Word := 0x0300

end Sys2Proof.Machine
end

