-- ==== Sys2Proof/Machine/Step.lean ====
section
/-! DEFINITION. One step: one whole instruction (40_addressing_modes.md R150). -/

namespace Sys2Proof.Machine

/-- Fetch and decode, then run the instruction. -/
def runStep (s : State) : Host.Outcome State Fault Refusal :=
  match s.fetch with
  | .ok i s => exec i s
  | .fault f => .fault f
  | .refused r => .refused r

/-- `Step()`. A Faulted machine takes none (10_state.md R28); one that was never reset is refused (U3, log 9). -/
def step (s : State) : Host.Outcome State Fault Refusal :=
  match s.status with
  | .faulted site off => .fault (.stuck site off)
  | .running => if s.booted then runStep s else .refused .notBooted

/-- The state with an instruction placed where the next step fetches it; `w` is numbered as
spec/opcode_table.json numbers bits, and the bits from `nbits` up are 0. The machine is made one that takes a
step: running, booted, and, if a fetch at PC would meet a soft switch, with PC at `launchAddress` (log 18). -/
def State.withFetchWord (s : State) (nbits w : Nat) : State :=
  let s := { s with status := .running, booted := true }
  let s := if s.plainFetch then s else { s with pc := launchAddress }
  s.placeAtPc (tableBytes nbits w)

end Sys2Proof.Machine
end

