-- ==== Sys2Proof/Machine/Computer.lean ====
section
/-! DEFINITION. The Computer contract: what the host can do between two steps (70_reset_and_hazards.md R430 to
R436; 60_exceptions.md R412, R422; 22_soft_switches.md R96; 51_drive.md R388, R398). No instruction reaches
any of it. -/

namespace Sys2Proof.Machine

/-- Why a host operation fails (60_exceptions.md R410). -/
inductive HostError where
  /-- Raised by Boot and Load: a file or stream cannot be read, or a ROM image has the wrong length. Safe:
  nothing is modified. -/
  | ioError
  /-- Raised by Load: the file name ends in none of the four suffixes. Safe: nothing is modified. -/
  | unknownSuffix
  /-- Raised by Load (R360) and by a save (log 26): the image has the wrong length. Safe: nothing is modified. -/
  | badImageLength
  /-- Raised by a save: a data field of the disk is corrupt. Safe: nothing is modified. -/
  | corruptSector (track ps : Nat)
  /-- Raised by Process, Get, Set, Reset: a bus access left a segment (R412). Safe: the machine is Faulted. -/
  | busFault (site : FaultSite) (off : Nat)
  /-- Raised by Process on a Faulted machine (10_state.md R28). Safe: no step is taken. -/
  | stuck (site : FaultSite) (off : Nat)
  /-- Raised by a save on an empty drive: there is no buffer to decode. Safe: nothing is modified. -/
  | noDisk
  deriving DecidableEq, Repr

/-! ## Faults seen by the host -/

/-- The machine after a bus fault: what the accesses before it did to the bus stays, the registers are free
values, the status is Faulted (R412; 93_implementation_defined.md U5). -/
def State.afterFault (s : State) (site : FaultSite) (off : Nat) (b : Bus) : State :=
  let n := b.draws
  { s with
    a := Config.freeByte n
    x := Config.freeByte (n + 1)
    y := Config.freeByte (n + 2)
    sp := Config.freeByte (n + 3)
    p := Config.freeByte (n + 4)
    pc := word (Config.freeByte (n + 5)) (Config.freeByte (n + 6))
    bus := { b with draws := n + 7 }
    status := .faulted site off }

/-- The result of a bus operation the host asked for, with the machine after it. -/
def hostBus {α : Type} (s : State) : BusRes α → Except HostError α × State
  | .ok v b => (.ok v, { s with bus := b })
  | .fault site off b => (.error (.busFault site off), s.afterFault site off b)

/-- `Process()`: one step; on a bus fault the machine becomes Faulted (R412, R436). Where the model refuses the step
there is neither a result nor a successor state, only the refusal (R410). -/
def State.process (s : State) : Except Refusal (Except HostError Unit × State) :=
  match step s with
  | .next t => .ok (.ok (), t)
  | .fault (.busFault site off b) => .ok (.error (.busFault site off), s.afterFault site off b)
  | .fault (.stuck site off) => .ok (.error (.stuck site off), s)
  | .refused r => .error r

/-! ## Get and Set: ordinary bus accesses, side effects included (20_memory.md R43) -/

/-- Host `Get(addr)`. -/
def State.hostGet (s : State) (a : Word) : Except HostError Byte × State := hostBus s (s.bus.read s.cfg a)

/-- Host `Set(addr, byte)`. -/
def State.hostSet (s : State) (a : Word) (v : Byte) : Except HostError Unit × State :=
  hostBus s (s.bus.write s.cfg a v)

/-! ## Reset and Boot -/

/-- The part of Reset before the vector is read (R431): the switches are assigned, no handler runs. -/
def State.resetRegisters (s : State) : State :=
  { s with
    p := s.cfg.resetP
    sp := resetS
    bus := { s.bus with ms := MachineState.reset s.cfg.resetBank }
    status := .running
    booted := true }

/-- `Reset()` (R431): then PC from the reset vector, through the bus. -/
def State.resetMachine (s : State) : Except HostError Unit × State :=
  let s := s.resetRegisters
  match s.bus.read16 s.cfg vecReset with
  | .ok w b => (.ok (), { s with pc := w, bus := b })
  | .fault site off b => (.error (.busFault site off), s.afterFault site off b)

/-- Copy a whole image into a segment: none if it cannot be read, has another length, or does not fit
(R430; 20_memory.md R40; log 19). -/
def imageCopy (size len : Nat) (m : Memory) (image : Option (List Byte)) : Option Memory :=
  match image with
  | none => none
  | some bytes => if bytes.length = len then (m.copyIn size 0 bytes).map Prod.fst else none

/-- Overwrite the reset vector's bytes in the ROM segment, if `BOOT_VECTOR` says so (R430). -/
def setBootVector (rom : Memory) : Option Word → Memory
  | none => rom
  | some w => (rom.write 0x3FFC (lo w)).write 0x3FFD (hi w)

/-- The length of the internal ROM image (R430). -/
def romImageLen : Nat := 0x4000

/-- The length of the peripheral ROM image (R430). -/
def slotImageLen : Nat := 0x0F00

/-- `Boot(rom_image, slot_rom_image)` (R430). An image that cannot be read is none. -/
def State.boot (s : State) (rom slot : Option (List Byte)) : Except HostError Unit × State :=
  match imageCopy s.cfg.romSize romImageLen s.bus.rom rom,
      imageCopy s.cfg.slotROMSize slotImageLen s.bus.slotROM slot with
  | some r, some sl =>
    { s with bus := { s.bus with rom := setBootVector r s.cfg.bootVector, slotROM := sl } }.resetMachine
  | _, _ => (.error .ioError, s)

/-- The machine at construction, before Boot (R432): registers and `BankSel` free values, every switch zero,
empty drives, nothing listed in any segment (log 1, log 23). -/
def State.construct (c : Cfg) : State where
  cfg := c
  a := Config.freeByte 0
  x := Config.freeByte 1
  y := Config.freeByte 2
  sp := Config.freeByte 3
  p := Config.freeByte 4
  pc := word (Config.freeByte 5) (Config.freeByte 6)
  bus := { Bus.reset (if Config.freeBit 7 then .one else .two) with draws := 8 }
  status := .running
  booted := false

/-! ## Load and save -/

/-- The text from the last `.` on, in lower case; empty if there is none (R434). -/
def suffix (name : List Char) : List Char :=
  if name.contains '.' then '.' :: (name.reverse.takeWhile (· != '.')).reverse.map Char.toLower else []

/-- The image type of a file name (R434). -/
def imageTypeOf (name : List Char) : Option ImageType :=
  let sfx := suffix name
  if sfx = ['.', 'd', 'o'] ∨ sfx = ['.', 'd', 's', 'k'] then some .dos
  else if sfx = ['.', 'p', 'o'] then some .proDOS
  else if sfx = ['.', 'n', 'i', 'b'] then some .nib
  else none

/-- A drive with a newly loaded disk (R434; 51_drive.md R398). -/
def Drive.loaded (d : Drive) (type : ImageType) (img data : List Byte) : Drive :=
  { d with
    image := some img
    imageType := type
    data := some data
    trackPos := 0
    sectorPos := 0
    phase := 0
    latch := 0
    mode := .read }

/-- `Load(stream, filename)` on the selected drive (R434). A stream that cannot be read is none. -/
def State.load (s : State) (stream : Option (List Byte)) (name : List Char) : Except HostError State :=
  match imageTypeOf name, stream with
  | none, _ => .error .unknownSuffix
  | some _, none => .error .ioError
  | some type, some img =>
    match encodeImage type img with
    | .ok data => .ok { s with bus := s.bus.setDrive (s.bus.drive.loaded type img data) }
    | .error _ => .error .badImageLength

/-- A host save: the logical image of a drive's buffer (50_disk_codec.md R358, R359). DESIGN CHOICE (log 28): the drive
is the selected one and the image type is that drive's `ImageType`; an empty drive is `noDisk` (log 24). -/
def State.save (s : State) : Except HostError (List Byte) :=
  match s.bus.drive.data with
  | none => .error .noDisk
  | some phys =>
    match decodeImage s.bus.drive.imageType phys with
    | .ok img => .ok img
    | .error (.corruptSector t ps) => .error (.corruptSector t ps)
    | .error .badImageLength => .error .badImageLength

/-! ## Keys and drive flags -/

/-- `KeyDown(code)` (22_soft_switches.md R96). -/
def State.keyDown (s : State) (code : Byte) : State :=
  { s with bus := { s.bus with ms := { s.bus.ms with
    keyLatch := code &&& 0x7F, keyStrobe := true, anyKeyDown := true } } }

/-- `KeyUp()` (22_soft_switches.md R96). -/
def State.keyUp (s : State) : State :=
  { s with bus := { s.bus with ms := { s.bus.ms with anyKeyDown := false } } }

/-- The drive `d`. -/
def Bus.driveAt (b : Bus) : DriveId → Drive
  | .one => b.drive1
  | .two => b.drive2

/-- Replace the drive `d`. -/
def Bus.setDriveAt (b : Bus) (d : DriveId) (v : Drive) : Bus :=
  match d with
  | .one => { b with drive1 := v }
  | .two => { b with drive2 := v }

/-- The host freezes or frees a head (51_drive.md R388). -/
def State.setLocked (s : State) (d : DriveId) (on : Bool) : State :=
  { s with bus := s.bus.setDriveAt d { s.bus.driveAt d with locked := on } }

/-- The host marks a disk write-protected or not (51_drive.md R388). -/
def State.setWriteProtect (s : State) (d : DriveId) (on : Bool) : State :=
  { s with bus := s.bus.setDriveAt d { s.bus.driveAt d with writeProtect := on } }

/-! ## Direct register access (60_exceptions.md R422) -/

/-- The host writes the CPU registers. -/
def State.setRegisters (s : State) (a x y sp p : Byte) (pc : Word) : State :=
  { s with a := a, x := x, y := y, sp := sp, p := p, pc := pc }

/-- The host writes the soft-switch registers directly; no handler runs. -/
def State.setMachineState (s : State) (m : MachineState) : State := { s with bus := { s.bus with ms := m } }

/-! ## A trace of host events (93_implementation_defined.md U16, U20) -/

/-- What the host can ask for, one at a time, between two steps. -/
inductive HostEvent where
  | boot (rom slot : Option (List Byte))
  | reset
  | load (stream : Option (List Byte)) (name : List Char)
  | process
  | get (a : Word)
  | set (a : Word) (v : Byte)
  | keyDown (code : Byte)
  | keyUp
  | setLocked (d : DriveId) (on : Bool)
  | setWriteProtect (d : DriveId) (on : Bool)
  | setRegisters (a x y sp p : Byte) (pc : Word)
  | setMachineState (m : MachineState)
  deriving DecidableEq, Repr

/-- The machine after one host event; an operation that fails without modifying anything leaves it. A refused step has
no machine after it (R410). -/
def State.event (s : State) : HostEvent → Except Refusal State
  | .boot rom slot => .ok (s.boot rom slot).2
  | .reset => .ok s.resetMachine.2
  | .load stream name =>
    match s.load stream name with
    | .ok t => .ok t
    | .error _ => .ok s
  | .process => s.process.map Prod.snd
  | .get a => .ok (s.hostGet a).2
  | .set a v => .ok (s.hostSet a v).2
  | .keyDown code => .ok (s.keyDown code)
  | .keyUp => .ok s.keyUp
  | .setLocked d on => .ok (s.setLocked d on)
  | .setWriteProtect d on => .ok (s.setWriteProtect d on)
  | .setRegisters a x y sp p pc => .ok (s.setRegisters a x y sp p pc)
  | .setMachineState m => .ok (s.setMachineState m)

/-- The machine after a sequence of host events; the sequence ends, with no machine, at the first refused step. -/
def State.events (s : State) : List HostEvent → Except Refusal State
  | [] => .ok s
  | e :: es =>
    match s.event e with
    | .ok t => t.events es
    | .error r => .error r

end Sys2Proof.Machine
end

