-- ==== Sys2Proof/Safety.lean ====
section
/-! DEFINITION. What claims assume of a state, and what counts as a safe run. `State.Wf` is the invariant of
the model that rules out states no run reaches: full segment sizes, a legal `RESET_P`, canonical memories, head
positions on the disk. -/

namespace Sys2Proof.Machine

/-- Every segment is at least as large as 10_state.md R26 makes it, so that no steered access leaves it
(20_memory.md R59). -/
def fullSize (c : Cfg) : Bool :=
  0x10000 ≤ c.mainSize && 0x10000 ≤ c.auxSize && 0x1000 ≤ c.bankSize && 0x4000 ≤ c.romSize &&
    0x0F00 ≤ c.slotROMSize

/-- The debounce pair and the key code in range (10_state.md R22, R23): `PreWriteCount` counts the attempts at
`PreWriteAddr`, and is back at 0 once it reached 2. -/
structure MachineState.Wf (m : MachineState) : Prop where
  count : m.preWriteCount ≤ 1
  addr : m.preWriteAddr = none ↔ m.preWriteCount = 0
  key : m.keyLatch.msb = false

/-- The head stays on the disk and the disk has its length (10_state.md R24; 51_drive.md R390). -/
structure Drive.Wf (d : Drive) : Prop where
  track : d.trackPos ≤ maxSteps
  sector : d.sectorPos < physTrackLen
  data : ∀ bytes, d.data = some bytes → bytes.length = physImageLen

/-- Well-formed switches and drives, and every segment canonical and inside its size. -/
structure Bus.Wf (c : Cfg) (b : Bus) : Prop where
  ms : b.ms.Wf
  drive1 : b.drive1.Wf
  drive2 : b.drive2.Wf
  canonical : ∀ g, (b.mem g).wf = true
  inside : ∀ g, (b.mem g).inside (c.size g) = true

/-- The invariant of the machine. -/
structure State.Wf (s : State) : Prop where
  size : fullSize s.cfg = true
  resetP : s.cfg.resetPValid = true
  bus : s.bus.Wf s.cfg

/-- A machine that can take a step (10_state.md R28; 93_implementation_defined.md U3). -/
def State.canStep (s : State) : Bool := s.status = .running && s.booted

/-- `k` steps that all complete: no fault, no refusal. -/
def State.runsSafely : Nat → State → Bool
  | 0, _ => true
  | k + 1, s =>
    match step s with
    | .next t => State.runsSafely k t
    | _ => false

/-- The bytes of the segments a bus write can change, by what it reaches: the one byte it stores to, or the
512 bytes of the system-block copy (22_soft_switches.md R90). -/
def WriteTarget.touches (w : WriteTarget) (g : Segment) (off : Nat) : Bool :=
  match w with
  | .cell g' off' => g = g' && off = off'
  | .dropped => false
  | .handler (.sysBlock on) => g = ramSegment on && off < 512
  | .handler _ => false

/-! ## The terms of statements about one instruction -/

/-- The flags of P after an instruction that writes the flags `written` gives a value for: those flags have
that value, B and U are 1 (10_state.md R17), and every other flag is as in `old`. A status byte is its eight
flags, so this fixes `p`. -/
def StatusIs (p old : Byte) (written : Flag → Option Bool) : Prop :=
  ∀ f, getFlag p f = if f = .b ∨ f = .u then true else (written f).getD (getFlag old f)

/-- No flag is written. -/
def noFlags : Flag → Option Bool := fun _ => none

/-- One flag is written. -/
def oneFlag (g : Flag) (on : Bool) : Flag → Option Bool := fun f => if f = g then some on else none

/-- `SetNZ(v)` (00_scope.md R8). -/
def nzOf (v : Byte) : Flag → Option Bool
  | .n => some (v.getLsbD 7)
  | .z => some (v == 0)
  | .c | .i | .d | .b | .u | .v => none

/-- `SetNZ(v)` and C. -/
def nzcOf (v : Byte) (c : Bool) : Flag → Option Bool
  | .c => some c
  | .n => some (v.getLsbD 7)
  | .z => some (v == 0)
  | .i | .d | .b | .u | .v => none

/-- `SetNZ(v)`, V and C. -/
def nvzcOf (v : Byte) (o c : Bool) : Flag → Option Bool
  | .c => some c
  | .v => some o
  | .n => some (v.getLsbD 7)
  | .z => some (v == 0)
  | .i | .d | .b | .u => none

/-- The resolver of `o` gives `r` and leaves `t`: only the bus moved, and every byte of every segment reads
as before (40_addressing_modes.md R150, R151). -/
structure ResolvesTo (o : Operand) (s : State) (r : Resolved) (t : State) : Prop where
  result : resolve o s = .ok r t
  registers : t = { s with bus := t.bus }
  memory : ∀ g off, (t.bus.mem g).read off = (s.bus.mem g).read off

/-- One bus write of `v` at `a` turns `b` into `b'`: the byte behind `a` now reads `v`, every byte the write
does not touch reads as before, and a write that reaches no handler moves no switch and no drive. -/
structure Bus.Stores (c : Cfg) (a : Word) (v : Byte) (b b' : Bus) : Prop where
  write : b.write c a v = .ok () b'
  stored : ∀ g off, b.writeTarget c a = .cell g off → (b'.mem g).read off = v
  kept : ∀ g off, (b.writeTarget c a).touches g off = false → (b'.mem g).read off = (b.mem g).read off
  switches : (∀ h, b.writeTarget c a ≠ .handler h) →
    b'.ms = b.ms ∧ b'.drive1 = b.drive1 ∧ b'.drive2 = b.drive2 ∧ b'.selected = b.selected ∧ b'.draws = b.draws

/-- `b'` differs from `b` in its segments' bytes only, which read as `f` says. -/
structure Bus.MemoryIs (b b' : Bus) (f : Segment → Nat → Byte) : Prop where
  bytes : ∀ g off, (b'.mem g).read off = f g off
  ms : b'.ms = b.ms
  drive1 : b'.drive1 = b.drive1
  drive2 : b'.drive2 = b.drive2
  selected : b'.selected = b.selected
  draws : b'.draws = b.draws

/-- Whether a byte of a segment is the stack slot that `sp` designates (10_state.md R13; R72). -/
def Bus.stackSlot (b : Bus) (sp : Byte) (g : Segment) (off : Nat) : Bool :=
  g = ramSegment b.ms.sysBlockAux && off = 0x100 + sp.toNat

/-- The byte in the stack slot that `sp` designates. -/
def Bus.stackByte (b : Bus) (sp : Byte) : Byte := (b.mem (ramSegment b.ms.sysBlockAux)).read (0x100 + sp.toNat)

/-- The opcode bytes of an instruction by addressing mode, and no other mode has one. -/
def encodedAs (i : Operand → Instr) (rows : List (Mode × Byte)) : Prop :=
  ∀ o, (i o).opcode = rows.lookup o.mode

/-- The soft-switch table is the default one of 22_soft_switches.md R100. -/
def defaultMap (c : Cfg) : Prop := c.switchMap = defaultCfg.switchMap

end Sys2Proof.Machine
end

