-- ==== Sys2Proof/Certificates/Slice0/Obligations.lean ====
section
/-! DEFINITION. The statements for the provers, in the order of OBLIGATIONS.json. Where an instruction has several
forms, its statement holds for every well-formed one; `r` is what its resolver gives and `t` the state the
resolver leaves. Every statement about a next state fixes all of it: `{ t with … }` names what changes. -/

open Sys2Proof Sys2Proof.Machine

/-! ## Encoding and decoding -/

/-- 30_encoding.md R131, R133, R136: decoding the bytes of a well-formed instruction gives it back and leaves the
bytes after it, whatever its operands. -/
def Obligations.DecodeOfEncodeIsTheInstruction : Prop :=
  ∀ (i : Instr) (rest : List Byte), i.wf = true → decode (encode i ++ rest) = .ok (i, rest)

/-- 30_encoding.md R137, R138: every opcode byte with any operand bytes is a well-formed instruction, of the mode
and length of the opcode map, and encoding it gives back exactly the bytes it occupies. -/
def Obligations.EveryByteDecodesToItsInstruction : Prop :=
  ∀ op b1 b2 : Byte,
    (decodeBytes op b1 b2).wf = true ∧
    ((decodeBytes op b1 b2).mnemonic, (decodeBytes op b1 b2).operand.mode) = opcodeEntry op ∧
    encode (decodeBytes op b1 b2) = [op, b1, b2].take (decodeBytes op b1 b2).length

/-- 30_encoding.md R138: every byte decodes; the bytes that decode to NOP1, NOP2 and NOP3 are exactly the 64 of
columns x3, x7, xB and xF, the 11 two-byte ones and the 3 three-byte ones, with those lengths. -/
def Obligations.ReservedBytesAreTheNoOps : Prop :=
  ∀ op b1 b2 : Byte,
    decode [op, b1, b2] = .ok (decodeBytes op b1 b2, [op, b1, b2].drop (decodeBytes op b1 b2).length) ∧
    (op.toNat % 4 = 3 ↔ decodeBytes op b1 b2 = .nop1 op) ∧
    (op ∈ ([0x02, 0x22, 0x42, 0x62, 0x82, 0xC2, 0xE2, 0x44, 0x54, 0xD4, 0xF4] : List Byte) ↔
      decodeBytes op b1 b2 = .nop2 op b1) ∧
    (op ∈ ([0x5C, 0xDC, 0xFC] : List Byte) ↔ decodeBytes op b1 b2 = .nop3 op (b2 ++ b1)) ∧
    (Instr.nop1 op).length = 1 ∧ (Instr.nop2 op b1).length = 2 ∧ (Instr.nop3 op (b2 ++ b1)).length = 3

/-- Words written out from 30_encoding.md R136, one of each family and format. -/
def Obligations.SampleWordsDecodeAsTheTableSays : Prop :=
  decode [0x9D, 0x34, 0x12] = .ok (.sta (.abx 0x1234), []) ∧
  decode [0xB6, 0x7F] = .ok (.ldx (.zpy 0x7F), []) ∧
  decode [0xF2, 0x20] = .ok (.sbc (.zpi 0x20), []) ∧
  decode [0x1A] = .ok (.inc .acc, []) ∧
  decode [0x3C, 0x00, 0x20] = .ok (.bit (.abx 0x2000), []) ∧
  decode [0x1C, 0x00, 0x20] = .ok (.trb (.abs 0x2000), []) ∧
  decode [0x7A] = .ok (.ply, []) ∧
  decode [0xB8] = .ok (.clv, []) ∧
  decode [0x70, 0x80] = .ok (.bvs 0x80, []) ∧
  decode [0x7C, 0x00, 0x30] = .ok (.jmp (.iax 0x3000), []) ∧
  decode [0x40] = .ok (.rti, []) ∧
  decode [0xDC, 0x30, 0xC0] = .ok (.nop3 0xDC 0xC030, [])

/-! ## The step -/

/-- 40_addressing_modes.md R150: a step runs the instruction that its fetch decodes, on the state the fetch
leaves; where the instruction's bytes lie at PC behind no read handler, the fetch leaves the state as it is. -/
def Obligations.StepRunsTheDecodedInstruction : Prop :=
  (∀ s i t, s.canStep = true → s.fetch = .ok i t → step s = exec i t) ∧
  (∀ s i bytes, s.canStep = true → fullSize s.cfg = true → decode bytes = .ok (i, []) →
    (∀ k (h : k < bytes.length), s.bus.peek s.cfg (s.pc + BitVec.ofNat 16 k) = some bytes[k]) →
    step s = exec i s)

/-- 10_state.md R28: a Faulted machine takes no step. A machine that was never reset takes none either: the
model's choice (log 9), after 93_implementation_defined.md U3. 60_exceptions.md R410: a refused step has no successor
state, neither of Process nor of a sequence of host events that comes to it. -/
def Obligations.StoppedMachineTakesNoStep : Prop :=
  (∀ s site off, s.status = .faulted site off → step s = .fault (.stuck site off)) ∧
  (∀ s, s.status = .running → s.booted = false → step s = .refused .notBooted) ∧
  (∀ (s t : State) r before after, s.events before = .ok t → step t = .refused r →
    t.process = .error r ∧ s.events (before ++ .process :: after) = .error r)

/-- Every step keeps the model's invariant: a legal RESET_P (00_scope.md R7), segments inside their sizes and in canonical form, the debounce pair in
range, the key code without bit 7, and both heads on their disks (10_state.md R22 to R26; 51_drive.md R390). -/
def Obligations.StepKeepsTheInvariant : Prop :=
  ∀ s t, s.Wf → step s = .next t → t.Wf

/-- The invariant holds after reset. -/
def Obligations.ResetMeetsTheInvariant : Prop := State.reset.Wf

/-- 10_state.md R17, 70_reset_and_hazards.md R447: after any completed instruction B and U are 1, whatever P was. -/
def Obligations.StepForcesBreakAndUnused : Prop :=
  ∀ s t, step s = .next t → getFlag t.p .b = true ∧ getFlag t.p .u = true

/-- 20_memory.md R59, 60_exceptions.md R411: with segments of their full size no step faults. A machine that can
take a step completes it, but for an ADC or SBC with D set under `DECIMAL_MODE = refuse`. -/
def Obligations.StepCompletesOrRefusesDecimal : Prop :=
  ∀ s, s.Wf → s.canStep = true →
    (∃ t, step s = .next t) ∨
    (s.cfg.decimalMode = .refuse ∧ getFlag s.p .d = true ∧ step s = .refused .decimalRefused)

/-- What no step changes: the configuration (00_scope.md R7), the machine status, both ROM segments
(22_soft_switches.md R78, R83), the keys' code (R96), and of each drive the flags and the image that only the host
sets (51_drive.md R388, R393). -/
def Obligations.StepKeepsWhatOnlyTheHostSets : Prop :=
  ∀ s t, s.Wf → step s = .next t →
    t.cfg = s.cfg ∧ t.status = s.status ∧ t.booted = s.booted ∧
    t.bus.rom = s.bus.rom ∧ t.bus.slotROM = s.bus.slotROM ∧
    t.bus.ms.keyLatch = s.bus.ms.keyLatch ∧ t.bus.ms.anyKeyDown = s.bus.ms.anyKeyDown ∧
    ∀ i, (t.bus.driveAt i).locked = (s.bus.driveAt i).locked ∧
      (t.bus.driveAt i).writeProtect = (s.bus.driveAt i).writeProtect ∧
      (t.bus.driveAt i).image = (s.bus.driveAt i).image ∧
      (t.bus.driveAt i).imageType = (s.bus.driveAt i).imageType

/-! ## Addressing modes -/

/-- 40_addressing_modes.md R153 to R155, R167 to R169: the modes that access no memory in their resolver. The
relative target is the address of the branch, 2, and the signed displacement, modulo 65536. -/
def Obligations.ResolversWithoutBusAccess : Prop :=
  ∀ s, resolve .imp s = .ok ⟨0, 0⟩ s ∧
    resolve .acc s = .ok ⟨0, s.a⟩ s ∧
    (∀ b, resolve (.imm b) s = .ok ⟨0, b⟩ s) ∧
    (∀ b, resolve (.by2 b) s = .ok ⟨0, 0⟩ s) ∧
    (∀ w, resolve (.by3 w) s = .ok ⟨0, 0⟩ s) ∧
    (∀ b, resolve (.rel b) s = .ok ⟨BitVec.ofInt 16 ((s.pc.toNat : Int) + 2 + b.toInt), 0⟩ s)

/-- 40_addressing_modes.md R151, R156 to R161: the direct modes compute their address as the rules say and read it
once, whatever the instruction; where no read handler lies behind it, the resolver changes nothing. -/
def Obligations.DirectResolversReadTheirTargetOnce : Prop :=
  ∀ (s : State) (o : Operand) (ea : Word),
    ((∃ b, o = .zpg b ∧ ea.toNat = b.toNat) ∨
     (∃ b, o = .zpx b ∧ ea.toNat = (b.toNat + s.x.toNat) % 256) ∨
     (∃ b, o = .zpy b ∧ ea.toNat = (b.toNat + s.y.toNat) % 256) ∨
     (∃ w, o = .abs w ∧ ea = w) ∨
     (∃ w, o = .abx w ∧ ea.toNat = (w.toNat + s.x.toNat) % 65536) ∨
     (∃ w, o = .aby w ∧ ea.toNat = (w.toNat + s.y.toNat) % 65536)) →
    resolve o s = (s.read ea).bind (fun v t => .ok ⟨ea, v⟩ t) ∧
    (∀ v, fullSize s.cfg = true → s.bus.peek s.cfg ea = some v → resolve o s = .ok ⟨ea, v⟩ s)

/-- 40_addressing_modes.md R152, R163 to R165: the modes with a pointer in the zero page take its low byte at `z`
and its high byte at `z + 1` modulo 256, in the RAM of the active side (22_soft_switches.md R72), then read their
target once. -/
def Obligations.ZeroPagePointerResolvers : Prop :=
  ∀ (s : State) (o : Operand) (z : Byte) (ea : Word), fullSize s.cfg = true →
    (let base := (s.bus.mem (ramSegment s.bus.ms.sysBlockAux)).read ((z.toNat + 1) % 256) ++
        (s.bus.mem (ramSegment s.bus.ms.sysBlockAux)).read z.toNat
     (∃ b, o = .idx b ∧ z.toNat = (b.toNat + s.x.toNat) % 256 ∧ ea = base) ∨
     (o = .zpi z ∧ ea = base) ∨
     (o = .idy z ∧ ea.toNat = (base.toNat + s.y.toNat) % 65536)) →
    resolve o s = (s.read ea).bind (fun v t => .ok ⟨ea, v⟩ t) ∧
    (∀ v, s.bus.peek s.cfg ea = some v → resolve o s = .ok ⟨ea, v⟩ s)

/-- 40_addressing_modes.md R162, R166: the two pointer modes of JMP read a pointer at a 16-bit address, low byte
first, the second address modulo 65536, and nothing at the target. -/
def Obligations.AbsolutePointerResolvers : Prop :=
  ∀ (s : State) (o : Operand) (ptr : Word),
    ((o = .ind ptr) ∨ (∃ w, o = .iax w ∧ ptr.toNat = (w.toNat + s.x.toNat) % 65536)) →
    resolve o s = (s.read ptr).bind (fun l t => (t.read (ptr + 1)).bind (fun h u => .ok ⟨h ++ l, 0⟩ u)) ∧
    (∀ l h, fullSize s.cfg = true → s.bus.peek s.cfg ptr = some l → s.bus.peek s.cfg (ptr + 1) = some h →
      resolve o s = .ok ⟨h ++ l, 0⟩ s)

/-! ## Loads, stores, transfers -/

/-- 41_load_store_transfer.md R180 to R182: LDA, LDX and LDY in every form put the value their resolver read in
their register and set N and Z from it; nothing else changes. -/
def Obligations.LoadsPutTheValueInTheirRegister : Prop :=
  encodedAs .lda [(.imm, 0xA9), (.zpg, 0xA5), (.zpx, 0xB5), (.abs, 0xAD), (.abx, 0xBD), (.aby, 0xB9), (.idx, 0xA1),
    (.idy, 0xB1), (.zpi, 0xB2)] ∧
  encodedAs .ldx [(.imm, 0xA2), (.zpg, 0xA6), (.zpy, 0xB6), (.abs, 0xAE), (.aby, 0xBE)] ∧
  encodedAs .ldy [(.imm, 0xA0), (.zpg, 0xA4), (.zpx, 0xB4), (.abs, 0xAC), (.abx, 0xBC)] ∧
  ∀ (o : Operand) (s : State), s.Wf →
    ((Instr.lda o).wf = true → ∃ r t p, ResolvesTo o s r t ∧ StatusIs p s.p (nzOf r.ev) ∧
      exec (.lda o) s = .next { t with a := r.ev, p := p, pc := s.pc + BitVec.ofNat 16 o.length }) ∧
    ((Instr.ldx o).wf = true → ∃ r t p, ResolvesTo o s r t ∧ StatusIs p s.p (nzOf r.ev) ∧
      exec (.ldx o) s = .next { t with x := r.ev, p := p, pc := s.pc + BitVec.ofNat 16 o.length }) ∧
    ((Instr.ldy o).wf = true → ∃ r t p, ResolvesTo o s r t ∧ StatusIs p s.p (nzOf r.ev) ∧
      exec (.ldy o) s = .next { t with y := r.ev, p := p, pc := s.pc + BitVec.ofNat 16 o.length })

/-- 41_load_store_transfer.md R183 to R186: STA, STX, STY and STZ in every form read their target with the
resolver, then make one bus write of their register (or 0) at the resolved address; no register and no flag
changes, and no byte but what that write touches. -/
def Obligations.StoresWriteTheirRegisterOnce : Prop :=
  encodedAs .sta [(.zpg, 0x85), (.zpx, 0x95), (.abs, 0x8D), (.abx, 0x9D), (.aby, 0x99), (.idx, 0x81), (.idy, 0x91),
    (.zpi, 0x92)] ∧
  encodedAs .stx [(.zpg, 0x86), (.zpy, 0x96), (.abs, 0x8E)] ∧
  encodedAs .sty [(.zpg, 0x84), (.zpx, 0x94), (.abs, 0x8C)] ∧
  encodedAs .stz [(.zpg, 0x64), (.zpx, 0x74), (.abs, 0x9C), (.abx, 0x9E)] ∧
  ∀ (i : Instr) (o : Operand) (v : Byte) (s : State), s.Wf → i.wf = true →
    ((i = .sta o ∧ v = s.a) ∨ (i = .stx o ∧ v = s.x) ∨ (i = .sty o ∧ v = s.y) ∨ (i = .stz o ∧ v = 0)) →
    ∃ r t b' p, ResolvesTo o s r t ∧ Bus.Stores s.cfg r.ea v t.bus b' ∧ StatusIs p s.p noFlags ∧
      exec i s = .next { t with bus := b', p := p, pc := s.pc + BitVec.ofNat 16 o.length }

/-- 41_load_store_transfer.md R187 to R192: the transfers copy one register to another and set N and Z from the
value, but for TXS, which writes no flag; nothing else changes. -/
def Obligations.TransfersCopyOneRegister : Prop :=
  Instr.tax.opcode = some 0xAA ∧ Instr.tay.opcode = some 0xA8 ∧ Instr.txa.opcode = some 0x8A ∧
  Instr.tya.opcode = some 0x98 ∧ Instr.tsx.opcode = some 0xBA ∧ Instr.txs.opcode = some 0x9A ∧
  ∀ s : State,
    (∃ p, StatusIs p s.p (nzOf s.a) ∧ exec .tax s = .next { s with x := s.a, p := p, pc := s.pc + 1 }) ∧
    (∃ p, StatusIs p s.p (nzOf s.a) ∧ exec .tay s = .next { s with y := s.a, p := p, pc := s.pc + 1 }) ∧
    (∃ p, StatusIs p s.p (nzOf s.x) ∧ exec .txa s = .next { s with a := s.x, p := p, pc := s.pc + 1 }) ∧
    (∃ p, StatusIs p s.p (nzOf s.y) ∧ exec .tya s = .next { s with a := s.y, p := p, pc := s.pc + 1 }) ∧
    (∃ p, StatusIs p s.p (nzOf s.sp) ∧ exec .tsx s = .next { s with x := s.sp, p := p, pc := s.pc + 1 }) ∧
    (∃ p, StatusIs p s.p noFlags ∧ exec .txs s = .next { s with sp := s.x, p := p, pc := s.pc + 1 })

/-! ## Arithmetic -/

/-- 42_arithmetic.md R211, R213 with the core R210: ADC and SBC in every form, where D is clear or
`DECIMAL_MODE = binary`. SBC adds the complemented operand. -/
def Obligations.BinaryAddAndSubtract : Prop :=
  encodedAs .adc [(.imm, 0x69), (.zpg, 0x65), (.zpx, 0x75), (.abs, 0x6D), (.abx, 0x7D), (.aby, 0x79), (.idx, 0x61),
    (.idy, 0x71), (.zpi, 0x72)] ∧
  encodedAs .sbc [(.imm, 0xE9), (.zpg, 0xE5), (.zpx, 0xF5), (.abs, 0xED), (.abx, 0xFD), (.aby, 0xF9), (.idx, 0xE1),
    (.idy, 0xF1), (.zpi, 0xF2)] ∧
  ∀ (i : Instr) (o : Operand) (flip : Byte) (s : State), s.Wf → i.wf = true →
    ((i = .adc o ∧ flip = 0x00) ∨ (i = .sbc o ∧ flip = 0xFF)) →
    (getFlag s.p .d = false ∨ s.cfg.decimalMode = .binary) →
    ∃ r t v p, ResolvesTo o s r t ∧
      (let m := r.ev ^^^ flip
       let sum := s.a.toNat + m.toNat + (if getFlag s.p .c then 1 else 0)
       v.toNat = sum % 256 ∧
       StatusIs p s.p (nvzcOf v (s.a.getLsbD 7 == m.getLsbD 7 && v.getLsbD 7 != s.a.getLsbD 7) (decide (255 < sum)))) ∧
      exec i s = .next { t with a := v, p := p, pc := s.pc + BitVec.ofNat 16 o.length }

/-- The integer reading of 42_arithmetic.md R210, R213: V is set exactly where the exact signed sum (or, for the
complemented operand, the exact signed difference with borrow) leaves -128..127, and C of the difference means
"no borrow". -/
def Obligations.OverflowIsSignedOverflow : Prop :=
  ∀ (a m : Byte) (c : Bool),
    (let cin : Int := if c then 1 else 0
     ((addCore a m c).overflow = true ↔ a.toInt + m.toInt + cin < -128 ∨ 127 < a.toInt + m.toInt + cin) ∧
     ((addCore a m c).overflow = false → (addCore a m c).value.toInt = a.toInt + m.toInt + cin) ∧
     ((addCore a (m ^^^ 0xFF) c).overflow = true ↔
       a.toInt - m.toInt - (1 - cin) < -128 ∨ 127 < a.toInt - m.toInt - (1 - cin)) ∧
     ((addCore a (m ^^^ 0xFF) c).carry = true ↔ 0 ≤ (a.toNat : Int) - m.toNat - (1 - cin)) ∧
     ((addCore a (m ^^^ 0xFF) c).value.toNat : Int) = ((a.toNat : Int) - m.toNat - (1 - cin)) % 256)

/-- 42_arithmetic.md R212, `bcd`, with D set, on operands that are packed BCD: A, C, N and Z are the decimal
result's; V is a free value, of which nothing is said. -/
def Obligations.DecimalAddAndSubtract : Prop :=
  ∀ (i : Instr) (o : Operand) (s : State), s.Wf → i.wf = true → (i = .adc o ∨ i = .sbc o) →
    getFlag s.p .d = true → s.cfg.decimalMode = .bcd →
    ∃ r t, ResolvesTo o s r t ∧
      (s.a.toNat / 16 ≤ 9 → s.a.toNat % 16 ≤ 9 → r.ev.toNat / 16 ≤ 9 → r.ev.toNat % 16 ≤ 9 →
       ∃ v p k overflow,
        (let da : Int := 10 * (s.a.toNat / 16) + s.a.toNat % 16
         let dm : Int := 10 * (r.ev.toNat / 16) + r.ev.toNat % 16
         let c : Int := if getFlag s.p .c then 1 else 0
         let total := if i = .adc o then da + dm + c else da - dm - (1 - c)
         let u := total % 100
         (v.toNat : Int) = 16 * (u / 10) + u % 10 ∧
         StatusIs p s.p (nvzcOf v overflow (if i = .adc o then decide (100 ≤ total) else decide (0 ≤ total)))) ∧
        exec i s = .next { t with a := v, p := p, pc := s.pc + BitVec.ofNat 16 o.length,
                                  bus := { t.bus with draws := k } })

/-- 42_arithmetic.md R212: under `bcd` an operand that is not packed BCD leaves A and the four flags free, and
nothing else; under `refuse` ADC and SBC with D set are refused, on every operand. -/
def Obligations.DecimalCornersAndRefusal : Prop :=
  ∀ (i : Instr) (o : Operand) (s : State), s.Wf → i.wf = true → (i = .adc o ∨ i = .sbc o) →
    getFlag s.p .d = true →
    (s.cfg.decimalMode = .bcd → ∃ r t, ResolvesTo o s r t ∧
      (¬ (s.a.toNat / 16 ≤ 9 ∧ s.a.toNat % 16 ≤ 9 ∧ r.ev.toNat / 16 ≤ 9 ∧ r.ev.toNat % 16 ≤ 9) →
        ∃ v p k n z o' c,
          StatusIs p s.p (fun f => match f with
            | .n => some n
            | .z => some z
            | .v => some o'
            | .c => some c
            | .i | .d | .b | .u => none) ∧
          exec i s = .next { t with a := v, p := p, pc := s.pc + BitVec.ofNat 16 o.length,
                                    bus := { t.bus with draws := k } })) ∧
    (s.cfg.decimalMode = .refuse → exec i s = .refused .decimalRefused)

/-- 42_arithmetic.md R214 to R216 with the core R224: CMP, CPX and CPY set C ("no borrow"), Z and N from the
register and the operand; no register, no other flag and no byte changes, whatever D is. -/
def Obligations.ComparesSetCarryZeroNegative : Prop :=
  encodedAs .cmp [(.imm, 0xC9), (.zpg, 0xC5), (.zpx, 0xD5), (.abs, 0xCD), (.abx, 0xDD), (.aby, 0xD9), (.idx, 0xC1),
    (.idy, 0xD1), (.zpi, 0xD2)] ∧
  encodedAs .cpx [(.imm, 0xE0), (.zpg, 0xE4), (.abs, 0xEC)] ∧
  encodedAs .cpy [(.imm, 0xC0), (.zpg, 0xC4), (.abs, 0xCC)] ∧
  ∀ (i : Instr) (o : Operand) (reg : Byte) (s : State), s.Wf → i.wf = true →
    ((i = .cmp o ∧ reg = s.a) ∨ (i = .cpx o ∧ reg = s.x) ∨ (i = .cpy o ∧ reg = s.y)) →
    ∃ (r : Resolved) (t : State) (d p : Byte), ResolvesTo o s r t ∧
      (d.toNat : Int) = ((reg.toNat : Int) - r.ev.toNat) % 256 ∧
      StatusIs p s.p (fun f => match f with
        | .c => some (decide (r.ev.toNat ≤ reg.toNat))
        | .z => some (decide (reg = r.ev))
        | .n => some (d.getLsbD 7)
        | .i | .d | .b | .u | .v => none) ∧
      exec i s = .next { t with p := p, pc := s.pc + BitVec.ofNat 16 o.length }

/-- 42_arithmetic.md R217, R218 with 43_logic_shift.md R251: INC and DEC of A or of memory, modulo 256, set N and Z
and keep C and V; the memory form reads its target once and writes it once. -/
def Obligations.IncrementAndDecrementWriteBack : Prop :=
  encodedAs .inc [(.zpg, 0xE6), (.zpx, 0xF6), (.abs, 0xEE), (.abx, 0xFE), (.acc, 0x1A)] ∧
  encodedAs .dec [(.zpg, 0xC6), (.zpx, 0xD6), (.abs, 0xCE), (.abx, 0xDE), (.acc, 0x3A)] ∧
  ∀ (i : Instr) (o : Operand) (delta : Nat) (s : State), s.Wf → i.wf = true →
    ((i = .inc o ∧ delta = 1) ∨ (i = .dec o ∧ delta = 255)) →
    ∃ r t v p, ResolvesTo o s r t ∧ v.toNat = (r.ev.toNat + delta) % 256 ∧ StatusIs p s.p (nzOf v) ∧
      (o = .acc → r.ev = s.a ∧ exec i s = .next { t with a := v, p := p, pc := s.pc + 1 }) ∧
      (o ≠ .acc → ∃ b', Bus.Stores s.cfg r.ea v t.bus b' ∧
        exec i s = .next { t with bus := b', p := p, pc := s.pc + BitVec.ofNat 16 o.length })

/-- 42_arithmetic.md R219 to R222: INX, INY, DEX and DEY, modulo 256, set N and Z; nothing else changes. -/
def Obligations.IndexRegistersCountModulo256 : Prop :=
  Instr.inx.opcode = some 0xE8 ∧ Instr.iny.opcode = some 0xC8 ∧ Instr.dex.opcode = some 0xCA ∧
  Instr.dey.opcode = some 0x88 ∧
  ∀ s : State,
    (∃ v p, v.toNat = (s.x.toNat + 1) % 256 ∧ StatusIs p s.p (nzOf v) ∧
      exec .inx s = .next { s with x := v, p := p, pc := s.pc + 1 }) ∧
    (∃ v p, v.toNat = (s.y.toNat + 1) % 256 ∧ StatusIs p s.p (nzOf v) ∧
      exec .iny s = .next { s with y := v, p := p, pc := s.pc + 1 }) ∧
    (∃ v p, v.toNat = (s.x.toNat + 255) % 256 ∧ StatusIs p s.p (nzOf v) ∧
      exec .dex s = .next { s with x := v, p := p, pc := s.pc + 1 }) ∧
    (∃ v p, v.toNat = (s.y.toNat + 255) % 256 ∧ StatusIs p s.p (nzOf v) ∧
      exec .dey s = .next { s with y := v, p := p, pc := s.pc + 1 })

/-! ## Logic, bit test, shifts -/

/-- 43_logic_shift.md R240 to R242: AND, ORA and EOR in every form combine A with the value read bit by bit and set
N and Z; nothing else changes. -/
def Obligations.LogicalInstructionsCombineBits : Prop :=
  encodedAs .and [(.imm, 0x29), (.zpg, 0x25), (.zpx, 0x35), (.abs, 0x2D), (.abx, 0x3D), (.aby, 0x39), (.idx, 0x21),
    (.idy, 0x31), (.zpi, 0x32)] ∧
  encodedAs .ora [(.imm, 0x09), (.zpg, 0x05), (.zpx, 0x15), (.abs, 0x0D), (.abx, 0x1D), (.aby, 0x19), (.idx, 0x01),
    (.idy, 0x11), (.zpi, 0x12)] ∧
  encodedAs .eor [(.imm, 0x49), (.zpg, 0x45), (.zpx, 0x55), (.abs, 0x4D), (.abx, 0x5D), (.aby, 0x59), (.idx, 0x41),
    (.idy, 0x51), (.zpi, 0x52)] ∧
  ∀ (i : Instr) (o : Operand) (op : Bool → Bool → Bool) (s : State), s.Wf → i.wf = true →
    ((i = .and o ∧ op = and) ∨ (i = .ora o ∧ op = or) ∨ (i = .eor o ∧ op = xor)) →
    ∃ r t v p, ResolvesTo o s r t ∧ (∀ k, k < 8 → v.getLsbD k = op (s.a.getLsbD k) (r.ev.getLsbD k)) ∧
      StatusIs p s.p (nzOf v) ∧
      exec i s = .next { t with a := v, p := p, pc := s.pc + BitVec.ofNat 16 o.length }

/-- 43_logic_shift.md R243, R244: BIT sets Z from the AND of A and the operand; the memory forms copy bits 7 and 6
of the operand to N and V, the immediate form leaves N and V; nothing else changes. -/
def Obligations.BitTestFlags : Prop :=
  encodedAs .bit [(.zpg, 0x24), (.zpx, 0x34), (.abs, 0x2C), (.abx, 0x3C), (.imm, 0x89)] ∧
  ∀ (o : Operand) (s : State), s.Wf → (Instr.bit o).wf = true →
    ∃ r t p, ResolvesTo o s r t ∧
      ((∃ b, o = .imm b) → StatusIs p s.p (oneFlag .z (decide (s.a &&& r.ev = 0)))) ∧
      ((∀ b, o ≠ .imm b) → StatusIs p s.p (fun f => match f with
        | .z => some (decide (s.a &&& r.ev = 0))
        | .n => some (r.ev.getLsbD 7)
        | .v => some (r.ev.getLsbD 6)
        | .c | .i | .d | .b | .u => none)) ∧
      exec (.bit o) s = .next { t with p := p, pc := s.pc + BitVec.ofNat 16 o.length }

/-- 43_logic_shift.md R245, R246: TSB and TRB set Z from the AND of A and the value read, and write the value with
A's bits set or cleared; A and the other flags stay. -/
def Obligations.TestAndSetOrResetBits : Prop :=
  encodedAs .tsb [(.zpg, 0x04), (.abs, 0x0C)] ∧ encodedAs .trb [(.zpg, 0x14), (.abs, 0x1C)] ∧
  ∀ (i : Instr) (o : Operand) (op : Bool → Bool → Bool) (s : State), s.Wf → i.wf = true →
    ((i = .tsb o ∧ op = fun m a => m || a) ∨ (i = .trb o ∧ op = fun m a => m && !a)) →
    ∃ r t v b' p, ResolvesTo o s r t ∧ (∀ k, k < 8 → v.getLsbD k = op (r.ev.getLsbD k) (s.a.getLsbD k)) ∧
      StatusIs p s.p (oneFlag .z (decide (s.a &&& r.ev = 0))) ∧ Bus.Stores s.cfg r.ea v t.bus b' ∧
      exec i s = .next { t with bus := b', p := p, pc := s.pc + BitVec.ofNat 16 o.length }

/-- 43_logic_shift.md R247 to R250 with R251: ASL, LSR, ROL and ROR of A or of memory move every bit by one place;
the bit moved out goes to C, the bit moved in is 0 or the old C, N and Z are the result's; the memory form reads
its target once and writes it once. -/
def Obligations.ShiftsAndRotatesMoveOneBit : Prop :=
  encodedAs .asl [(.acc, 0x0A), (.zpg, 0x06), (.zpx, 0x16), (.abs, 0x0E), (.abx, 0x1E)] ∧
  encodedAs .lsr [(.acc, 0x4A), (.zpg, 0x46), (.zpx, 0x56), (.abs, 0x4E), (.abx, 0x5E)] ∧
  encodedAs .rol [(.acc, 0x2A), (.zpg, 0x26), (.zpx, 0x36), (.abs, 0x2E), (.abx, 0x3E)] ∧
  encodedAs .ror [(.acc, 0x6A), (.zpg, 0x66), (.zpx, 0x76), (.abs, 0x6E), (.abx, 0x7E)] ∧
  ∀ (i : Instr) (o : Operand) (left : Bool) (into : Bool) (s : State), s.Wf → i.wf = true →
    ((i = .asl o ∧ left = true ∧ into = false) ∨ (i = .lsr o ∧ left = false ∧ into = false) ∨
     (i = .rol o ∧ left = true ∧ into = getFlag s.p .c) ∨ (i = .ror o ∧ left = false ∧ into = getFlag s.p .c)) →
    ∃ r t v p, ResolvesTo o s r t ∧
      v.toNat = (if left then r.ev.toNat * 2 % 256 + (if into then 1 else 0)
                 else r.ev.toNat / 2 + (if into then 128 else 0)) ∧
      StatusIs p s.p (nzcOf v (if left then r.ev.getLsbD 7 else r.ev.getLsbD 0)) ∧
      (o = .acc → r.ev = s.a ∧ exec i s = .next { t with a := v, p := p, pc := s.pc + 1 }) ∧
      (o ≠ .acc → ∃ b', Bus.Stores s.cfg r.ea v t.bus b' ∧
        exec i s = .next { t with bus := b', p := p, pc := s.pc + BitVec.ofNat 16 o.length })

/-! ## Stack and flags -/

/-- 44_stack_flags.md R270, R272 to R275: the pushes write their byte at the slot S designates, on the active side,
and then decrement S modulo 256; P is pushed with B and U set; no flag, no other register and no other byte
changes. -/
def Obligations.PushesWriteAtTheStackPointer : Prop :=
  Instr.pha.opcode = some 0x48 ∧ Instr.php.opcode = some 0x08 ∧ Instr.phx.opcode = some 0xDA ∧
  Instr.phy.opcode = some 0x5A ∧
  ∀ (i : Instr) (v : Byte) (s : State), s.Wf →
    ((i = .pha ∧ v = s.a) ∨ (i = .php ∧ StatusIs v s.p noFlags) ∨ (i = .phx ∧ v = s.x) ∨ (i = .phy ∧ v = s.y)) →
    ∃ b' p, Bus.Stores s.cfg (stackAddr s.sp) v s.bus b' ∧
      Bus.MemoryIs s.bus b' (fun g off => if s.bus.stackSlot s.sp g off then v else (s.bus.mem g).read off) ∧
      StatusIs p s.p noFlags ∧
      exec i s = .next { s with bus := b', sp := s.sp - 1, p := p, pc := s.pc + 1 }

/-- 44_stack_flags.md R271, R276 to R279: the pulls increment S modulo 256 and take the byte in the slot it then
designates; PLA, PLX and PLY set N and Z from it, PLP loads all of P from it (B and U are then forced); no byte
and nothing else changes. -/
def Obligations.PullsReadAboveTheStackPointer : Prop :=
  Instr.pla.opcode = some 0x68 ∧ Instr.plp.opcode = some 0x28 ∧ Instr.plx.opcode = some 0xFA ∧
  Instr.ply.opcode = some 0x7A ∧
  ∀ s : State, s.Wf → ∀ v, v = s.bus.stackByte (s.sp + 1) →
    (∃ p, StatusIs p s.p (nzOf v) ∧
      exec .pla s = .next { s with a := v, sp := s.sp + 1, p := p, pc := s.pc + 1 }) ∧
    (∃ p, StatusIs p v noFlags ∧ exec .plp s = .next { s with sp := s.sp + 1, p := p, pc := s.pc + 1 }) ∧
    (∃ p, StatusIs p s.p (nzOf v) ∧
      exec .plx s = .next { s with x := v, sp := s.sp + 1, p := p, pc := s.pc + 1 }) ∧
    (∃ p, StatusIs p s.p (nzOf v) ∧
      exec .ply s = .next { s with y := v, sp := s.sp + 1, p := p, pc := s.pc + 1 })

/-- 44_stack_flags.md R280 to R286: each flag instruction writes exactly its flag; nothing else changes. -/
def Obligations.FlagInstructionsWriteOneFlag : Prop :=
  Instr.clc.opcode = some 0x18 ∧ Instr.sec.opcode = some 0x38 ∧ Instr.cli.opcode = some 0x58 ∧
  Instr.sei.opcode = some 0x78 ∧ Instr.cld.opcode = some 0xD8 ∧ Instr.sed.opcode = some 0xF8 ∧
  Instr.clv.opcode = some 0xB8 ∧
  ∀ (i : Instr) (g : Flag) (on : Bool) (s : State),
    (i, g, on) ∈ [(Instr.clc, Flag.c, false), (.sec, .c, true), (.cli, .i, false), (.sei, .i, true),
      (.cld, .d, false), (.sed, .d, true), (.clv, .v, false)] →
    ∃ p, StatusIs p s.p (oneFlag g on) ∧ exec i s = .next { s with p := p, pc := s.pc + 1 }

/-! ## Control flow -/

/-- 45_control_flow.md R300 to R309: a branch whose condition holds goes to the address of its opcode, 2, and the
signed displacement, modulo 65536; else to the next instruction; nothing else changes. -/
def Obligations.BranchesGoWhereTheirFlagSays : Prop :=
  (∀ d, (Instr.bcc d).opcode = some 0x90 ∧ (Instr.bcs d).opcode = some 0xB0 ∧ (Instr.beq d).opcode = some 0xF0 ∧
    (Instr.bne d).opcode = some 0xD0 ∧ (Instr.bmi d).opcode = some 0x30 ∧ (Instr.bpl d).opcode = some 0x10 ∧
    (Instr.bvc d).opcode = some 0x50 ∧ (Instr.bvs d).opcode = some 0x70 ∧ (Instr.bra d).opcode = some 0x80) ∧
  ∀ (i : Instr) (d : Byte) (taken : Bool) (s : State),
    (i, taken) ∈ [(Instr.bcc d, !getFlag s.p .c), (.bcs d, getFlag s.p .c), (.beq d, getFlag s.p .z),
      (.bne d, !getFlag s.p .z), (.bmi d, getFlag s.p .n), (.bpl d, !getFlag s.p .n), (.bvc d, !getFlag s.p .v),
      (.bvs d, getFlag s.p .v), (.bra d, true)] →
    ∃ p, StatusIs p s.p noFlags ∧
      exec i s = .next { s with p := p, pc := BitVec.ofInt 16 ((s.pc.toNat : Int) + 2 + if taken then d.toInt else 0) }

/-- 45_control_flow.md R310: JMP in each of its three forms goes to the address its resolver gives; nothing is
pushed and no flag changes. -/
def Obligations.JumpGoesToTheResolvedAddress : Prop :=
  encodedAs .jmp [(.abs, 0x4C), (.ind, 0x6C), (.iax, 0x7C)] ∧
  ∀ (o : Operand) (s : State), s.Wf → (Instr.jmp o).wf = true →
    ∃ r t p, ResolvesTo o s r t ∧ StatusIs p s.p noFlags ∧ (∀ w, o = .abs w → r.ea = w) ∧
      exec (.jmp o) s = .next { t with p := p, pc := r.ea }

/-- 45_control_flow.md R313: JSR reads its target once, pushes the address of its third byte, high byte first, and
goes to the target; S falls by 2 modulo 256; no other byte and no flag changes. -/
def Obligations.JsrPushesTheReturnAddress : Prop :=
  (∀ w, (Instr.jsr w).opcode = some 0x20) ∧
  ∀ (w : Word) (s : State), s.Wf →
    ∃ r t b' p, ResolvesTo (.abs w) s r t ∧ StatusIs p s.p noFlags ∧
      Bus.MemoryIs t.bus b' (fun g off =>
        if t.bus.stackSlot s.sp g off then BitVec.ofNat 8 ((s.pc + 2).toNat / 256)
        else if t.bus.stackSlot (s.sp - 1) g off then BitVec.ofNat 8 ((s.pc + 2).toNat % 256)
        else (t.bus.mem g).read off) ∧
      exec (.jsr w) s = .next { t with bus := b', sp := s.sp - 2, p := p, pc := w }

/-- 45_control_flow.md R314: RTS pulls the low and then the high byte and goes to the address after the one they
spell; S rises by 2 modulo 256; nothing else changes. -/
def Obligations.RtsReturnsPastThePulledAddress : Prop :=
  Instr.rts.opcode = some 0x60 ∧
  ∀ s : State, s.Wf →
    ∃ p, StatusIs p s.p noFlags ∧
      exec .rts s = .next { s with
        sp := s.sp + 2, p := p
        pc := (s.bus.stackByte (s.sp + 2) ++ s.bus.stackByte (s.sp + 1)) + 1 }

/-- 45_control_flow.md R315, 60_exceptions.md R413: BRK pushes the address two past its opcode, high byte first,
and P with B and U set; sets I, clears D, and goes to the address in 0xFFFE and 0xFFFF, low byte first, which are
plain reads of ROM or bank RAM; S falls by 3 modulo 256; nothing else changes. -/
def Obligations.BrkTakesTheTrap : Prop :=
  Instr.brk.opcode = some 0x00 ∧
  ∀ s : State, s.Wf →
    ∃ l h pushed b' p, s.bus.peek s.cfg 0xFFFE = some l ∧ s.bus.peek s.cfg 0xFFFF = some h ∧
      StatusIs pushed s.p noFlags ∧
      StatusIs p s.p (fun f => if f = .i then some true else if f = .d then some false else none) ∧
      Bus.MemoryIs s.bus b' (fun g off =>
        if s.bus.stackSlot s.sp g off then BitVec.ofNat 8 ((s.pc + 2).toNat / 256)
        else if s.bus.stackSlot (s.sp - 1) g off then BitVec.ofNat 8 ((s.pc + 2).toNat % 256)
        else if s.bus.stackSlot (s.sp - 2) g off then pushed
        else (s.bus.mem g).read off) ∧
      exec .brk s = .next { s with bus := b', sp := s.sp - 3, p := p, pc := h ++ l }

/-- 45_control_flow.md R316, 60_exceptions.md R414: RTI pulls P (B and U are then forced), then the low and the
high byte of the address it goes to, with nothing added; S rises by 3 modulo 256; nothing else changes. -/
def Obligations.RtiRestoresStatusAndCounter : Prop :=
  Instr.rti.opcode = some 0x40 ∧
  ∀ s : State, s.Wf →
    ∃ p, StatusIs p (s.bus.stackByte (s.sp + 1)) noFlags ∧
      exec .rti s = .next { s with
        sp := s.sp + 3, p := p
        pc := s.bus.stackByte (s.sp + 3) ++ s.bus.stackByte (s.sp + 2) }

/-- 60_exceptions.md R413, R414 together: an RTI executed in the state a BRK leaves resumes two past the BRK, with
S, I, D and the other flags as before it (B and U 1), and with A, X, Y, every switch, every drive, the selector and
every byte as before, but for the three stack slots that BRK wrote: the return address, high byte in the highest
slot, and the status. -/
def Obligations.RtiUndoesBrk : Prop :=
  ∀ s t : State, s.Wf → exec .brk s = .next t →
    ∃ b' p, StatusIs p s.p noFlags ∧
      Bus.MemoryIs s.bus b' (fun g off =>
        if s.bus.stackSlot s.sp g off then BitVec.ofNat 8 ((s.pc + 2).toNat / 256)
        else if s.bus.stackSlot (s.sp - 1) g off then BitVec.ofNat 8 ((s.pc + 2).toNat % 256)
        else if s.bus.stackSlot (s.sp - 2) g off then p
        else (s.bus.mem g).read off) ∧
      exec .rti t = .next { s with bus := b', p := p, pc := s.pc + 2 }

/-- 45_control_flow.md R317 to R320: NOP and the three reserved no-ops only advance PC by their length (and force
B and U): no register, flag or byte changes and their operand bytes name nothing that is accessed. -/
def Obligations.NoOpsOnlyAdvance : Prop :=
  Instr.nop.opcode = some 0xEA ∧
  ∀ (i : Instr) (n : Word) (s : State),
    ((i = .nop ∧ n = 1) ∨ (∃ op, i = .nop1 op ∧ n = 1) ∨ (∃ op b, i = .nop2 op b ∧ n = 2) ∨
     (∃ op w, i = .nop3 op w ∧ n = 3)) →
    ∃ p, StatusIs p s.p noFlags ∧ exec i s = .next { s with p := p, pc := s.pc + n }

/-! ## Memory and steering -/

/-- 22_soft_switches.md R72 to R76: which RAM a read and a write below $C000 reach. -/
def Obligations.LowMemorySteering : Prop :=
  ∀ (c : Cfg) (b : Bus) (a : Word), a.toNat < 0xC000 →
    (let side := fun direct : Bool =>
      if a.toNat ≤ 0x01FF then b.ms.sysBlockAux
      else if b.ms.store80 = true ∧ 0x0400 ≤ a.toNat ∧ a.toNat ≤ 0x07FF then b.ms.page2
      else if b.ms.store80 = true ∧ b.ms.hiRes = true ∧ 0x2000 ≤ a.toNat ∧ a.toNat ≤ 0x3FFF then b.ms.page2
      else direct
     b.readTarget c a = .cell (if side b.ms.readAux then .aux else .main) a.toNat ∧
     b.writeTarget c a = .cell (if side b.ms.writeAux then .aux else .main) a.toNat)

/-- 22_soft_switches.md R77 to R83: the I/O page, whose addresses without a handler under the default table (R100) are
plain storage of `Main` for reads and writes, and whose other addresses have a handler for both; the slot-ROM window,
which is never written; and the bank-switched region, whose reads come from ROM or bank RAM and whose writes reach bank
RAM or nothing. -/
def Obligations.HighMemorySteering : Prop :=
  ∀ (c : Cfg) (b : Bus) (a : Word),
    (defaultMap c → 0xC000 ≤ a.toNat → a.toNat ≤ 0xC0FF →
      if (0xC020 ≤ a.toNat ∧ a.toNat ≤ 0xC04F) ∨ (0xC058 ≤ a.toNat ∧ a.toNat ≤ 0xC05D) ∨
          (0xC060 ≤ a.toNat ∧ a.toNat ≤ 0xC07D) ∨ (0xC090 ≤ a.toNat ∧ a.toNat ≤ 0xC0DF)
      then b.readTarget c a = .cell .main a.toNat ∧ b.writeTarget c a = .cell .main a.toNat
      else (∃ h, b.readTarget c a = .handler h) ∧ ∃ h, b.writeTarget c a = .handler h) ∧
    (0xC100 ≤ a.toNat → a.toNat ≤ 0xCFFF →
      b.readTarget c a =
        (if b.ms.intCxROM = true ∨ (0xC300 ≤ a.toNat ∧ a.toNat ≤ 0xC3FF ∧ b.ms.slotC3ROM = false)
         then .cell .rom (a.toNat - 0xC000) else .cell .slotROM (a.toNat - 0xC100)) ∧
      b.writeTarget c a = .dropped) ∧
    (0xD000 ≤ a.toNat →
      (let ram : Segment × Nat :=
        if a.toNat ≤ 0xDFFF ∧ b.ms.bankSel = .two
        then (if b.ms.sysBlockAux then .auxBank2 else .mainBank2, a.toNat - 0xD000)
        else (if b.ms.sysBlockAux then .aux else .main, a.toNat)
       b.readTarget c a = (if b.ms.bankRead = .rom then .cell .rom (a.toNat - 0xC000) else .cell ram.1 ram.2) ∧
       b.writeTarget c a = (if b.ms.bankWrite then .cell ram.1 ram.2 else .dropped)))

/-- 20_memory.md R40, R42, R54, 22_soft_switches.md R79: on a well-formed bus, a write steered to a byte is what the
next read steered to that byte returns, a read steered to any other byte returns what it did before, and a dropped
write changes nothing. Reads behind no handler change nothing. -/
def Obligations.ReadsReturnTheLatestWrite : Prop :=
  ∀ (c : Cfg) (b : Bus) (a : Word) (v : Byte), fullSize c = true → b.Wf c →
    (b.writeTarget c a = .dropped → b.write c a v = .ok () b) ∧
    (∀ g off, b.writeTarget c a = .cell g off → ∃ b', b.write c a v = .ok () b' ∧
      ∀ (e : Word) (g' : Segment) (off' : Nat), b.readTarget c e = .cell g' off' →
        b'.readTarget c e = .cell g' off' ∧
        b'.read c e = .ok (if g' = g ∧ off' = off then v else (b.mem g').read off') b' ∧
        b.read c e = .ok ((b.mem g').read off') b)

/-! ## Soft switches, under the default table -/

/-- 22_soft_switches.md R84 to R87: an access of $C080-$C08F, read or write alike, selects the bank from bit 3 and
the read source from bits 1:0, and runs the write-enable debounce; nothing else changes, and a read returns a free
value. -/
def Obligations.BankSwitchAccesses : Prop :=
  ∀ (c : Cfg) (b : Bus) (a : Word) (v : Byte), defaultMap c → 0xC080 ≤ a.toNat → a.toNat ≤ 0xC08F →
    ∃ m : MachineState,
      (∃ w k, b.read c a = .ok w { b with ms := m, draws := k }) ∧
      b.write c a v = .ok () { b with ms := m } ∧
      m = { b.ms with bankSel := m.bankSel, bankRead := m.bankRead, bankWrite := m.bankWrite,
                      preWriteAddr := m.preWriteAddr, preWriteCount := m.preWriteCount } ∧
      m.bankSel = (if a.toNat / 8 % 2 = 1 then .one else .two) ∧
      m.bankRead = (if a.toNat % 4 = 0 ∨ a.toNat % 4 = 3 then .ram else .rom) ∧
      (a.toNat % 2 = 0 → m.bankWrite = false ∧ m.preWriteAddr = none ∧ m.preWriteCount = 0) ∧
      (a.toNat % 2 = 1 →
        (let count := if b.ms.preWriteAddr = some a then b.ms.preWriteCount + 1 else 1
         if 2 ≤ count then m.bankWrite = true ∧ m.preWriteAddr = none ∧ m.preWriteCount = 0
         else m.bankWrite = b.ms.bankWrite ∧ m.preWriteAddr = some a ∧ m.preWriteCount = count))

/-- 22_soft_switches.md R71, R88, R91 to R95: the status addresses return 0x80 or 0x00 by their flag, and change
nothing. -/
def Obligations.StatusReadsReturnTheirFlag : Prop :=
  ∀ (c : Cfg) (b : Bus), defaultMap c →
    ∀ e ∈ ([(0xC011, decide (b.ms.bankSel = .two)), (0xC012, decide (b.ms.bankRead = .ram)),
        (0xC013, b.ms.readAux), (0xC014, b.ms.writeAux), (0xC015, b.ms.intCxROM), (0xC016, b.ms.sysBlockAux),
        (0xC017, b.ms.slotC3ROM), (0xC018, b.ms.store80), (0xC01A, b.ms.text), (0xC01B, b.ms.mixed),
        (0xC01C, b.ms.page2), (0xC01D, b.ms.hiRes), (0xC01E, b.ms.altChar), (0xC01F, b.ms.col80),
        (0xC07E, b.ms.iouEnable), (0xC07F, b.ms.dHiRes)] : List (Word × Bool)),
      b.read c e.1 = .ok (if e.2 then 0x80 else 0x00) b

/-- 22_soft_switches.md R92, R94, R95: a write of a command address changes its flag and nothing else, whatever the
value written; the toggles of $C050-$C057 and $C05E, $C05F do so on a read too, which returns a free value; double
hi-res is honoured only while the IOU is enabled. -/
def Obligations.CommandSwitchesChangeTheirFlag : Prop :=
  ∀ (c : Cfg) (b : Bus) (v : Byte), defaultMap c →
    (∀ e ∈ ([(0xC000, { b.ms with store80 := false }), (0xC001, { b.ms with store80 := true }),
        (0xC002, { b.ms with readAux := false }), (0xC003, { b.ms with readAux := true }),
        (0xC004, { b.ms with writeAux := false }), (0xC005, { b.ms with writeAux := true }),
        (0xC006, { b.ms with intCxROM := false }), (0xC007, { b.ms with intCxROM := true }),
        (0xC00A, { b.ms with slotC3ROM := false }), (0xC00B, { b.ms with slotC3ROM := true }),
        (0xC00C, { b.ms with col80 := false }), (0xC00D, { b.ms with col80 := true }),
        (0xC00E, { b.ms with altChar := false }), (0xC00F, { b.ms with altChar := true }),
        (0xC07E, { b.ms with iouEnable := true }), (0xC07F, { b.ms with iouEnable := false })] :
        List (Word × MachineState)),
      b.write c e.1 v = .ok () { b with ms := e.2 }) ∧
    (∀ e ∈ ([(0xC050, { b.ms with text := false }), (0xC051, { b.ms with text := true }),
        (0xC052, { b.ms with mixed := false }), (0xC053, { b.ms with mixed := true }),
        (0xC054, { b.ms with page2 := false }), (0xC055, { b.ms with page2 := true }),
        (0xC056, { b.ms with hiRes := false }), (0xC057, { b.ms with hiRes := true }),
        (0xC05E, if b.ms.iouEnable then { b.ms with dHiRes := true } else b.ms),
        (0xC05F, if b.ms.iouEnable then { b.ms with dHiRes := false } else b.ms)] :
        List (Word × MachineState)),
      b.write c e.1 v = .ok () { b with ms := e.2 } ∧
      ∃ w k, b.read c e.1 = .ok w { b with ms := e.2, draws := k })

/-- 22_soft_switches.md R92, R93, R96, R97: reads of $C000-$C00F give the key code under the strobe bit and change
nothing; a read of $C010 gives it under the any-key bit and clears the strobe; a write of $C010-$C01F clears the
strobe; $C019 gives a free value and changes nothing. -/
def Obligations.KeyboardReadsAndStrobe : Prop :=
  ∀ (c : Cfg) (b : Bus) (v : Byte), defaultMap c → b.ms.Wf →
    (∀ a : Word, 0xC000 ≤ a.toNat → a.toNat ≤ 0xC00F → ∃ w, b.read c a = .ok w b ∧
      w.toNat = (if b.ms.keyStrobe then 128 else 0) + b.ms.keyLatch.toNat) ∧
    (∃ w, b.read c 0xC010 = .ok w { b with ms := { b.ms with keyStrobe := false } } ∧
      w.toNat = (if b.ms.anyKeyDown then 128 else 0) + b.ms.keyLatch.toNat) ∧
    (∀ a : Word, 0xC010 ≤ a.toNat → a.toNat ≤ 0xC01F →
      b.write c a v = .ok () { b with ms := { b.ms with keyStrobe := false } }) ∧
    (∃ w k, b.read c 0xC019 = .ok w { b with draws := k })

/-- 22_soft_switches.md R90: a write of $C009 or $C008 sets or clears the system-block flag; where the flag changes,
the first 512 bytes go from the side that was active to the one that becomes active; where it does not, nothing
changes. -/
def Obligations.SystemBlockSwitchCopiesTheBlock : Prop :=
  ∀ (c : Cfg) (b : Bus) (v : Byte) (on : Bool), defaultMap c → fullSize c = true → b.Wf c →
    ∃ b', b.write c (if on then 0xC009 else 0xC008) v = .ok () b' ∧
      (b.ms.sysBlockAux = on → b' = b) ∧
      (b.ms.sysBlockAux = !on →
        b'.ms = { b.ms with sysBlockAux := on } ∧ b'.drive1 = b.drive1 ∧ b'.drive2 = b.drive2 ∧
        b'.selected = b.selected ∧ b'.draws = b.draws ∧
        ∀ g off, (b'.mem g).read off =
          if g = (if on then .aux else .main) ∧ off < 512 then (b.mem (if on then .main else .aux)).read off
          else (b.mem g).read off)

/-! ## The drive -/

/-- 51_drive.md R383, R384: a phase switch of even low nibble changes nothing; an odd one, 2p - 1, makes p the phase,
and where the phase table commands a step, the head moves by it within 0..69 and the offset goes to 0. -/
def Obligations.HeadStepsByThePhaseTable : Prop :=
  ∀ (c : Cfg) (d : Drive),
    (∀ n ∈ [0, 2, 4, 6], d.stepPhase c n = d) ∧
    (∀ e ∈ ([(1, 1), (3, 2), (5, 3), (7, 4)] : List (Nat × Fin 5)),
      (let entry : HeadStep := (c.phaseTable[d.phase])[e.2]
       let delta : Int := if entry = .inward then 1 else if entry = .outward then -1 else 0
       d.stepPhase c e.1 = { d with
         phase := e.2
         trackPos := if delta = 0 then d.trackPos else (min 69 (max 0 ((d.trackPos : Int) + delta))).toNat
         sectorPos := if delta = 0 then d.sectorPos else 0 }))

/-- 51_drive.md R387, R390 to R393, R395, R396: an access of $C0EC or $C0FC moves one byte at the head of the
selected drive and advances, around the track, unless the drive is locked. Reading takes the disk's byte into the
latch, and a bus read returns it; writing commits the latch where its bit 7 is set and the disk is not protected. With
no disk the position moves the same way, for a read and for a write access; reading then latches a free value. -/
def Obligations.StrobeMovesOneByteAndAdvances : Prop :=
  ∀ (c : Cfg) (b : Bus) (a : Word) (v : Byte), defaultMap c → b.Wf c → a = 0xC0EC ∨ a = 0xC0FC →
    (let d := b.drive
     let at' := d.trackPos / 2 * 6656 + d.sectorPos
     let pos' := if d.locked then d.sectorPos else if d.sectorPos + 1 = 6656 then 0 else d.sectorPos + 1
     (∀ bytes, d.data = some bytes → d.mode = .read →
       b.read c a = .ok (bytes.getD at' 0) (b.setDrive { d with latch := bytes.getD at' 0, sectorPos := pos' }) ∧
       b.write c a v = .ok () (b.setDrive { d with latch := bytes.getD at' 0, sectorPos := pos' })) ∧
     (∀ bytes, d.data = some bytes → d.mode = .write →
       (let kept := if d.latch.getLsbD 7 = true ∧ d.writeProtect = false then bytes.set at' d.latch else bytes
        b.read c a = .ok d.latch (b.setDrive { d with data := some kept, sectorPos := pos' }) ∧
        b.write c a v = .ok () (b.setDrive { d with data := some kept, sectorPos := pos' }))) ∧
     (d.data = none → d.mode = .read → ∃ w k,
       b.read c a = .ok w { b.setDrive { d with latch := w, sectorPos := pos' } with draws := k } ∧
       b.write c a v = .ok () { b.setDrive { d with latch := w, sectorPos := pos' } with draws := k }) ∧
     (d.data = none → d.mode = .write →
       b.read c a = .ok d.latch (b.setDrive { d with sectorPos := pos' }) ∧
       b.write c a v = .ok () (b.setDrive { d with sectorPos := pos' })))

/-- 51_drive.md R380, R395, R396, 22_soft_switches.md R99: the discrete drive switches, at both their addresses;
every effect is on the selected drive, the other keeps every field, and no switch and no segment changes. -/
def Obligations.DriveSwitchesActOnTheSelectedDrive : Prop :=
  ∀ (c : Cfg) (b : Bus) (v : Byte) (base : Word), defaultMap c → base = 0xC0E0 ∨ base = 0xC0F0 →
    (let d := b.drive
     b.write c (base + 8) v = .ok () (b.setDrive { d with online := false }) ∧
     b.write c (base + 9) v = .ok () (b.setDrive { d with online := true }) ∧
     b.write c (base + 10) v = .ok () { b with selected := .one } ∧
     b.write c (base + 11) v = .ok () { b with selected := .two } ∧
     b.write c (base + 13) v = .ok () (b.setDrive { d with latch := v }) ∧
     b.write c (base + 14) v = .ok () (b.setDrive { d with mode := .read }) ∧
     b.write c (base + 15) v = .ok () (b.setDrive { d with mode := .write, latch := v }) ∧
     b.read c (base + 8) = .ok d.latch (b.setDrive { d with online := false }) ∧
     b.read c (base + 10) = .ok b.drive1.latch { b with selected := .one } ∧
     b.read c (base + 14) = .ok (if d.writeProtect then 0x80 else 0x00) (b.setDrive { d with mode := .read }) ∧
     (∃ w k, b.read c (base + 9) = .ok w { b.setDrive { d with online := true } with draws := k }) ∧
     (∃ w k, b.read c (base + 11) = .ok w { b with selected := .two, draws := k }) ∧
     (∃ w k, b.read c (base + 13) = .ok w { b with draws := k }) ∧
     (∃ w k, b.read c (base + 15) = .ok w { b.setDrive { d with mode := .write } with draws := k }) ∧
     (∀ n : Word, n.toNat < 8 →
       b.write c (base + n) v = .ok () (b.setDrive (d.stepPhase c n.toNat)) ∧
       ∃ w k, b.read c (base + n) = .ok w { b.setDrive (d.stepPhase c n.toNat) with draws := k } ∧
         (n.toNat % 2 = 0 → w = d.latch ∧ k = b.draws))) ∧
    (∀ (a : Word) (b' : Bus) (i : DriveId), base.toNat ≤ a.toNat → a.toNat < base.toNat + 16 → i ≠ b.selected →
      (b.write c a v = .ok () b' ∨ ∃ w, b.read c a = .ok w b') →
      b'.driveAt i = b.driveAt i ∧ b'.ms = b.ms ∧ ∀ g, b'.mem g = b.mem g)

/-! ## The disk codec -/

/-- 50_disk_codec.md R345, R355, R361: decoding an encoded byte pair, and an encoded sector of 256 bytes, gives it
back; an encoded sector has 343 bytes, all with bit 7 set. -/
def Obligations.SectorCodecRoundTrip : Prop :=
  (∀ b : Byte, ∃ h l, enc44 b = [h, l] ∧ dec44 h l = b) ∧
  (∀ d : List Byte, d.length = 256 →
    (enc62 d).length = 343 ∧ (∀ x ∈ enc62 d, x.getLsbD 7 = true) ∧ dec62 (enc62 d) = some d)

/-- 50_disk_codec.md R354, R358, R360, R361: an image of the right length encodes, to a physical image of
35 * 6656 bytes that decodes to it, for each of the three types; an image of any other length is refused. That Decode
refuses a physical image of any other length in the same way is the model's reading of R340 (log 26). -/
def Obligations.ImageCodecRoundTrip : Prop :=
  ∀ (type : ImageType) (img : List Byte),
    (img.length = (if type = .nib then 232960 else 143360) →
      ∃ phys, encodeImage type img = .ok phys ∧ phys.length = 232960 ∧ decodeImage type phys = .ok img) ∧
    (img.length ≠ (if type = .nib then 232960 else 143360) → encodeImage type img = .error .badImageLength) ∧
    (∀ phys : List Byte, phys.length ≠ 232960 → decodeImage type phys = .error .badImageLength)

/-- 50_disk_codec.md R361: flipping any single bit of an encoded data field makes the decode report corruption. -/
def Obligations.SingleBitFlipIsDetected : Prop :=
  ∀ (d : List Byte) (j k : Nat), d.length = 256 → j < 343 → k < 8 →
    dec62 ((enc62 d).set j ((enc62 d).getD j 0 ^^^ (1 <<< k))) = none

/-! ## The Computer contract -/

/-- 70_reset_and_hazards.md R431, 10_state.md R27: Reset sets P, S, the switches and the status, and reads PC from
the ROM segment; A, X, Y, every segment and both drives stay. The clause `booted := true` is no part of R431: that the
machine counts as reset from then on is the model's choice (log 9). -/
def Obligations.ResetSetsTheListedState : Prop :=
  ∀ s : State, fullSize s.cfg = true →
    ∃ m : MachineState, s.resetMachine = (.ok (), { s with
        p := s.cfg.resetP, sp := 0xFF, pc := s.bus.rom.read 0x3FFD ++ s.bus.rom.read 0x3FFC,
        bus := { s.bus with ms := m }, status := .running, booted := true }) ∧
      m = { bankRead := .rom, bankWrite := false, bankSel := s.cfg.resetBank, sysBlockAux := false,
            preWriteAddr := none, preWriteCount := 0, readAux := false, writeAux := false, store80 := false,
            page2 := false, hiRes := false, text := false, mixed := false, col80 := false, altChar := false,
            dHiRes := false, iouEnable := false, intCxROM := false, slotC3ROM := false, keyLatch := 0,
            keyStrobe := false, anyKeyDown := false }

/-- 70_reset_and_hazards.md R430, R433: Boot with two images of the right lengths copies them into the ROM segments
(and the boot vector, if one is configured), then resets; with an image that is missing or of another length it
fails and changes nothing. -/
def Obligations.BootLoadsTheRomsAndResets : Prop :=
  ∀ (s : State) (rom slot : Option (List Byte)), s.Wf →
    ((∃ r sl, rom = some r ∧ slot = some sl ∧ r.length = 0x4000 ∧ sl.length = 0x0F00 ∧
      ∃ romMem slotMem,
        (∀ k, k < 0x4000 → romMem.read k = match s.cfg.bootVector with
          | none => r.getD k 0
          | some w => if k = 0x3FFC then BitVec.ofNat 8 (w.toNat % 256)
              else if k = 0x3FFD then BitVec.ofNat 8 (w.toNat / 256) else r.getD k 0) ∧
        (∀ k, k < 0x0F00 → slotMem.read k = sl.getD k 0) ∧
        s.boot rom slot = ({ s with bus := { s.bus with rom := romMem, slotROM := slotMem } } : State).resetMachine ∧
        (s.boot rom slot).1 = .ok ()) ∨
     ((rom = none ∨ slot = none ∨ (∃ r, rom = some r ∧ r.length ≠ 0x4000) ∨
        (∃ sl, slot = some sl ∧ sl.length ≠ 0x0F00)) ∧
      s.boot rom slot = (.error .ioError, s)))

/-- 70_reset_and_hazards.md R434, 51_drive.md R398: Load chooses the image type by the file name's suffix, the text from
the last `.`, in any case; encodes the image into the selected drive and puts its head at the start of track 0 in read
mode. Every error leaves the machine as it was: as a host event, it is followed by the same machine. -/
def Obligations.LoadPopulatesTheSelectedDrive : Prop :=
  (∀ base ext : List Char, '.' ∉ ext →
    (let lower := ext.map Char.toLower
     imageTypeOf (base ++ '.' :: ext) =
      (if lower = ['d', 'o'] ∨ lower = ['d', 's', 'k'] then some .dos
       else if lower = ['p', 'o'] then some .proDOS
       else if lower = ['n', 'i', 'b'] then some .nib
       else none))) ∧
  (∀ name : List Char, '.' ∉ name → imageTypeOf name = none) ∧
  ∀ (s : State) (stream : Option (List Byte)) (name : List Char),
    (imageTypeOf name = none →
      s.load stream name = .error .unknownSuffix ∧ s.event (.load stream name) = .ok s) ∧
    (∀ type, imageTypeOf name = some type →
      (stream = none → s.load stream name = .error .ioError ∧ s.event (.load stream name) = .ok s) ∧
      (∀ img, stream = some img →
        (∀ e, encodeImage type img = .error e →
          s.load stream name = .error .badImageLength ∧ s.event (.load stream name) = .ok s) ∧
        (∀ data, encodeImage type img = .ok data → ∃ t,
          s.load stream name = .ok t ∧ s.event (.load stream name) = .ok t ∧
          t = { s with bus := s.bus.setDrive { s.bus.drive with
            image := some img, imageType := type, data := some data, trackPos := 0, sectorPos := 0, phase := 0,
            latch := 0, mode := .read } })))

/-- 20_memory.md R59, 60_exceptions.md R412, 10_state.md R28: an access steered outside a segment's size faults and
does nothing; a step that meets one leaves the machine Faulted with what the accesses before it did to the bus
(but for the draws of the registers' free values, log 8), and then no step is taken. -/
def Obligations.AccessOutsideASegmentStopsTheMachine : Prop :=
  (∀ (c : Cfg) (b : Bus) (a : Word) (v : Byte) (g : Segment) (off : Nat), c.size g ≤ off →
    (b.readTarget c a = .cell g off → b.read c a = .fault (.segment g) off b) ∧
    (b.writeTarget c a = .cell g off → b.write c a v = .fault (.segment g) off b)) ∧
  (∀ (s : State) (site : FaultSite) (off : Nat) (b : Bus), step s = .fault (.busFault site off b) →
    ∃ t k, s.process = .ok (.error (.busFault site off), t) ∧ t.status = .faulted site off ∧ t.cfg = s.cfg ∧
      t.bus = { b with draws := k } ∧ step t = .fault (.stuck site off) ∧
      t.process = .ok (.error (.stuck site off), t))

/-- 22_soft_switches.md R96: a key the host presses sets the code, the strobe and the any-key flag, and the next
read of the keyboard gives the code with bit 7 set; releasing it clears the any-key flag alone. -/
def Obligations.KeysArriveInTheLatch : Prop :=
  ∀ (s : State) (code : Byte), defaultMap s.cfg →
    (∃ latch : Byte, latch.toNat = code.toNat % 128 ∧
      s.keyDown code = { s with bus := { s.bus with ms := { s.bus.ms with
        keyLatch := latch, keyStrobe := true, anyKeyDown := true } } } ∧
      ∃ w, (s.keyDown code).bus.read s.cfg 0xC000 = .ok w (s.keyDown code).bus ∧ w.toNat = 128 + code.toNat % 128) ∧
    s.keyUp = { s with bus := { s.bus with ms := { s.bus.ms with anyKeyDown := false } } }

/-- 44_stack_flags.md R286, 42_arithmetic.md, 43_logic_shift.md R243, 45_control_flow.md R315, R316, over all
instructions: V is written only by ADC, SBC, BIT, CLV, PLP and RTI; I only by CLI, SEI, BRK, PLP and RTI; D only by CLD,
SED, BRK, PLP and RTI. Whatever its operand, every other instruction leaves the flag as it was. -/
def Obligations.OverflowInterruptDecimalHaveFewWriters : Prop :=
  ∀ (i : Instr) (s t : State), s.Wf → exec i s = .next t →
    (i.mnemonic ∉ ([.adc, .sbc, .bit, .clv, .plp, .rti] : List Mnemonic) → getFlag t.p .v = getFlag s.p .v) ∧
    (i.mnemonic ∉ ([.cli, .sei, .brk, .plp, .rti] : List Mnemonic) → getFlag t.p .i = getFlag s.p .i) ∧
    (i.mnemonic ∉ ([.cld, .sed, .brk, .plp, .rti] : List Mnemonic) → getFlag t.p .d = getFlag s.p .d)
end

