-- ==== Sys2Proof/Laws/Memory.lean ====
section
/-! SUPPORT. The laws of one segment's contents: read after write, and that every operation keeps the
canonical form and the bounds. -/

namespace Sys2Proof.Machine

@[simp] theorem Memory.read_nil (a : Nat) : Memory.read [] a = Memory.blank := rfl

@[simp] theorem Memory.read_cons (k : Nat) (v : Byte) (t : Memory) (a : Nat) :
    Memory.read ((k, v) :: t) a = if k = a then v else Memory.read t a := rfl

@[simp] theorem Memory.wfFrom_nil (low : Nat) : Memory.wfFrom low [] = true := rfl

theorem Memory.wfFrom_cons (low k : Nat) (v : Byte) (t : Memory) :
    Memory.wfFrom low ((k, v) :: t) = true ↔
      low ≤ k ∧ v ≠ Memory.blank ∧ Memory.wfFrom (k + 1) t = true := by
  simp [Memory.wfFrom, and_assoc]

theorem Memory.wfFrom_mono {low high : Nat} (h : low ≤ high) {m : Memory} (hm : Memory.wfFrom high m = true) :
    Memory.wfFrom low m = true := by
  cases m with
  | nil => rfl
  | cons c t =>
    rw [Memory.wfFrom_cons] at hm ⊢
    exact ⟨by omega, hm.2⟩

/-- An offset below every listed one is blank. -/
theorem Memory.read_below {low a : Nat} (h : a < low) {m : Memory} (hm : Memory.wfFrom low m = true) :
    m.read a = Memory.blank := by
  induction m generalizing low with
  | nil => rfl
  | cons c t ih =>
    obtain ⟨k, v⟩ := c
    rw [Memory.wfFrom_cons] at hm
    rw [Memory.read_cons, if_neg (by omega)]
    exact ih (by omega) hm.2.2

theorem Memory.read_write_of_wfFrom {low : Nat} {m : Memory} (hm : Memory.wfFrom low m = true) (a b : Nat)
    (v : Byte) : (m.write a v).read b = if b = a then v else m.read b := by
  induction m generalizing low with
  | nil =>
    by_cases hv : v = Memory.blank <;> by_cases hb : b = a <;> simp [Memory.write, hv, hb, eq_comm]
    intro h; exact absurd h.symm hb
  | cons c t ih =>
    obtain ⟨k, w⟩ := c
    rw [Memory.wfFrom_cons] at hm
    have below : ∀ x, x < k + 1 → Memory.read t x = Memory.blank := fun x hx => Memory.read_below hx hm.2.2
    simp only [Memory.write]
    by_cases h1 : a < k
    · by_cases hv : v = Memory.blank
      · by_cases hb : b = a
        · subst hb; simp [h1, hv, below b (by omega), show k ≠ b by omega]
        · simp [h1, hv, hb]
      · by_cases hb : b = a
        · simp [h1, hv, hb]
        · simp [h1, hv, hb, show a ≠ b from fun h => hb h.symm]
    · by_cases h2 : a = k
      · subst h2
        by_cases hv : v = Memory.blank
        · by_cases hb : b = a
          · subst hb; simp [hv, below b (by omega)]
          · simp [hv, hb, show a ≠ b from fun h => hb h.symm]
        · by_cases hb : b = a
          · simp [hv, hb]
          · simp [hv, hb, show a ≠ b from fun h => hb h.symm]
      · simp only [h1, h2, if_false, Memory.read_cons, ih hm.2.2]
        by_cases hb : b = a
        · subst hb; simp [show k ≠ b from fun h => h2 h.symm]
        · simp [hb]

/-- Reading any offset of a written memory. -/
theorem Memory.read_write {m : Memory} (hm : m.wf = true) (a b : Nat) (v : Byte) :
    (m.write a v).read b = if b = a then v else m.read b :=
  Memory.read_write_of_wfFrom hm a b v

theorem Memory.read_write_same {m : Memory} (hm : m.wf = true) (a : Nat) (v : Byte) :
    (m.write a v).read a = v := by
  rw [Memory.read_write hm, if_pos rfl]

theorem Memory.read_write_other {m : Memory} (hm : m.wf = true) {a b : Nat} (h : b ≠ a) (v : Byte) :
    (m.write a v).read b = m.read b := by
  rw [Memory.read_write hm, if_neg h]

theorem Memory.wfFrom_write {low : Nat} {m : Memory} (hm : Memory.wfFrom low m = true) (a : Nat) (v : Byte)
    (ha : low ≤ a) : Memory.wfFrom low (m.write a v) = true := by
  induction m generalizing low with
  | nil =>
    by_cases hv : v = Memory.blank
    · simp [Memory.write, hv]
    · simp [Memory.write, hv, Memory.wfFrom_cons, ha]
  | cons c t ih =>
    obtain ⟨k, w⟩ := c
    have hm' := hm
    rw [Memory.wfFrom_cons] at hm'
    obtain ⟨h1, h2, h3⟩ := hm'
    simp only [Memory.write]
    split
    · split
      · exact hm
      · rename_i hk hv
        rw [Memory.wfFrom_cons, Memory.wfFrom_cons]
        exact ⟨ha, hv, by omega, h2, h3⟩
    · split
      · split
        · exact Memory.wfFrom_mono (by omega) h3
        · rename_i hk hv
          subst hk
          rw [Memory.wfFrom_cons]
          exact ⟨ha, hv, h3⟩
      · rw [Memory.wfFrom_cons]
        exact ⟨h1, h2, ih h3 (by omega)⟩

/-- A write keeps the canonical form. -/
theorem Memory.wf_write {m : Memory} (hm : m.wf = true) (a : Nat) (v : Byte) : (m.write a v).wf = true :=
  Memory.wfFrom_write hm a v (Nat.zero_le a)

theorem Memory.inside_cons (size k : Nat) (v : Byte) (t : Memory) :
    Memory.inside size ((k, v) :: t) = true ↔ k < size ∧ Memory.inside size t = true := by
  simp [Memory.inside]

/-- A write inside the segment keeps every listed offset inside it. -/
theorem Memory.inside_write {size : Nat} {m : Memory} (hm : m.inside size = true) {a : Nat} (ha : a < size)
    (v : Byte) : (m.write a v).inside size = true := by
  induction m with
  | nil => by_cases hv : v = Memory.blank <;> simp [Memory.write, hv, Memory.inside, ha]
  | cons c t ih =>
    obtain ⟨k, w⟩ := c
    have hm' := (Memory.inside_cons size k w t).1 hm
    simp only [Memory.write]
    split
    · split
      · exact hm
      · exact (Memory.inside_cons ..).2 ⟨ha, hm⟩
    · split
      · split
        · exact hm'.2
        · exact (Memory.inside_cons ..).2 ⟨ha, hm'.2⟩
      · exact (Memory.inside_cons ..).2 ⟨hm'.1, ih hm'.2⟩

/-! ## The block copy -/

theorem Memory.wfFrom_filter {low : Nat} {m : Memory} (hm : Memory.wfFrom low m = true) (p : Host.Cell → Bool) :
    Memory.wfFrom low (m.filter p) = true := by
  induction m generalizing low with
  | nil => rfl
  | cons c t ih =>
    obtain ⟨k, v⟩ := c
    rw [Memory.wfFrom_cons] at hm
    by_cases hp : p (k, v) = true
    · rw [List.filter_cons_of_pos hp, Memory.wfFrom_cons]
      exact ⟨hm.1, hm.2.1, ih hm.2.2⟩
    · rw [List.filter_cons_of_neg hp]
      exact Memory.wfFrom_mono (by omega) (ih hm.2.2)

theorem Memory.read_filter {low : Nat} {m : Memory} (hm : Memory.wfFrom low m = true) (q : Nat → Bool) (a : Nat) :
    Memory.read (m.filter fun cell => q cell.1) a = if q a then m.read a else Memory.blank := by
  induction m generalizing low with
  | nil => simp
  | cons c t ih =>
    obtain ⟨k, v⟩ := c
    rw [Memory.wfFrom_cons] at hm
    by_cases hq : q k = true
    · rw [List.filter_cons_of_pos (by simpa using hq), Memory.read_cons, Memory.read_cons, ih hm.2.2]
      by_cases hk : k = a
      · subst hk; simp [hq]
      · simp [hk]
    · rw [List.filter_cons_of_neg (by simpa using hq), ih hm.2.2, Memory.read_cons]
      by_cases hk : k = a
      · subst hk; simp [hq]
      · simp [hk]

theorem Memory.wfFrom_append {low mid : Nat} {m n : Memory} (hm : Memory.wfFrom low m = true)
    (hb : ∀ c ∈ m, c.1 < mid) (hn : Memory.wfFrom mid n = true) (h : low ≤ mid) :
    Memory.wfFrom low (m ++ n) = true := by
  induction m generalizing low with
  | nil => exact Memory.wfFrom_mono h hn
  | cons c t ih =>
    obtain ⟨k, v⟩ := c
    rw [Memory.wfFrom_cons] at hm
    rw [List.cons_append, Memory.wfFrom_cons]
    have hk : k < mid := hb (k, v) (by simp)
    exact ⟨hm.1, hm.2.1, ih hm.2.2 (fun c hc => hb c (by simp [hc])) (by omega)⟩

theorem Memory.wfFrom_filter_ge {low n : Nat} {m : Memory} (hm : Memory.wfFrom low m = true) :
    Memory.wfFrom n (m.filter fun cell => n ≤ cell.1) = true := by
  induction m generalizing low with
  | nil => rfl
  | cons c t ih =>
    obtain ⟨k, v⟩ := c
    rw [Memory.wfFrom_cons] at hm
    by_cases hp : n ≤ k
    · rw [List.filter_cons_of_pos (by simpa using hp), Memory.wfFrom_cons]
      exact ⟨hp, hm.2.1, Memory.wfFrom_filter hm.2.2 _⟩
    · rw [List.filter_cons_of_neg (by simpa using hp)]
      exact ih hm.2.2

/-- The block copy keeps the canonical form. -/
theorem Memory.wf_copyPrefix {src dst : Memory} (hs : src.wf = true) (hd : dst.wf = true) (n : Nat) :
    (src.copyPrefix dst n).wf = true := by
  refine Memory.wfFrom_append (mid := n) (Memory.wfFrom_filter hs _) ?_ (Memory.wfFrom_filter_ge hd) (Nat.zero_le n)
  intro c hc
  simpa using (List.mem_filter.1 hc).2

theorem Memory.read_append_left {m n : Memory} {mid a : Nat} (hm : ∀ c ∈ m, c.1 < mid) (ha : mid ≤ a) :
    Memory.read (m ++ n) a = Memory.read n a := by
  induction m with
  | nil => rfl
  | cons c t ih =>
    obtain ⟨k, v⟩ := c
    have hk : k < mid := hm (k, v) (by simp)
    rw [List.cons_append, Memory.read_cons, if_neg (by omega)]
    exact ih fun c hc => hm c (by simp [hc])

theorem Memory.read_append_right {m n : Memory} {a : Nat} (hn : Memory.read n a = Memory.blank) :
    Memory.read (m ++ n) a = Memory.read m a := by
  induction m with
  | nil => simpa using hn
  | cons c t ih =>
    obtain ⟨k, v⟩ := c
    rw [List.cons_append, Memory.read_cons, Memory.read_cons, ih]

/-- The block copy takes the first `n` bytes from the source and keeps the others. -/
theorem Memory.read_copyPrefix {src dst : Memory} (hs : src.wf = true) (hd : dst.wf = true) (n a : Nat) :
    (src.copyPrefix dst n).read a = if a < n then src.read a else dst.read a := by
  unfold Memory.copyPrefix
  by_cases h : a < n
  · rw [Memory.read_append_right (by
        rw [Memory.read_filter hd (fun k => decide (n ≤ k))]; simp [show ¬ n ≤ a by omega]),
      Memory.read_filter hs (fun k => decide (k < n))]
    simp [h]
  · rw [Memory.read_append_left (mid := n) (fun c hc => by simpa using (List.mem_filter.1 hc).2) (by omega),
      Memory.read_filter hd (fun k => decide (n ≤ k))]
    simp [h, show n ≤ a by omega]

/-- The block copy stays inside the destination. -/
theorem Memory.inside_copyPrefix {size n : Nat} {src dst : Memory} (hn : n ≤ size) (hd : dst.inside size = true) :
    (src.copyPrefix dst n).inside size = true := by
  simp only [Memory.inside, Memory.copyPrefix, List.all_append, Bool.and_eq_true, List.all_eq_true,
    List.mem_filter, decide_eq_true_eq] at hd ⊢
  exact ⟨fun c hc => by omega, fun c hc => hd c hc.1⟩

/-! ## Bulk copies -/

/-- Writing a list of bytes keeps the canonical form. -/
theorem Memory.wf_writeList {m : Memory} (hm : m.wf = true) (bytes : List Byte) (off : Nat) :
    (m.writeList off bytes).wf = true := by
  induction bytes generalizing m off with
  | nil => exact hm
  | cons b bs ih => exact ih (Memory.wf_write hm off b) (off + 1)

/-- Reading after a list of bytes was written. -/
theorem Memory.read_writeList {m : Memory} (hm : m.wf = true) (bytes : List Byte) (off a : Nat) :
    (m.writeList off bytes).read a =
      if off ≤ a ∧ a < off + bytes.length then bytes.getD (a - off) 0 else m.read a := by
  induction bytes generalizing m off with
  | nil => simp [Memory.writeList]
  | cons b bs ih =>
    rw [Memory.writeList, ih (Memory.wf_write hm off b), Memory.read_write hm]
    by_cases h : a = off
    · subst h; simp
    · by_cases h2 : off + 1 ≤ a ∧ a < off + 1 + bs.length
      · rw [if_pos h2, if_pos (by simp; omega), show a - off = (a - (off + 1)) + 1 by omega]
        simp
      · rw [if_neg h2, if_neg h, if_neg (by simp; omega)]

/-- Writing a list of bytes inside the segment stays inside it. -/
theorem Memory.inside_writeList {size : Nat} {m : Memory} (hm : m.inside size = true) (bytes : List Byte) (off : Nat)
    (h : off + bytes.length ≤ size) : (m.writeList off bytes).inside size = true := by
  induction bytes generalizing m off with
  | nil => exact hm
  | cons b bs ih =>
    simp only [List.length_cons] at h
    exact ih (Memory.inside_write hm (by omega) b) (off + 1) (by omega)

end Sys2Proof.Machine
end

