-- ==== Sys2Proof/Laws/State.lean ====
section
/-! SUPPORT. One lemma for each field of each named update of the state and of the bus, so that no later
proof unfolds a record update. -/

namespace Sys2Proof.Machine

/-! ## Segments and drives of the bus -/

theorem Bus.mem_setMem (b : Bus) (m : Memory) (g h : Segment) :
    (b.setMem m g).mem h = if h = g then m else b.mem h := by
  cases g <;> cases h <;> rfl

@[simp] theorem Bus.mem_setMem_same (b : Bus) (m : Memory) (g : Segment) : (b.setMem m g).mem g = m := by
  cases g <;> rfl

theorem Bus.mem_setMem_other (b : Bus) (m : Memory) {g h : Segment} (hne : h ≠ g) :
    (b.setMem m g).mem h = b.mem h := by
  rw [Bus.mem_setMem, if_neg hne]

@[simp] theorem Bus.setMem_ms (b : Bus) (m : Memory) (g : Segment) : (b.setMem m g).ms = b.ms := by
  cases g <;> rfl

@[simp] theorem Bus.setMem_drive1 (b : Bus) (m : Memory) (g : Segment) : (b.setMem m g).drive1 = b.drive1 := by
  cases g <;> rfl

@[simp] theorem Bus.setMem_drive2 (b : Bus) (m : Memory) (g : Segment) : (b.setMem m g).drive2 = b.drive2 := by
  cases g <;> rfl

@[simp] theorem Bus.setMem_selected (b : Bus) (m : Memory) (g : Segment) : (b.setMem m g).selected = b.selected := by
  cases g <;> rfl

@[simp] theorem Bus.setMem_draws (b : Bus) (m : Memory) (g : Segment) : (b.setMem m g).draws = b.draws := by
  cases g <;> rfl

@[simp] theorem Bus.setMem_drive (b : Bus) (m : Memory) (g : Segment) : (b.setMem m g).drive = b.drive := by
  cases g <;> rfl

@[simp] theorem Bus.setMem_setMem (b : Bus) (m n : Memory) (g : Segment) : (b.setMem m g).setMem n g = b.setMem n g := by
  cases g <;> rfl

@[simp] theorem Bus.setMem_mem (b : Bus) (g : Segment) : b.setMem (b.mem g) g = b := by
  cases g <;> rfl

@[simp] theorem Bus.setDrive_ms (b : Bus) (d : Drive) : (b.setDrive d).ms = b.ms := by
  unfold Bus.setDrive; split <;> rfl

@[simp] theorem Bus.setDrive_selected (b : Bus) (d : Drive) : (b.setDrive d).selected = b.selected := by
  unfold Bus.setDrive; split <;> rfl

@[simp] theorem Bus.setDrive_main (b : Bus) (d : Drive) : (b.setDrive d).main = b.main := by
  unfold Bus.setDrive; split <;> rfl

@[simp] theorem Bus.setDrive_mainBank2 (b : Bus) (d : Drive) : (b.setDrive d).mainBank2 = b.mainBank2 := by
  unfold Bus.setDrive; split <;> rfl

@[simp] theorem Bus.setDrive_aux (b : Bus) (d : Drive) : (b.setDrive d).aux = b.aux := by
  unfold Bus.setDrive; split <;> rfl

@[simp] theorem Bus.setDrive_auxBank2 (b : Bus) (d : Drive) : (b.setDrive d).auxBank2 = b.auxBank2 := by
  unfold Bus.setDrive; split <;> rfl

@[simp] theorem Bus.setDrive_rom (b : Bus) (d : Drive) : (b.setDrive d).rom = b.rom := by
  unfold Bus.setDrive; split <;> rfl

@[simp] theorem Bus.setDrive_slotROM (b : Bus) (d : Drive) : (b.setDrive d).slotROM = b.slotROM := by
  unfold Bus.setDrive; split <;> rfl

@[simp] theorem Bus.setDrive_draws (b : Bus) (d : Drive) : (b.setDrive d).draws = b.draws := by
  unfold Bus.setDrive; split <;> rfl

@[simp] theorem Bus.mem_setDrive (b : Bus) (d : Drive) (g : Segment) : (b.setDrive d).mem g = b.mem g := by
  cases g <;> simp [Bus.mem]

@[simp] theorem Bus.drive_setDrive (b : Bus) (d : Drive) : (b.setDrive d).drive = d := by
  unfold Bus.setDrive Bus.drive; cases h : b.selected <;> simp

@[simp] theorem Bus.mem_withMs (b : Bus) (m : MachineState) (g : Segment) : { b with ms := m }.mem g = b.mem g := by
  cases g <;> rfl

@[simp] theorem Bus.mem_withDraws (b : Bus) (n : Nat) (g : Segment) : { b with draws := n }.mem g = b.mem g := by
  cases g <;> rfl

@[simp] theorem Bus.mem_withSelected (b : Bus) (d : DriveId) (g : Segment) :
    { b with selected := d }.mem g = b.mem g := by
  cases g <;> rfl

@[simp] theorem Bus.drive_withMs (b : Bus) (m : MachineState) : { b with ms := m }.drive = b.drive := rfl

@[simp] theorem Bus.drive_withDraws (b : Bus) (n : Nat) : { b with draws := n }.drive = b.drive := rfl

/-- The drive that is not selected keeps all its fields when the selected one is replaced. -/
theorem Bus.driveAt_setDrive_other (b : Bus) (d : Drive) {i : DriveId} (h : i ≠ b.selected) :
    (b.setDrive d).driveAt i = b.driveAt i := by
  unfold Bus.setDrive
  cases hs : b.selected <;> cases i <;> simp_all [Bus.driveAt]

theorem Bus.driveAt_setDrive_selected (b : Bus) (d : Drive) : (b.setDrive d).driveAt b.selected = d := by
  unfold Bus.setDrive; cases hs : b.selected <;> simp [Bus.driveAt]

theorem Bus.driveAt_selected (b : Bus) : b.driveAt b.selected = b.drive := by
  unfold Bus.drive; cases hs : b.selected <;> simp [Bus.driveAt]

@[simp] theorem Bus.driveAt_setMem (b : Bus) (m : Memory) (g : Segment) (i : DriveId) :
    (b.setMem m g).driveAt i = b.driveAt i := by
  cases g <;> cases i <;> rfl

/-! ## Named updates of the machine -/

@[simp] theorem State.loadA_cfg (s : State) (v : Byte) : (s.loadA v).cfg = s.cfg := rfl
@[simp] theorem State.loadA_a (s : State) (v : Byte) : (s.loadA v).a = v := rfl
@[simp] theorem State.loadA_x (s : State) (v : Byte) : (s.loadA v).x = s.x := rfl
@[simp] theorem State.loadA_y (s : State) (v : Byte) : (s.loadA v).y = s.y := rfl
@[simp] theorem State.loadA_sp (s : State) (v : Byte) : (s.loadA v).sp = s.sp := rfl
@[simp] theorem State.loadA_p (s : State) (v : Byte) : (s.loadA v).p = setNZ s.p v := rfl
@[simp] theorem State.loadA_pc (s : State) (v : Byte) : (s.loadA v).pc = s.pc := rfl
@[simp] theorem State.loadA_bus (s : State) (v : Byte) : (s.loadA v).bus = s.bus := rfl
@[simp] theorem State.loadA_status (s : State) (v : Byte) : (s.loadA v).status = s.status := rfl
@[simp] theorem State.loadA_booted (s : State) (v : Byte) : (s.loadA v).booted = s.booted := rfl

@[simp] theorem State.loadX_cfg (s : State) (v : Byte) : (s.loadX v).cfg = s.cfg := rfl
@[simp] theorem State.loadX_a (s : State) (v : Byte) : (s.loadX v).a = s.a := rfl
@[simp] theorem State.loadX_x (s : State) (v : Byte) : (s.loadX v).x = v := rfl
@[simp] theorem State.loadX_y (s : State) (v : Byte) : (s.loadX v).y = s.y := rfl
@[simp] theorem State.loadX_sp (s : State) (v : Byte) : (s.loadX v).sp = s.sp := rfl
@[simp] theorem State.loadX_p (s : State) (v : Byte) : (s.loadX v).p = setNZ s.p v := rfl
@[simp] theorem State.loadX_pc (s : State) (v : Byte) : (s.loadX v).pc = s.pc := rfl
@[simp] theorem State.loadX_bus (s : State) (v : Byte) : (s.loadX v).bus = s.bus := rfl
@[simp] theorem State.loadX_status (s : State) (v : Byte) : (s.loadX v).status = s.status := rfl
@[simp] theorem State.loadX_booted (s : State) (v : Byte) : (s.loadX v).booted = s.booted := rfl

@[simp] theorem State.loadY_cfg (s : State) (v : Byte) : (s.loadY v).cfg = s.cfg := rfl
@[simp] theorem State.loadY_a (s : State) (v : Byte) : (s.loadY v).a = s.a := rfl
@[simp] theorem State.loadY_x (s : State) (v : Byte) : (s.loadY v).x = s.x := rfl
@[simp] theorem State.loadY_y (s : State) (v : Byte) : (s.loadY v).y = v := rfl
@[simp] theorem State.loadY_sp (s : State) (v : Byte) : (s.loadY v).sp = s.sp := rfl
@[simp] theorem State.loadY_p (s : State) (v : Byte) : (s.loadY v).p = setNZ s.p v := rfl
@[simp] theorem State.loadY_pc (s : State) (v : Byte) : (s.loadY v).pc = s.pc := rfl
@[simp] theorem State.loadY_bus (s : State) (v : Byte) : (s.loadY v).bus = s.bus := rfl
@[simp] theorem State.loadY_status (s : State) (v : Byte) : (s.loadY v).status = s.status := rfl
@[simp] theorem State.loadY_booted (s : State) (v : Byte) : (s.loadY v).booted = s.booted := rfl

@[simp] theorem State.withFlag_cfg (s : State) (f : Flag) (on : Bool) : (s.withFlag f on).cfg = s.cfg := rfl
@[simp] theorem State.withFlag_a (s : State) (f : Flag) (on : Bool) : (s.withFlag f on).a = s.a := rfl
@[simp] theorem State.withFlag_x (s : State) (f : Flag) (on : Bool) : (s.withFlag f on).x = s.x := rfl
@[simp] theorem State.withFlag_y (s : State) (f : Flag) (on : Bool) : (s.withFlag f on).y = s.y := rfl
@[simp] theorem State.withFlag_sp (s : State) (f : Flag) (on : Bool) : (s.withFlag f on).sp = s.sp := rfl
@[simp] theorem State.withFlag_p (s : State) (f : Flag) (on : Bool) : (s.withFlag f on).p = setFlag s.p f on := rfl
@[simp] theorem State.withFlag_pc (s : State) (f : Flag) (on : Bool) : (s.withFlag f on).pc = s.pc := rfl
@[simp] theorem State.withFlag_bus (s : State) (f : Flag) (on : Bool) : (s.withFlag f on).bus = s.bus := rfl
@[simp] theorem State.withFlag_status (s : State) (f : Flag) (on : Bool) : (s.withFlag f on).status = s.status := rfl
@[simp] theorem State.withFlag_booted (s : State) (f : Flag) (on : Bool) : (s.withFlag f on).booted = s.booted := rfl

@[simp] theorem State.compare_cfg (s : State) (r m : Byte) : (s.compare r m).cfg = s.cfg := rfl
@[simp] theorem State.compare_a (s : State) (r m : Byte) : (s.compare r m).a = s.a := rfl
@[simp] theorem State.compare_x (s : State) (r m : Byte) : (s.compare r m).x = s.x := rfl
@[simp] theorem State.compare_y (s : State) (r m : Byte) : (s.compare r m).y = s.y := rfl
@[simp] theorem State.compare_sp (s : State) (r m : Byte) : (s.compare r m).sp = s.sp := rfl
@[simp] theorem State.compare_p (s : State) (r m : Byte) : (s.compare r m).p = compareFlags s.p r m := rfl
@[simp] theorem State.compare_pc (s : State) (r m : Byte) : (s.compare r m).pc = s.pc := rfl
@[simp] theorem State.compare_bus (s : State) (r m : Byte) : (s.compare r m).bus = s.bus := rfl
@[simp] theorem State.compare_status (s : State) (r m : Byte) : (s.compare r m).status = s.status := rfl
@[simp] theorem State.compare_booted (s : State) (r m : Byte) : (s.compare r m).booted = s.booted := rfl

@[simp] theorem State.addToA_cfg (s : State) (m : Byte) : (s.addToA m).cfg = s.cfg := rfl
@[simp] theorem State.addToA_a (s : State) (m : Byte) : (s.addToA m).a = (addCore s.a m (s.flag .c)).value := rfl
@[simp] theorem State.addToA_x (s : State) (m : Byte) : (s.addToA m).x = s.x := rfl
@[simp] theorem State.addToA_y (s : State) (m : Byte) : (s.addToA m).y = s.y := rfl
@[simp] theorem State.addToA_sp (s : State) (m : Byte) : (s.addToA m).sp = s.sp := rfl
@[simp] theorem State.addToA_p (s : State) (m : Byte) : (s.addToA m).p = sumFlags s.p (addCore s.a m (s.flag .c)) := rfl
@[simp] theorem State.addToA_pc (s : State) (m : Byte) : (s.addToA m).pc = s.pc := rfl
@[simp] theorem State.addToA_bus (s : State) (m : Byte) : (s.addToA m).bus = s.bus := rfl
@[simp] theorem State.addToA_status (s : State) (m : Byte) : (s.addToA m).status = s.status := rfl
@[simp] theorem State.addToA_booted (s : State) (m : Byte) : (s.addToA m).booted = s.booted := rfl

end Sys2Proof.Machine
end

