-- ==== Sys2Proof/Laws/Bus.lean ====
section
/-! SUPPORT. What a bus access can do: it completes when the segments have their full size and the bus is well
formed, it keeps the bus well formed, a read changes no segment, a write changes what it touches, and neither
changes a ROM or what only the host sets. -/

namespace Sys2Proof.Machine

/-! ## Drives -/

theorem Drive.pos_lt {d : Drive} (h : d.Wf) : d.pos < physImageLen := by
  have h1 := h.track
  have h2 := h.sector
  simp only [Drive.pos, maxSteps, physTrackLen, physImageLen, trackCount] at *
  omega

@[simp] theorem Drive.shift_data (d : Drive) (k : Int) : (d.shift k).data = d.data := by
  unfold Drive.shift; split <;> rfl

@[simp] theorem Drive.shift_trackPos (d : Drive) (k : Int) : (d.shift k).trackPos = d.trackPos := by
  unfold Drive.shift; split <;> rfl

@[simp] theorem Drive.shift_latch (d : Drive) (k : Int) : (d.shift k).latch = d.latch := by
  unfold Drive.shift; split <;> rfl

/-- Replacing the latch, the mode, the motor, or the data by data of the same length keeps a drive well formed. -/
theorem Drive.Wf.congr {d e : Drive} (h : d.Wf) (ht : e.trackPos = d.trackPos) (hs : e.sectorPos = d.sectorPos)
    (hd : ∀ bytes, e.data = some bytes → bytes.length = physImageLen) : e.Wf :=
  ⟨ht ▸ h.track, hs ▸ h.sector, hd⟩

/-- `Shift` keeps the head on the track. -/
theorem Drive.Wf.shift {d : Drive} (h : d.Wf) (k : Int) : (d.shift k).Wf := by
  refine ⟨by simpa using h.track, ?_, by simpa using h.data⟩
  unfold Drive.shift
  split
  · exact h.sector
  · show (if _ then _ else _) < _
    split
    · decide
    · have := h.sector
      rename_i hp
      simp only [not_or, not_lt, not_le] at hp
      exact (Int.toNat_lt hp.1).2 hp.2

/-- `StepPhase` keeps the head on the disk, whatever the table. -/
theorem Drive.Wf.stepPhase {d : Drive} (h : d.Wf) (c : Cfg) (n : Nat) : (d.stepPhase c n).Wf := by
  unfold Drive.stepPhase
  split
  · exact h
  · split
    · exact ⟨h.track, h.sector, h.data⟩
    · refine ⟨?_, by show 0 < physTrackLen; decide, h.data⟩
      show (min _ _ : Int).toNat ≤ maxSteps
      omega

/-! ## What only the host sets -/

/-- What no bus access changes: the two ROMs, the key code and whether a key is down, and of each drive the flags
and the image the host sets. -/
structure Bus.Keeps (b b' : Bus) : Prop where
  rom : b'.rom = b.rom
  slotROM : b'.slotROM = b.slotROM
  keys : b'.ms.keyLatch = b.ms.keyLatch ∧ b'.ms.anyKeyDown = b.ms.anyKeyDown
  locked : ∀ i, (b'.driveAt i).locked = (b.driveAt i).locked
  writeProtect : ∀ i, (b'.driveAt i).writeProtect = (b.driveAt i).writeProtect
  image : ∀ i, (b'.driveAt i).image = (b.driveAt i).image
  imageType : ∀ i, (b'.driveAt i).imageType = (b.driveAt i).imageType

theorem Bus.Keeps.refl (b : Bus) : b.Keeps b :=
  ⟨rfl, rfl, ⟨rfl, rfl⟩, fun _ => rfl, fun _ => rfl, fun _ => rfl, fun _ => rfl⟩

theorem Bus.Keeps.trans {a b c : Bus} (h : a.Keeps b) (k : b.Keeps c) : a.Keeps c :=
  ⟨k.rom.trans h.rom, k.slotROM.trans h.slotROM, ⟨k.keys.1.trans h.keys.1, k.keys.2.trans h.keys.2⟩, fun i => (k.locked i).trans (h.locked i),
    fun i => (k.writeProtect i).trans (h.writeProtect i), fun i => (k.image i).trans (h.image i),
    fun i => (k.imageType i).trans (h.imageType i)⟩

/-- What an access may do to a drive: everything but what only the host sets. -/
structure Drive.Keeps (d e : Drive) : Prop where
  locked : e.locked = d.locked
  writeProtect : e.writeProtect = d.writeProtect
  image : e.image = d.image
  imageType : e.imageType = d.imageType

theorem Drive.Keeps.shift {d e : Drive} (h : d.Keeps e) (k : Int) : d.Keeps (e.shift k) := by
  unfold Drive.shift; split <;> exact ⟨h.locked, h.writeProtect, h.image, h.imageType⟩

theorem Drive.Keeps.stepPhase (c : Cfg) (d : Drive) (n : Nat) : d.Keeps (d.stepPhase c n) := by
  unfold Drive.stepPhase; split
  · exact ⟨rfl, rfl, rfl, rfl⟩
  · split <;> exact ⟨rfl, rfl, rfl, rfl⟩

theorem Bus.Keeps.setDrive (b : Bus) {d : Drive} (h : b.drive.Keeps d) : b.Keeps (b.setDrive d) := by
  have key : ∀ i, (b.driveAt i).Keeps ((b.setDrive d).driveAt i) := by
    intro i
    by_cases hi : i = b.selected
    · subst hi; rw [Bus.driveAt_setDrive_selected, Bus.driveAt_selected]; exact h
    · rw [Bus.driveAt_setDrive_other b d hi]; exact ⟨rfl, rfl, rfl, rfl⟩
  exact ⟨by simp, by simp, by simp, fun i => (key i).locked, fun i => (key i).writeProtect, fun i => (key i).image,
    fun i => (key i).imageType⟩

/-- The drive that is not selected before the access is not changed by it (51_drive.md R380). -/
def Bus.OtherDriveKept (b b' : Bus) : Prop := ∀ i, i ≠ b.selected → b'.driveAt i = b.driveAt i

/-! ## Well-formed buses -/

theorem Bus.Wf.drive {c : Cfg} {b : Bus} (h : b.Wf c) : b.drive.Wf := by
  unfold Bus.drive; split
  · exact h.drive1
  · exact h.drive2

theorem Bus.Wf.setDrive {c : Cfg} {b : Bus} (h : b.Wf c) {d : Drive} (hd : d.Wf) : (b.setDrive d).Wf c := by
  refine ⟨by simpa using h.ms, ?_, ?_, by simpa using h.canonical, by simpa using h.inside⟩
  · unfold Bus.setDrive; split
    · exact hd
    · exact h.drive1
  · unfold Bus.setDrive; split
    · exact h.drive2
    · exact hd

theorem Bus.Wf.withMs {c : Cfg} {b : Bus} (h : b.Wf c) {m : MachineState} (hm : m.Wf) :
    ({ b with ms := m } : Bus).Wf c :=
  ⟨hm, h.drive1, h.drive2, by simpa using h.canonical, by simpa using h.inside⟩

theorem Bus.Wf.withDraws {c : Cfg} {b : Bus} (h : b.Wf c) (n : Nat) : ({ b with draws := n } : Bus).Wf c :=
  ⟨h.ms, h.drive1, h.drive2, by simpa using h.canonical, by simpa using h.inside⟩

theorem Bus.Wf.withSelected {c : Cfg} {b : Bus} (h : b.Wf c) (d : DriveId) :
    ({ b with selected := d } : Bus).Wf c :=
  ⟨h.ms, h.drive1, h.drive2, by simpa using h.canonical, by simpa using h.inside⟩

theorem Bus.Wf.setMem {c : Cfg} {b : Bus} (h : b.Wf c) {m : Memory} {g : Segment} (hm : m.wf = true)
    (hi : m.inside (c.size g) = true) : (b.setMem m g).Wf c := by
  refine ⟨by simpa using h.ms, by simpa using h.drive1, by simpa using h.drive2, ?_, ?_⟩ <;> intro k <;>
    rw [Bus.mem_setMem] <;> split
  · exact hm
  · exact h.canonical k
  · subst k; exact hi
  · exact h.inside k

theorem Bus.Keeps.withMs (b : Bus) {m : MachineState}
    (h : m.keyLatch = b.ms.keyLatch ∧ m.anyKeyDown = b.ms.anyKeyDown) : b.Keeps { b with ms := m } :=
  ⟨rfl, rfl, h, fun i => by cases i <;> rfl, fun i => by cases i <;> rfl, fun i => by cases i <;> rfl,
    fun i => by cases i <;> rfl⟩

theorem Bus.Keeps.withDraws (b : Bus) (n : Nat) : b.Keeps { b with draws := n } :=
  ⟨rfl, rfl, ⟨rfl, rfl⟩, fun i => by cases i <;> rfl, fun i => by cases i <;> rfl, fun i => by cases i <;> rfl,
    fun i => by cases i <;> rfl⟩

theorem Bus.Keeps.withSelected (b : Bus) (d : DriveId) : b.Keeps { b with selected := d } :=
  ⟨rfl, rfl, ⟨rfl, rfl⟩, fun i => by cases i <;> rfl, fun i => by cases i <;> rfl, fun i => by cases i <;> rfl,
    fun i => by cases i <;> rfl⟩

/-- Storing to a RAM segment keeps both ROMs and the drives. -/
theorem Bus.Keeps.setMem (b : Bus) (m : Memory) {g : Segment} (h1 : g ≠ .rom) (h2 : g ≠ .slotROM) :
    b.Keeps (b.setMem m g) := by
  refine ⟨?_, ?_, by simp, fun i => by simp, fun i => by simp, fun i => by simp, fun i => by simp⟩ <;>
    cases g <;> first | rfl | exact absurd rfl ‹_›

/-! ## The soft-switch registers -/

/-- What an access can do to the soft-switch registers: keep them well formed, and the keys as they are. -/
structure MachineState.Step (m n : MachineState) : Prop where
  wf : m.Wf → n.Wf
  keys : n.keyLatch = m.keyLatch ∧ n.anyKeyDown = m.anyKeyDown

theorem MachineState.Step.command (m : MachineState) (e : SwitchEffect) : m.Step (m.command e) := by
  cases e <;> exact ⟨fun h => ⟨h.count, h.addr, h.key⟩, rfl, rfl⟩

theorem MachineState.Wf.bankAccess {m : MachineState} (h : m.Wf) (a : Word) : (bankAccess m a).Wf := by
  have hc := h.count
  unfold Machine.bankAccess
  simp only []
  split
  · exact ⟨by simp, by simp, h.key⟩
  · split <;> split
    · exact ⟨by simp, by simp, h.key⟩
    · rename_i he hn
      have hz : m.preWriteCount ≠ 0 := fun h0 => by
        have := h.addr.2 h0
        rw [he] at this
        cases this
      omega
    · exact ⟨by simp, by simp, h.key⟩
    · exact ⟨by simp, by simp, h.key⟩

theorem MachineState.Step.bankAccess (m : MachineState) (a : Word) : m.Step (bankAccess m a) := by
  refine ⟨fun h => h.bankAccess a, ?_⟩
  unfold Machine.bankAccess
  simp only []
  split
  · exact ⟨rfl, rfl⟩
  · split <;> split <;> exact ⟨rfl, rfl⟩

theorem MachineState.Step.withStrobe (m : MachineState) (on : Bool) :
    m.Step { m with keyStrobe := on } :=
  ⟨fun h => ⟨h.count, h.addr, h.key⟩, rfl, rfl⟩

theorem MachineState.Step.withSysBlock (m : MachineState) (on : Bool) :
    m.Step { m with sysBlockAux := on } :=
  ⟨fun h => ⟨h.count, h.addr, h.key⟩, rfl, rfl⟩

/-! ## The drive dispatch -/

/-- Everything an access of a drive switch can do: it completes, keeps the bus well formed, changes no segment
and no switch, nothing of the other drive, and nothing of the selected one that only the host sets. -/
structure Bus.DriveStep (c : Cfg) (b b' : Bus) : Prop where
  wf : b.Wf c → b'.Wf c
  keeps : b.Keeps b'
  ms : b'.ms = b.ms
  mem : ∀ g, b'.mem g = b.mem g
  other : b.OtherDriveKept b'

theorem Bus.DriveStep.setDrive {c : Cfg} {b : Bus} {d : Drive} (hw : b.Wf c → d.Wf) (hk : b.drive.Keeps d) :
    b.DriveStep c (b.setDrive d) :=
  ⟨fun h => h.setDrive (hw h), Bus.Keeps.setDrive b hk, by simp, by simp,
    fun _ hi => Bus.driveAt_setDrive_other b d hi⟩

theorem Bus.DriveStep.shifted {c : Cfg} {b : Bus} {d : Drive} (hw : b.Wf c → d.Wf) (hk : b.drive.Keeps d) :
    b.DriveStep c (b.setDrive (d.shift 1)) :=
  Bus.DriveStep.setDrive (fun h => (hw h).shift 1) (hk.shift 1)

theorem Bus.driveRead_ok {c : Cfg} {b : Bus} (h : b.Wf c) : ∃ b', b.driveRead = .ok () b' := by
  unfold Bus.driveRead
  split
  · exact ⟨_, rfl⟩
  · rename_i bytes hb
    have : b.drive.pos < bytes.length := (h.drive.data bytes hb) ▸ Drive.pos_lt h.drive
    rw [List.getElem?_eq_getElem this]
    exact ⟨_, rfl⟩

theorem Bus.driveRead_step {c : Cfg} {b b' : Bus} (hr : b.driveRead = .ok () b') : b.DriveStep c b' := by
  unfold Bus.driveRead at hr
  split at hr
  · rename_i hd
    simp only [Bus.draw, BusRes.bind, BusRes.ok.injEq, true_and] at hr
    subst hr
    have s := Bus.DriveStep.shifted (c := c) (b := { b with draws := b.draws + 1 })
      (d := { b.drive with latch := Config.freeByte b.draws })
      (fun h => ⟨h.drive.track, h.drive.sector, h.drive.data⟩) ⟨rfl, rfl, rfl, rfl⟩
    refine ⟨fun h => s.wf (h.withDraws _), (Bus.Keeps.withDraws b _).trans s.keeps, s.ms,
      fun g => (s.mem g).trans (by simp), fun i hi => (s.other i hi).trans (by cases i <;> rfl)⟩
  · split at hr
    · simp only [BusRes.ok.injEq, true_and] at hr
      subst hr
      exact Bus.DriveStep.shifted (fun h => ⟨h.drive.track, h.drive.sector, h.drive.data⟩) ⟨rfl, rfl, rfl, rfl⟩
    · cases hr

theorem Bus.driveWrite_ok {c : Cfg} {b : Bus} (h : b.Wf c) : ∃ b', b.driveWrite = .ok () b' := by
  unfold Bus.driveWrite
  split
  · exact ⟨_, rfl⟩
  · rename_i bytes hb
    have : b.drive.pos < bytes.length := (h.drive.data bytes hb) ▸ Drive.pos_lt h.drive
    split
    · exact ⟨_, rfl⟩
    · exact ⟨_, rfl⟩

theorem Bus.driveWrite_step {c : Cfg} {b b' : Bus} (hr : b.driveWrite = .ok () b') : b.DriveStep c b' := by
  have plain : b.DriveStep c (b.setDrive (b.drive.shift 1)) :=
    Bus.DriveStep.setDrive (fun h => h.drive.shift 1) (Drive.Keeps.shift ⟨rfl, rfl, rfl, rfl⟩ 1)
  unfold Bus.driveWrite at hr
  split at hr
  · cases hr; exact plain
  · rename_i bytes hb
    split at hr
    · split at hr
      · cases hr
        refine Bus.DriveStep.shifted (fun h => ⟨h.drive.track, h.drive.sector, fun bs hbs => ?_⟩)
          ⟨rfl, rfl, rfl, rfl⟩
        cases hbs
        simpa using h.drive.data bytes hb
      · cases hr
    · cases hr; exact plain

theorem Drive.loadLatch_wf {d : Drive} (h : d.Wf) (v : Option Byte) : (d.loadLatch v).Wf := by
  cases v
  · exact h
  · exact ⟨h.track, h.sector, h.data⟩

theorem Drive.loadLatch_keeps (d : Drive) (v : Option Byte) : d.Keeps (d.loadLatch v) := by
  cases v <;> exact ⟨rfl, rfl, rfl, rfl⟩

theorem Bus.driveEffect_ok {c : Cfg} {b : Bus} (h : b.Wf c) (n : Nat) (v : Option Byte) :
    ∃ b', b.driveEffect c n v = .ok () b' := by
  unfold Bus.driveEffect
  split
  case h_5 => split; exacts [Bus.driveRead_ok h, Bus.driveWrite_ok h]
  all_goals exact ⟨_, rfl⟩

theorem Bus.driveEffect_step {c : Cfg} {b b' : Bus} {n : Nat} {v : Option Byte}
    (hr : b.driveEffect c n v = .ok () b') : b.DriveStep c b' := by
  have flag : ∀ d : Drive, d.trackPos = b.drive.trackPos → d.sectorPos = b.drive.sectorPos →
      d.data = b.drive.data → b.drive.Keeps d → b.DriveStep c (b.setDrive d) := fun d h1 h2 h3 h4 =>
    Bus.DriveStep.setDrive (fun h => h.drive.congr h1 h2 (h3 ▸ h.drive.data)) h4
  have sel : ∀ i, b.DriveStep c { b with selected := i } := fun i =>
    ⟨fun h => h.withSelected i, Bus.Keeps.withSelected b i, rfl, by simp, fun j _ => by cases j <;> rfl⟩
  unfold Bus.driveEffect at hr
  split at hr
  case h_1 => cases hr; exact flag _ rfl rfl rfl ⟨rfl, rfl, rfl, rfl⟩
  case h_2 => cases hr; exact flag _ rfl rfl rfl ⟨rfl, rfl, rfl, rfl⟩
  case h_3 => cases hr; exact sel .one
  case h_4 => cases hr; exact sel .two
  case h_5 => split at hr; exacts [Bus.driveRead_step hr, Bus.driveWrite_step hr]
  case h_6 =>
    cases hr
    exact Bus.DriveStep.setDrive (fun h => Drive.loadLatch_wf h.drive v) (Drive.loadLatch_keeps _ v)
  case h_7 => cases hr; exact flag _ rfl rfl rfl ⟨rfl, rfl, rfl, rfl⟩
  case h_8 =>
    cases hr
    refine Bus.DriveStep.setDrive (fun h => ?_) ?_
    · refine Drive.loadLatch_wf ?_ v
      exact ⟨h.drive.track, h.drive.sector, h.drive.data⟩
    cases v <;> exact ⟨rfl, rfl, rfl, rfl⟩
  case h_9 =>
    cases hr
    exact Bus.DriveStep.setDrive (fun h => h.drive.stepPhase c _) (Drive.Keeps.stepPhase c _ _)

theorem Bus.draw_eq (b : Bus) : b.draw = .ok (Config.freeByte b.draws) { b with draws := b.draws + 1 } := rfl

/-- A read of a drive switch returns a byte and leaves the bus as its effect left it, but for the count of
draws. -/
theorem Bus.driveValue_ok (b : Bus) (n : Nat) : ∃ v k, b.driveValue n = .ok v { b with draws := k } := by
  unfold Bus.driveValue
  split
  · exact ⟨_, b.draws, rfl⟩
  · split
    · exact ⟨_, b.draws, rfl⟩
    · exact ⟨_, _, rfl⟩

/-! ## Steering stays inside the segments -/

theorem fullSize_iff (c : Cfg) : fullSize c = true ↔
    0x10000 ≤ c.mainSize ∧ 0x10000 ≤ c.auxSize ∧ 0x1000 ≤ c.bankSize ∧ 0x4000 ≤ c.romSize ∧
      0x0F00 ≤ c.slotROMSize := by
  simp [fullSize, and_assoc]

theorem ramSegment_size {c : Cfg} (h : fullSize c = true) (aux : Bool) : 0x10000 ≤ c.size (ramSegment aux) := by
  obtain ⟨h1, h2, -⟩ := (fullSize_iff c).1 h
  cases aux <;> simpa [ramSegment, Cfg.size]

theorem bankRAM_inside {c : Cfg} (h : fullSize c = true) (m : MachineState) {a : Nat} (ha : a < 0x10000)
    (hd : 0xD000 ≤ a) : (bankRAM m a).2 < c.size (bankRAM m a).1 := by
  have h3 := ((fullSize_iff c).1 h).2.2.1
  unfold bankRAM
  split
  · rename_i hb
    cases m.sysBlockAux <;> simp [Cfg.size] <;> omega
  · exact Nat.lt_of_lt_of_le ha (ramSegment_size h _)

theorem slotWindow_inside {c : Cfg} (h : fullSize c = true) (m : MachineState) {a : Nat} (ha : a < 0xD000)
    (hd : 0xC100 ≤ a) : (slotWindow m a).2 < c.size (slotWindow m a).1 := by
  have h4 := ((fullSize_iff c).1 h).2.2.2
  unfold slotWindow
  split
  · simp only [Cfg.size]; omega
  · split <;> simp only [Cfg.size] <;> omega

/-- A read steered to a segment lies inside it (20_memory.md R59). -/
theorem Bus.readTarget_inside {c : Cfg} (h : fullSize c = true) {b : Bus} {a : Word} {g : Segment} {off : Nat}
    (ht : b.readTarget c a = .cell g off) : off < c.size g := by
  have ha := a.isLt
  have h4 := ((fullSize_iff c).1 h).2.2.2.1
  have hmain := ramSegment_size h false
  unfold Bus.readTarget at ht
  simp only [] at ht
  split at ht
  · cases ht; exact Nat.lt_of_lt_of_le ha (ramSegment_size h _)
  split at ht
  · cases ht; exact Nat.lt_of_lt_of_le ha (ramSegment_size h _)
  split at ht
  · split at ht
    · cases ht
    · cases ht; exact Nat.lt_of_lt_of_le ha hmain
  split at ht
  · cases ht; exact slotWindow_inside h _ (by omega) (by omega)
  split at ht
  · cases ht; simp only [Cfg.size]; omega
  · cases ht; exact bankRAM_inside h _ ha (by omega)

/-- A write steered to a segment lies inside it, and the segment is RAM (20_memory.md R59;
22_soft_switches.md R78, R83). -/
theorem Bus.writeTarget_inside {c : Cfg} (h : fullSize c = true) {b : Bus} {a : Word} {g : Segment} {off : Nat}
    (ht : b.writeTarget c a = .cell g off) : off < c.size g := by
  have ha := a.isLt
  have hmain := ramSegment_size h false
  unfold Bus.writeTarget at ht
  simp only [] at ht
  split at ht
  · cases ht; exact Nat.lt_of_lt_of_le ha (ramSegment_size h _)
  split at ht
  · cases ht; exact Nat.lt_of_lt_of_le ha (ramSegment_size h _)
  split at ht
  · split at ht
    · cases ht
    · cases ht; exact Nat.lt_of_lt_of_le ha hmain
  split at ht
  · cases ht
  split at ht
  · cases ht; exact bankRAM_inside h _ ha (by omega)
  · cases ht

theorem ramSegment_not_rom (aux : Bool) : ramSegment aux ≠ .rom ∧ ramSegment aux ≠ .slotROM := by
  cases aux <;> decide

theorem bankRAM_not_rom (m : MachineState) (a : Nat) : (bankRAM m a).1 ≠ .rom ∧ (bankRAM m a).1 ≠ .slotROM := by
  unfold bankRAM
  split
  · cases m.sysBlockAux <;> simp
  · exact ramSegment_not_rom _

/-- A write is never steered to a ROM (22_soft_switches.md R78, R83). -/
theorem Bus.writeTarget_not_rom {c : Cfg} {b : Bus} {a : Word} {g : Segment} {off : Nat}
    (ht : b.writeTarget c a = .cell g off) : g ≠ .rom ∧ g ≠ .slotROM := by
  unfold Bus.writeTarget at ht
  simp only [] at ht
  split at ht
  · cases ht; exact ramSegment_not_rom _
  split at ht
  · cases ht; exact ramSegment_not_rom _
  split at ht
  · split at ht
    · cases ht
    · cases ht; decide
  split at ht
  · cases ht
  split at ht
  · cases ht; exact bankRAM_not_rom _ _
  · cases ht

/-! ## Reads -/

/-- Everything a completed bus access can do to the bus. -/
structure Bus.Step (c : Cfg) (b b' : Bus) : Prop where
  wf : b.Wf c → b'.Wf c
  keeps : b.Keeps b'
  other : b.OtherDriveKept b'

theorem Bus.Step.refl (c : Cfg) (b : Bus) : b.Step c b := ⟨id, Bus.Keeps.refl b, fun _ _ => rfl⟩

theorem Bus.Step.withMs {c : Cfg} {b : Bus} {m : MachineState} (h : b.ms.Step m) : b.Step c { b with ms := m } :=
  ⟨fun hb => hb.withMs (h.wf hb.ms), Bus.Keeps.withMs b h.keys, fun i _ => by cases i <;> rfl⟩

theorem Bus.Step.withDraws (c : Cfg) (b : Bus) (n : Nat) : b.Step c { b with draws := n } :=
  ⟨fun hb => hb.withDraws n, Bus.Keeps.withDraws b n, fun i _ => by cases i <;> rfl⟩

theorem Bus.Step.trans_draws {c : Cfg} {b b' : Bus} (h : b.Step c b') (n : Nat) :
    b.Step c { b' with draws := n } :=
  ⟨fun hb => (h.wf hb).withDraws n, h.keeps.trans (Bus.Keeps.withDraws b' n),
    fun i hi => (show _ = b'.driveAt i by cases i <;> rfl).trans (h.other i hi)⟩

/-- A read handler completes on a well-formed bus. -/
theorem Bus.readHandler_ok {c : Cfg} {b : Bus} (h : b.Wf c) (a : Word) (r : ReadSwitch) :
    ∃ v b', b.readHandler c a r = .ok v b' := by
  cases r
  case drive =>
    obtain ⟨b1, h1⟩ := Bus.driveEffect_ok h (a.toNat % 16) none
    obtain ⟨v, k, h2⟩ := Bus.driveValue_ok b1 (a.toNat % 16)
    refine ⟨v, { b1 with draws := k }, ?_⟩
    simp only [Bus.readHandler, Bus.driveReadAccess, h1, BusRes.bind, h2]
  all_goals exact ⟨_, _, rfl⟩

/-- What a read handler can do: a step of the bus that changes no segment. -/
theorem Bus.readHandler_step {c : Cfg} {b b' : Bus} {a : Word} {r : ReadSwitch} {v : Byte}
    (hr : b.readHandler c a r = .ok v b') : b.Step c b' ∧ ∀ g, b'.mem g = b.mem g := by
  cases r
  case keyboard => cases hr; exact ⟨Bus.Step.refl c b, fun _ => rfl⟩
  case anyKey => cases hr; exact ⟨Bus.Step.withMs (.withStrobe _ _), by simp⟩
  case status => cases hr; exact ⟨Bus.Step.refl c b, fun _ => rfl⟩
  case command e =>
    cases hr
    exact ⟨(Bus.Step.withMs (.command _ e)).trans_draws _, fun g => by cases g <;> rfl⟩
  case unspecified => cases hr; exact ⟨Bus.Step.withDraws c b _, by simp⟩
  case bankSwitch =>
    cases hr
    exact ⟨(Bus.Step.withMs (.bankAccess _ a)).trans_draws _, fun g => by cases g <;> rfl⟩
  case drive =>
    simp only [Bus.readHandler, Bus.driveReadAccess] at hr
    cases he : b.driveEffect c (a.toNat % 16) none with
    | fault => rw [he] at hr; cases hr
    | ok u b1 =>
      rw [he] at hr
      obtain ⟨w, k, h2⟩ := Bus.driveValue_ok b1 (a.toNat % 16)
      simp only [BusRes.bind, h2, BusRes.ok.injEq] at hr
      obtain ⟨-, rfl⟩ := hr
      have s := Bus.driveEffect_step he
      exact ⟨Bus.Step.trans_draws ⟨s.wf, s.keeps, s.other⟩ k, fun g => by rw [Bus.mem_withDraws, s.mem]⟩

/-- A bus read completes: the segments have their size and the bus is well formed. -/
theorem Bus.read_ok {c : Cfg} {b : Bus} (hc : fullSize c = true) (h : b.Wf c) (a : Word) :
    ∃ v b', b.read c a = .ok v b' := by
  unfold Bus.read
  split
  · rename_i g off ht
    exact ⟨_, _, by rw [Bus.getCell, if_pos (Bus.readTarget_inside hc ht)]⟩
  · exact Bus.readHandler_ok h a _

/-- What a bus read can do: a step of the bus that changes no segment. -/
theorem Bus.read_step {c : Cfg} {b b' : Bus} {a : Word} {v : Byte} (hr : b.read c a = .ok v b') :
    b.Step c b' ∧ ∀ g, b'.mem g = b.mem g := by
  unfold Bus.read at hr
  split at hr
  · unfold Bus.getCell at hr
    split at hr
    · cases hr; exact ⟨Bus.Step.refl c b, fun _ => rfl⟩
    · cases hr
  · exact Bus.readHandler_step hr

/-- A read of an address without a handler gives the byte behind it and changes nothing. -/
theorem Bus.read_of_peek {c : Cfg} {b : Bus} (hc : fullSize c = true) {a : Word} {v : Byte}
    (h : b.peek c a = some v) : b.read c a = .ok v b := by
  unfold Bus.peek at h
  unfold Bus.read
  split at h
  · rename_i g off ht
    cases h
    rw [Bus.getCell, if_pos (Bus.readTarget_inside hc ht)]
  · cases h

/-! ## Writes -/

theorem Bus.copyBlock_ok {c : Cfg} (hc : fullSize c = true) (b : Bus) (on : Bool) :
    b.copyBlock c (ramSegment (!on)) (ramSegment on) =
      .ok () (b.setMem ((b.mem (ramSegment (!on))).copyPrefix (b.mem (ramSegment on)) 512) (ramSegment on)) := by
  have h1 := ramSegment_size hc on
  have h2 := ramSegment_size hc (!on)
  have hn : min 512 (min (c.size (ramSegment (!on))) (c.size (ramSegment on))) = 512 := by omega
  unfold Bus.copyBlock
  simp only [hn, if_true]

/-- Changing the system-block flag copies the 512 bytes to the side that becomes active. -/
theorem Bus.setSysBlock_eq {c : Cfg} (hc : fullSize c = true) (b : Bus) (on : Bool) :
    b.setSysBlock c on =
      if b.ms.sysBlockAux = on then .ok () b
      else .ok () { b.setMem ((b.mem (ramSegment (!on))).copyPrefix (b.mem (ramSegment on)) 512) (ramSegment on)
        with ms := { b.ms with sysBlockAux := on } } := by
  unfold Bus.setSysBlock
  split
  · rfl
  · have h := Bus.copyBlock_ok hc b on
    cases on <;> simp only [ramSegment, Bool.not_false, Bool.not_true, if_true, Bool.false_eq_true, if_false] at h ⊢ <;>
      rw [h] <;> rfl

/-- Everything a completed bus write can do to the bus: a step of the bus that changes only what it touches. -/
structure Bus.WriteStep (c : Cfg) (w : WriteTarget) (v : Byte) (b b' : Bus) : Prop where
  step : b.Step c b'
  kept : b.Wf c → ∀ g off, w.touches g off = false → (b'.mem g).read off = (b.mem g).read off
  stored : b.Wf c → ∀ g off, w = .cell g off → (b'.mem g).read off = v

/-- A write handler completes on a well-formed bus. -/
theorem Bus.writeHandler_ok {c : Cfg} {b : Bus} (hc : fullSize c = true) (h : b.Wf c) (a : Word) (v : Byte)
    (w : WriteSwitch) : ∃ b', b.writeHandler c a v w = .ok () b' := by
  cases w
  case drive => exact Bus.driveEffect_ok h _ _
  case sysBlock on =>
    simp only [Bus.writeHandler, Bus.setSysBlock_eq hc]
    split <;> exact ⟨_, rfl⟩
  all_goals exact ⟨_, rfl⟩

theorem Bus.copyStep {c : Cfg} (hc : fullSize c = true) (b : Bus) (on : Bool) :
    b.Step c { b.setMem ((b.mem (ramSegment (!on))).copyPrefix (b.mem (ramSegment on)) 512) (ramSegment on)
      with ms := { b.ms with sysBlockAux := on } } := by
  have hr := ramSegment_not_rom on
  refine ⟨fun h => ?_, ?_, fun i _ => ?_⟩
  · refine (h.setMem (Memory.wf_copyPrefix (h.canonical _) (h.canonical _) 512)
      (Memory.inside_copyPrefix ?_ (h.inside _))).withMs ((MachineState.Step.withSysBlock _ on).wf h.ms)
    have := ramSegment_size hc on
    omega
  · exact (Bus.Keeps.setMem b _ hr.1 hr.2).trans (Bus.Keeps.withMs _ (by simp))
  · refine (show _ = (b.setMem _ (ramSegment on)).driveAt i by cases i <;> rfl).trans ?_
    exact Bus.driveAt_setMem _ _ _ _

/-- A step of the bus that changes no segment is a write step of a handler that copies nothing. -/
theorem Bus.WriteStep.ofMem {c : Cfg} {w : WriteSwitch} {v : Byte} {b b' : Bus} (h : b.Step c b')
    (hm : ∀ g, b'.mem g = b.mem g) : Bus.WriteStep c (.handler w) v b b' :=
  ⟨h, fun _ g off _ => by rw [hm], fun _ g off hw => by cases hw⟩

/-- What a write handler can do. -/
theorem Bus.writeHandler_step {c : Cfg} {b b' : Bus} (hc : fullSize c = true) {a : Word} {v : Byte}
    {w : WriteSwitch} (hr : b.writeHandler c a v w = .ok () b') : Bus.WriteStep c (.handler w) v b b' := by
  cases w
  case command e => cases hr; exact .ofMem (Bus.Step.withMs (.command _ e)) (by simp)
  case sysBlock on =>
    simp only [Bus.writeHandler, Bus.setSysBlock_eq hc] at hr
    split at hr
    · cases hr; exact .ofMem (Bus.Step.refl c b) fun _ => rfl
    · cases hr
      refine ⟨Bus.copyStep hc b on, fun h g off ht => ?_, fun _ g off hw => by cases hw⟩
      rw [Bus.mem_withMs, Bus.mem_setMem]
      split
      · subst g
        rw [Memory.read_copyPrefix (h.canonical _) (h.canonical _), if_neg]
        simpa [WriteTarget.touches] using ht
      · rfl
  case clearStrobe => cases hr; exact .ofMem (Bus.Step.withMs (.withStrobe _ _)) (by simp)
  case bankSwitch => cases hr; exact .ofMem (Bus.Step.withMs (.bankAccess _ a)) (by simp)
  case drive =>
    have s := Bus.driveEffect_step hr
    exact .ofMem ⟨s.wf, s.keeps, s.other⟩ s.mem

/-- A bus write completes: the segments have their size and the bus is well formed. -/
theorem Bus.write_ok {c : Cfg} {b : Bus} (hc : fullSize c = true) (h : b.Wf c) (a : Word) (v : Byte) :
    ∃ b', b.write c a v = .ok () b' := by
  unfold Bus.write
  split
  · rename_i g off ht
    exact ⟨_, by rw [Bus.setCell, if_pos (Bus.writeTarget_inside hc ht)]⟩
  · exact ⟨_, rfl⟩
  · exact Bus.writeHandler_ok hc h a v _

/-- What a bus write can do. -/
theorem Bus.write_step {c : Cfg} {b b' : Bus} (hc : fullSize c = true) {a : Word} {v : Byte}
    (hr : b.write c a v = .ok () b') : Bus.WriteStep c (b.writeTarget c a) v b b' := by
  unfold Bus.write at hr
  split at hr
  · rename_i g off ht
    have hin := Bus.writeTarget_inside hc ht
    rw [Bus.setCell, if_pos hin] at hr
    cases hr
    rw [ht]
    have hg := Bus.writeTarget_not_rom ht
    refine ⟨⟨fun h => h.setMem (Memory.wf_write (h.canonical g) off v) (Memory.inside_write (h.inside g) hin v),
      Bus.Keeps.setMem b _ hg.1 hg.2, fun i _ => by simp⟩, fun h g' off' hn => ?_, fun h g' off' he => ?_⟩
    · rw [Bus.mem_setMem]
      split
      · subst g'
        rw [Memory.read_write (h.canonical _), if_neg]
        intro he
        subst he
        simp [WriteTarget.touches] at hn
      · rfl
    · cases he
      rw [Bus.mem_setMem_same, Memory.read_write_same (h.canonical _)]
  · rename_i ht
    cases hr
    rw [ht]
    exact ⟨Bus.Step.refl c b, fun _ _ _ _ => rfl, fun _ g off he => by cases he⟩
  · rename_i w ht
    rw [ht]
    exact Bus.writeHandler_step hc hr

end Sys2Proof.Machine
end

