-- ==== Sys2Proof/Laws/Decode.lean ====
section
/-! SUPPORT. The laws of the byte order, of the opcode map and of operand assembly. -/

namespace Sys2Proof

/-! ## Byte order -/

@[simp] theorem hi_word (h l : Byte) : hi (word h l) = h := by
  simp only [hi, word]
  apply BitVec.eq_of_getLsbD_eq
  intro i hi
  rw [BitVec.getLsbD_extractLsb', BitVec.getLsbD_append]
  simp [hi]

@[simp] theorem lo_word (h l : Byte) : lo (word h l) = l := by
  simp only [lo, word]
  apply BitVec.eq_of_getLsbD_eq
  intro i hi
  rw [BitVec.getLsbD_extractLsb', BitVec.getLsbD_append]
  simp [hi]

@[simp] theorem word_hi_lo (w : Word) : word (hi w) (lo w) = w := by
  simp only [hi, lo, word]
  apply BitVec.eq_of_getLsbD_eq
  intro i hi
  rw [BitVec.getLsbD_append]
  by_cases h : i < 8
  · simp [h]
  · simp [h, show i - 8 < 8 by omega, show 8 + (i - 8) = i by omega]

theorem toNat_word (h l : Byte) : (word h l).toNat = h.toNat * 256 + l.toNat := by
  have := l.isLt
  rw [word, BitVec.toNat_append, ← Nat.shiftLeft_add_eq_or_of_lt this, Nat.shiftLeft_eq]

/-! ## All 256 bytes -/

/-- A property of all bytes is one of 256 numbers. -/
theorem forall_byte {P : Byte → Prop} (h : ∀ n : Nat, n < 256 → P (BitVec.ofNat 8 n)) (b : Byte) : P b := by
  have := h b.toNat b.isLt
  simpa using this

/-- Columns x3, x7, xB and xF of the map are the one-byte reserved no-op. -/
theorem opcodeEntry_nop1 : ∀ op : Byte, isNop1Byte op = true → opcodeEntry op = (.nop1, .imp) :=
  forall_byte (by decide +kernel)

/-- The 11 two-byte reserved bytes. -/
theorem opcodeEntry_nop2 : ∀ op : Byte, nop2Bytes.contains op = true → opcodeEntry op = (.nop2, .by2) :=
  forall_byte (by decide +kernel)

/-- The 3 three-byte reserved bytes. -/
theorem opcodeEntry_nop3 : ∀ op : Byte, nop3Bytes.contains op = true → opcodeEntry op = (.nop3, .by3) :=
  forall_byte (by decide +kernel)

/-! ## The encoder's table against the opcode map -/

def allModes : List Mode :=
  [.imp, .acc, .imm, .zpg, .zpx, .zpy, .abs, .abx, .aby, .ind, .idx, .idy, .zpi, .iax, .rel, .by2, .by3]

def allMnemonics : List Mnemonic :=
  [.adc, .and, .asl, .bcc, .bcs, .beq, .bit, .bmi, .bne, .bpl, .bra, .brk,
   .bvc, .bvs, .clc, .cld, .cli, .clv, .cmp, .cpx, .cpy, .dec, .dex, .dey,
   .eor, .inc, .inx, .iny, .jmp, .jsr, .lda, .ldx, .ldy, .lsr, .nop, .nop1,
   .nop2, .nop3, .ora, .pha, .php, .phx, .phy, .pla, .plp, .plx, .ply, .rol,
   .ror, .rti, .rts, .sbc, .sec, .sed, .sei, .sta, .stx, .sty, .stz, .tax,
   .tay, .trb, .tsb, .tsx, .txa, .txs, .tya]

theorem mem_allModes (m : Mode) : m ∈ allModes := by cases m <;> decide

theorem mem_allMnemonics (m : Mnemonic) : m ∈ allMnemonics := by cases m <;> decide

/-- The reserved no-ops are not in `opcodeTable`: they carry their own byte. -/
def Mnemonic.reserved (m : Mnemonic) : Bool := m == .nop1 || m == .nop2 || m == .nop3

/-- One entry of the encoder's table agrees with the opcode map. -/
def entryAgrees (m : Mnemonic) (md : Mode) : Bool :=
  !m.modes.contains md || m.reserved ||
    match opcodeTable.lookup (m, md) with
    | some op => opcodeEntry op == (m, md)
    | none => false

theorem all_entryAgrees : allMnemonics.all (fun m => allModes.all (entryAgrees m)) = true := by decide +kernel

/-- The table has an opcode for every mode of a mnemonic, and the map has that mnemonic and mode there. -/
theorem opcodeTable_lookup {m : Mnemonic} {md : Mode} (h : m.modes.contains md = true) (hr : m.reserved = false) :
    ∃ op, opcodeTable.lookup (m, md) = some op ∧ opcodeEntry op = (m, md) := by
  have key := List.all_eq_true.1 (List.all_eq_true.1 all_entryAgrees m (mem_allMnemonics m)) md (mem_allModes md)
  rw [entryAgrees, h, hr] at key
  cases hl : opcodeTable.lookup (m, md) with
  | none => rw [hl] at key; cases key
  | some op =>
    rw [hl] at key
    exact ⟨op, rfl, by simpa using key⟩

theorem Instr.wf_modes {i : Instr} (h : i.wf = true) : i.mnemonic.modes.contains i.operand.mode = true :=
  (Bool.and_eq_true _ _ ▸ h).1

theorem Instr.wf_reserved {i : Instr} (h : i.wf = true) : i.reservedByteOk = true :=
  (Bool.and_eq_true _ _ ▸ h).2

/-! ## Operands -/

theorem Mode.length_cases (m : Mode) : m.length = 1 ∨ m.length = 2 ∨ m.length = 3 := by
  cases m <;> simp [Mode.length]

@[simp] theorem operandOf_mode (m : Mode) (b1 b2 : Byte) : (operandOf m b1 b2).mode = m := by
  cases m <;> rfl

theorem Operand.bytes_length (o : Operand) : o.bytes.length + 1 = o.length := by
  cases o <;> rfl

/-- Assembling the bytes of an operand gives it back. -/
theorem operandOf_bytes (o : Operand) : operandOf o.mode (o.bytes.getD 0 0) (o.bytes.getD 1 0) = o := by
  cases o <;> simp [Operand.mode, Operand.bytes, operandOf]

end Sys2Proof
end

