-- ==== Sys2Proof/Laws/Flags.lean ====
section
/-! SUPPORT. What each flag of P is after each flag computation: `getFlag` of every operation of
`Machine/Flags.lean`, and that a status byte is its eight flags. -/

namespace Sys2Proof.Machine

theorem getLsbD_mask (f g : Flag) : f.mask.getLsbD g.index = decide (g = f) := by
  cases f <;> cases g <;> decide

theorem Flag.index_lt (f : Flag) : f.index < 8 := by cases f <;> decide

/-- Writing a flag sets that flag and keeps the others. -/
@[simp] theorem getFlag_setFlag (p : Byte) (f g : Flag) (on : Bool) :
    getFlag (setFlag p f on) g = if g = f then on else getFlag p g := by
  have hg := g.index_lt
  unfold getFlag setFlag
  cases on
  · simp only [Bool.false_eq_true, if_false, BitVec.getLsbD_and, BitVec.getLsbD_not, getLsbD_mask, hg]
    by_cases h : g = f <;> simp [h]
  · simp only [if_true, BitVec.getLsbD_or, getLsbD_mask]
    by_cases h : g = f <;> simp [h]

/-- B and U read 1 after the forcing, the other flags as before. -/
@[simp] theorem getFlag_forced (p : Byte) (f : Flag) :
    getFlag (forced p) f = (f = .b || f = .u || getFlag p f) := by
  unfold getFlag forced
  rw [BitVec.getLsbD_or]
  cases f <;> simp [Flag.index]

/-- N is bit 7 of the value, Z says it is 0, the other flags are kept. -/
@[simp] theorem getFlag_setNZ (p v : Byte) (f : Flag) :
    getFlag (setNZ p v) f = if f = .z then v == 0 else if f = .n then v.msb else getFlag p f := by
  simp only [setNZ, getFlag_setFlag]

/-- Two status bytes with the same flags are equal. -/
theorem eq_of_getFlag {p q : Byte} (h : ∀ f, getFlag p f = getFlag q f) : p = q := by
  apply BitVec.eq_of_getLsbD_eq
  intro i hi
  have : ∃ f : Flag, f.index = i := by
    match i, hi with
    | 0, _ => exact ⟨.c, rfl⟩
    | 1, _ => exact ⟨.z, rfl⟩
    | 2, _ => exact ⟨.i, rfl⟩
    | 3, _ => exact ⟨.d, rfl⟩
    | 4, _ => exact ⟨.b, rfl⟩
    | 5, _ => exact ⟨.u, rfl⟩
    | 6, _ => exact ⟨.v, rfl⟩
    | 7, _ => exact ⟨.n, rfl⟩
  obtain ⟨f, rfl⟩ := this
  exact h f

theorem getFlag_sumFlags (p : Byte) (r : Sum) (f : Flag) :
    getFlag (sumFlags p r) f =
      if f = .z then r.value == 0 else if f = .n then r.value.msb else if f = .v then r.overflow
      else if f = .c then r.carry else getFlag p f := by
  simp only [sumFlags, getFlag_setNZ, getFlag_setFlag]

theorem getFlag_compareFlags (p r m : Byte) (f : Flag) :
    getFlag (compareFlags p r m) f =
      if f = .n then (r - m).msb else if f = .z then r == m else if f = .c then decide (m.toNat ≤ r.toNat)
      else getFlag p f := by
  simp only [compareFlags, getFlag_setFlag]

theorem getFlag_bitFlags (p a m : Byte) (f : Flag) :
    getFlag (bitFlags p a m) f =
      if f = .v then m.getLsbD 6 else if f = .n then m.msb else if f = .z then a &&& m == 0 else getFlag p f := by
  simp only [bitFlags, getFlag_setFlag]

theorem getFlag_testFlags (p a m : Byte) (f : Flag) :
    getFlag (testFlags p a m) f = if f = .z then a &&& m == 0 else getFlag p f := by
  simp only [testFlags, getFlag_setFlag]

theorem getFlag_shiftFlags (p : Byte) (out : Bool) (v : Byte) (f : Flag) :
    getFlag (shiftFlags p out v) f =
      if f = .z then v == 0 else if f = .n then v.msb else if f = .c then out else getFlag p f := by
  simp only [shiftFlags, getFlag_setNZ, getFlag_setFlag]

/-! ## The flags after the forcing at the end of a step -/

@[simp] theorem forced_forced (p : Byte) : forced (forced p) = forced p :=
  eq_of_getFlag fun f => by cases f <;> simp

end Sys2Proof.Machine
end

