-- ==== Sys2Proof/Laws/Ops.lean ====
section
/-! SUPPORT. One lemma for each named operation of the CPU, saying everything it can do on a well-formed
state; the provers cite these instead of unfolding the operations. -/

namespace Sys2Proof.Machine

/-! ## Results -/

@[simp] theorem Res.bind_ok {α β : Type} (v : α) (s : State) (k : α → State → Res β) :
    (Res.ok v s).bind k = k v s := rfl

@[simp] theorem Res.bind_fault {α β : Type} (f : Fault) (k : α → State → Res β) :
    (Res.fault f : Res α).bind k = .fault f := rfl

@[simp] theorem Res.bind_refused {α β : Type} (r : Refusal) (k : α → State → Res β) :
    (Res.refused r : Res α).bind k = .refused r := rfl

/-- A sequence of two operations completes exactly when both do. -/
theorem Res.bind_eq_ok {α β : Type} {r : Res α} {k : α → State → Res β} {w : β} {t : State}
    (h : r.bind k = .ok w t) : ∃ v s, r = .ok v s ∧ k v s = .ok w t := by
  cases r with
  | ok v s => exact ⟨v, s, rfl, h⟩
  | fault => cases h
  | refused => cases h

@[simp] theorem complete_ok (adv : Word) (s : State) :
    complete adv (.ok () s) = .next { s with p := forced s.p, pc := s.pc + adv } := rfl

/-! ## Sequences of bus accesses -/

/-- What any sequence of bus accesses keeps. -/
structure Bus.Run (c : Cfg) (b b' : Bus) : Prop where
  wf : b.Wf c → b'.Wf c
  keeps : b.Keeps b'

theorem Bus.Run.refl (c : Cfg) (b : Bus) : Bus.Run c b b := ⟨id, Bus.Keeps.refl b⟩

theorem Bus.Run.trans {c : Cfg} {x y z : Bus} (h : Bus.Run c x y) (k : Bus.Run c y z) : Bus.Run c x z :=
  ⟨fun w => k.wf (h.wf w), h.keeps.trans k.keeps⟩

theorem Bus.Step.run {c : Cfg} {b b' : Bus} (h : b.Step c b') : Bus.Run c b b' := ⟨h.wf, h.keeps⟩

theorem State.Wf.withBus {s : State} (h : s.Wf) {b : Bus} (hb : b.Wf s.cfg) : ({ s with bus := b } : State).Wf :=
  ⟨h.size, h.resetP, hb⟩

/-- What a sequence of bus reads can do to a state: only the bus moves, and no segment changes. -/
structure State.Reads (s t : State) : Prop where
  only : t = { s with bus := t.bus }
  run : Bus.Run s.cfg s.bus t.bus
  mem : ∀ g, t.bus.mem g = s.bus.mem g

theorem State.Reads.refl (s : State) : s.Reads s := ⟨rfl, Bus.Run.refl _ _, fun _ => rfl⟩

theorem State.Reads.cfg {s t : State} (h : s.Reads t) : t.cfg = s.cfg := by rw [h.only]
theorem State.Reads.a {s t : State} (h : s.Reads t) : t.a = s.a := by rw [h.only]
theorem State.Reads.x {s t : State} (h : s.Reads t) : t.x = s.x := by rw [h.only]
theorem State.Reads.y {s t : State} (h : s.Reads t) : t.y = s.y := by rw [h.only]
theorem State.Reads.sp {s t : State} (h : s.Reads t) : t.sp = s.sp := by rw [h.only]
theorem State.Reads.p {s t : State} (h : s.Reads t) : t.p = s.p := by rw [h.only]
theorem State.Reads.pc {s t : State} (h : s.Reads t) : t.pc = s.pc := by rw [h.only]
theorem State.Reads.status {s t : State} (h : s.Reads t) : t.status = s.status := by rw [h.only]
theorem State.Reads.booted {s t : State} (h : s.Reads t) : t.booted = s.booted := by rw [h.only]

theorem State.Reads.wf {s t : State} (h : s.Reads t) (hs : s.Wf) : t.Wf :=
  ⟨h.cfg ▸ hs.size, h.cfg ▸ hs.resetP, h.cfg ▸ h.run.wf hs.bus⟩

theorem State.Reads.trans {s t u : State} (h : s.Reads t) (k : t.Reads u) : s.Reads u := by
  refine ⟨?_, h.run.trans (h.cfg ▸ k.run), fun g => (k.mem g).trans (h.mem g)⟩
  rw [k.only, h.only]

/-! ## Reads -/

/-- A read completes, and is a sequence of reads. -/
theorem State.read_spec {s : State} (h : s.Wf) (a : Word) : ∃ v t, s.read a = .ok v t ∧ s.Reads t := by
  obtain ⟨v, b, hr⟩ := Bus.read_ok h.size h.bus a
  have hs := Bus.read_step hr
  exact ⟨v, { s with bus := b }, by rw [State.read, hr]; rfl, rfl, hs.1.run, hs.2⟩

/-- A read of an address without a handler gives the byte behind it and changes nothing. -/
theorem State.read_of_peek {s : State} (h : fullSize s.cfg = true) {a : Word} {v : Byte}
    (hp : s.bus.peek s.cfg a = some v) : s.read a = .ok v s := by
  rw [State.read, Bus.read_of_peek h hp]; rfl

/-- A 16-bit read is two reads of a byte. -/
theorem State.read16_eq (s : State) (a : Word) :
    s.read16 a = (s.read a).bind fun l t => (t.read (a + 1)).bind fun h u => .ok (word h l) u := by
  unfold State.read16 State.read Bus.read16
  cases s.bus.read s.cfg a with
  | fault => rfl
  | ok l b =>
    simp only [BusRes.bind, State.onBus, Res.bind]
    cases b.read s.cfg (a + 1) <;> rfl

theorem State.read16_spec {s : State} (h : s.Wf) (a : Word) : ∃ w t, s.read16 a = .ok w t ∧ s.Reads t := by
  obtain ⟨l, t, h1, r1⟩ := State.read_spec h a
  obtain ⟨m, u, h2, r2⟩ := State.read_spec (r1.wf h) (a + 1)
  exact ⟨word m l, u, by simp only [State.read16_eq, h1, h2, Res.bind_ok], r1.trans r2⟩

theorem State.read16_of_peek {s : State} (h : fullSize s.cfg = true) {a : Word} {l m : Byte}
    (hl : s.bus.peek s.cfg a = some l) (hm : s.bus.peek s.cfg (a + 1) = some m) :
    s.read16 a = .ok (word m l) s := by
  simp only [State.read16_eq, State.read_of_peek h hl, State.read_of_peek h hm, Res.bind_ok]

/-! ## Zero page and stack: RAM of the active side, never a handler -/

theorem Bus.readTarget_low (c : Cfg) (b : Bus) {a : Word} (h : a.toNat < 0x200) :
    b.readTarget c a = .cell (ramSegment b.ms.sysBlockAux) a.toNat := by
  unfold Bus.readTarget
  simp only [h, if_true]

theorem Bus.writeTarget_low (c : Cfg) (b : Bus) {a : Word} (h : a.toNat < 0x200) :
    b.writeTarget c a = .cell (ramSegment b.ms.sysBlockAux) a.toNat := by
  unfold Bus.writeTarget
  simp only [h, if_true]

theorem Bus.peek_low (c : Cfg) (b : Bus) {a : Word} (h : a.toNat < 0x200) :
    b.peek c a = some ((b.mem (ramSegment b.ms.sysBlockAux)).read a.toNat) := by
  unfold Bus.peek
  rw [Bus.readTarget_low c b h]

@[simp] theorem toNat_zext (z : Byte) : (zext z).toNat = z.toNat := by
  have := z.isLt
  simp only [zext, BitVec.toNat_setWidth]
  omega

@[simp] theorem toNat_stackAddr (sp : Byte) : (stackAddr sp).toNat = 0x100 + sp.toNat := by
  have := sp.isLt
  simp only [stackAddr, stackPage, BitVec.toNat_add, toNat_zext]
  rw [Nat.mod_eq_of_lt] <;> simp
  omega

theorem stackAddr_lt (sp : Byte) : (stackAddr sp).toNat < 0x200 := by
  have := sp.isLt
  rw [toNat_stackAddr]; omega

theorem zext_lt (z : Byte) : (zext z).toNat < 0x200 := by
  have := z.isLt
  rw [toNat_zext]; omega

/-- The RAM segment that the zero page and the stack page reach. -/
abbrev Bus.lowRam (b : Bus) : Memory := b.mem (ramSegment b.ms.sysBlockAux)

/-- A zero-page pointer: two bytes of the active side, the second address modulo 256. -/
theorem State.read16zp_eq {s : State} (h : fullSize s.cfg = true) (z : Byte) :
    s.read16zp z = .ok (word (s.bus.lowRam.read (z + 1).toNat) (s.bus.lowRam.read z.toNat)) s := by
  have h1 := State.read_of_peek h (Bus.peek_low s.cfg s.bus (zext_lt z))
  have h2 := State.read_of_peek h (Bus.peek_low s.cfg s.bus (zext_lt (z + 1)))
  simp only [State.read16zp, h1, h2, Res.bind_ok, toNat_zext]

/-- `Pop()`: the byte above S, in the RAM of the active side; S moves up. -/
theorem State.pop_eq {s : State} (h : fullSize s.cfg = true) :
    s.pop = .ok (s.bus.lowRam.read (0x100 + (s.sp + 1).toNat)) { s with sp := s.sp + 1 } := by
  have := State.read_of_peek (s := { s with sp := s.sp + 1 }) h
    (Bus.peek_low s.cfg s.bus (stackAddr_lt (s.sp + 1)))
  rw [State.pop, this, toNat_stackAddr]

/-- The bus after a byte is put at a stack slot. -/
def Bus.pushed (b : Bus) (sp v : Byte) : Bus :=
  b.setMem (b.lowRam.write (0x100 + sp.toNat) v) (ramSegment b.ms.sysBlockAux)

/-- `Push(v)`: the byte at S, in the RAM of the active side; S moves down. -/
theorem State.push_eq {s : State} (h : fullSize s.cfg = true) (v : Byte) :
    s.push v = .ok () { s with bus := s.bus.pushed s.sp v, sp := s.sp - 1 } := by
  have ht := Bus.writeTarget_low s.cfg s.bus (stackAddr_lt s.sp)
  have hin := Bus.writeTarget_inside h ht
  rw [State.push, State.write, Bus.write, ht]
  simp only []
  rw [Bus.setCell, if_pos hin, toNat_stackAddr]
  rfl

@[simp] theorem Bus.pushed_ms (b : Bus) (sp v : Byte) : (b.pushed sp v).ms = b.ms := by simp [Bus.pushed]
@[simp] theorem Bus.pushed_drive1 (b : Bus) (sp v : Byte) : (b.pushed sp v).drive1 = b.drive1 := by simp [Bus.pushed]
@[simp] theorem Bus.pushed_drive2 (b : Bus) (sp v : Byte) : (b.pushed sp v).drive2 = b.drive2 := by simp [Bus.pushed]
@[simp] theorem Bus.pushed_selected (b : Bus) (sp v : Byte) : (b.pushed sp v).selected = b.selected := by
  simp [Bus.pushed]
@[simp] theorem Bus.pushed_draws (b : Bus) (sp v : Byte) : (b.pushed sp v).draws = b.draws := by simp [Bus.pushed]

/-- What a push leaves in each byte of each segment. -/
theorem Bus.pushed_read {c : Cfg} {b : Bus} (h : b.Wf c) (sp v : Byte) (g : Segment) (off : Nat) :
    ((b.pushed sp v).mem g).read off =
      if g = ramSegment b.ms.sysBlockAux ∧ off = 0x100 + sp.toNat then v else (b.mem g).read off := by
  unfold Bus.pushed
  rw [Bus.mem_setMem]
  by_cases hg : g = ramSegment b.ms.sysBlockAux
  · subst hg
    rw [if_pos rfl, Bus.lowRam, Memory.read_write (h.canonical _)]
    simp
  · simp [hg]

/-- A push is a run of the bus. -/
theorem Bus.pushed_run {c : Cfg} (hc : fullSize c = true) (b : Bus) (sp v : Byte) :
    Bus.Run c b (b.pushed sp v) := by
  have hg := ramSegment_not_rom b.ms.sysBlockAux
  refine ⟨fun h => h.setMem (Memory.wf_write (h.canonical _) _ _)
    (Memory.inside_write (h.inside _) ?_ _), Bus.Keeps.setMem b _ hg.1 hg.2⟩
  have := ramSegment_size hc b.ms.sysBlockAux
  have := sp.isLt
  omega

theorem Bus.Wf.pushed {c : Cfg} {b : Bus} (hc : fullSize c = true) (h : b.Wf c) (sp v : Byte) :
    (b.pushed sp v).Wf c := (Bus.pushed_run hc b sp v).wf h

/-- Addresses from $D000 up have no read handler: the vectors are plain reads. -/
theorem Bus.peek_high (c : Cfg) (b : Bus) {a : Word} (h : 0xD000 ≤ a.toNat) :
    ∃ g off, b.readTarget c a = .cell g off ∧ b.peek c a = some ((b.mem g).read off) := by
  have h1 : ¬ a.toNat < 0x200 := by omega
  have h2 : ¬ a.toNat < 0xC000 := by omega
  have h3 : ¬ a.toNat < 0xC100 := by omega
  have h4 : ¬ a.toNat < 0xD000 := by omega
  have ht : ∃ g off, b.readTarget c a = .cell g off := by
    unfold Bus.readTarget
    simp only [h1, h2, h3, h4, if_false]
    split <;> exact ⟨_, _, rfl⟩
  obtain ⟨g, off, ht⟩ := ht
  exact ⟨g, off, ht, by rw [Bus.peek, ht]⟩

/-! ## Writes -/

/-- A write completes and changes what it touches. -/
theorem State.write_spec {s : State} (h : s.Wf) (a : Word) (v : Byte) :
    ∃ b', s.write a v = .ok () { s with bus := b' } ∧
      Bus.WriteStep s.cfg (s.bus.writeTarget s.cfg a) v s.bus b' := by
  obtain ⟨b', hw⟩ := Bus.write_ok h.size h.bus a v
  exact ⟨b', by rw [State.write, hw]; rfl, Bus.write_step h.size hw⟩

/-! ## Resolvers -/

theorem effectiveAddress_spec {s : State} (h : s.Wf) (o : Operand) :
    ∃ ea t, effectiveAddress o s = .ok ea t ∧ s.Reads t := by
  have zp : ∀ z, ∃ w t, s.read16zp z = .ok w t ∧ s.Reads t := fun z =>
    ⟨_, s, State.read16zp_eq h.size z, State.Reads.refl s⟩
  cases o
  case ind w => exact State.read16_spec h w
  case idx b => exact zp _
  case zpi b => exact zp _
  case iax w => exact State.read16_spec h _
  case idy b => exact ⟨_, s, by rw [effectiveAddress, State.read16zp_eq h.size b]; rfl, State.Reads.refl s⟩
  all_goals exact ⟨_, s, rfl, State.Reads.refl s⟩

theorem effectiveValue_spec {s : State} (h : s.Wf) (o : Operand) (ea : Word) :
    ∃ v t, effectiveValue o ea s = .ok v t ∧ s.Reads t := by
  cases o
  all_goals first
    | exact State.read_spec h ea
    | exact ⟨_, s, rfl, State.Reads.refl s⟩

/-- A resolver completes, moves nothing but the bus, and changes no segment. -/
theorem resolve_spec {s : State} (h : s.Wf) (o : Operand) :
    ∃ r t, resolve o s = .ok r t ∧ s.Reads t := by
  obtain ⟨ea, t, h1, r1⟩ := effectiveAddress_spec h o
  obtain ⟨v, u, h2, r2⟩ := effectiveValue_spec (r1.wf h) o ea
  exact ⟨⟨ea, v⟩, u, by simp [resolve, h1, h2], r1.trans r2⟩

/-- An instruction without an operand has nothing to resolve. -/
@[simp] theorem resolve_imp (s : State) : resolve .imp s = .ok ⟨0, 0⟩ s := rfl

@[simp] theorem runInstr_imp (m : Mnemonic) (k : Resolved → State → Res Unit) (s : State) :
    runInstr m .imp k s = complete (advance m .imp) (k ⟨0, 0⟩ s) := rfl

/-- What an instruction does after its operand was resolved. -/
theorem runInstr_of_resolve {m : Mnemonic} {o : Operand} {k : Resolved → State → Res Unit} {s t : State}
    {r : Resolved} (h : resolve o s = .ok r t) : runInstr m o k s = complete (advance m o) (k r t) := by
  rw [runInstr, h]; rfl

/-! ## Fetch -/

/-- A fetch completes and is a sequence of reads. -/
theorem State.fetch_spec {s : State} (h : s.Wf) : ∃ i t, s.fetch = .ok i t ∧ s.Reads t := by
  obtain ⟨op, t, h0, r0⟩ := State.read_spec h s.pc
  have ht := r0.wf h
  unfold State.fetch
  rw [h0]
  simp only [Res.bind_ok]
  split
  · obtain ⟨b1, u, h1, r1⟩ := State.read_spec ht (t.pc + 1)
    exact ⟨_, u, by rw [h1]; rfl, r0.trans r1⟩
  · obtain ⟨b1, u, h1, r1⟩ := State.read_spec ht (t.pc + 1)
    obtain ⟨b2, v, h2, r2⟩ := State.read_spec (r1.wf ht) (u.pc + 2)
    exact ⟨_, v, by rw [h1]; simp only [Res.bind_ok]; rw [h2]; rfl, (r0.trans r1).trans r2⟩
  · exact ⟨_, t, rfl, r0⟩

end Sys2Proof.Machine
end

