-- ==== Sys2Proof/Laws/Exec.lean ====
section
/-! SUPPORT. Everything an instruction can do on a well-formed state, said once for all of them, and the same of a
step: the machine completes or refuses a decimal ADC or SBC, and what it keeps. -/

namespace Sys2Proof.Machine

/-! ## What the part of a step after the resolver keeps -/

/-- A run of register updates and bus accesses: the configuration, the status and the launch flag stay, and the bus
runs. -/
structure State.Run (s t : State) : Prop where
  cfg : t.cfg = s.cfg
  status : t.status = s.status
  booted : t.booted = s.booted
  bus : Bus.Run s.cfg s.bus t.bus

theorem State.Run.refl (s : State) : s.Run s := ⟨rfl, rfl, rfl, Bus.Run.refl _ _⟩

theorem State.Run.trans {s t u : State} (h : s.Run t) (k : t.Run u) : s.Run u :=
  ⟨k.cfg.trans h.cfg, k.status.trans h.status, k.booted.trans h.booted, h.bus.trans (h.cfg ▸ k.bus)⟩

theorem State.Reads.toRun {s t : State} (h : s.Reads t) : s.Run t := ⟨h.cfg, h.status, h.booted, h.run⟩

theorem State.Run.wf {s t : State} (h : s.Run t) (hs : s.Wf) : t.Wf :=
  ⟨h.cfg ▸ hs.size, h.cfg ▸ hs.resetP, h.cfg ▸ h.bus.wf hs.bus⟩

/-- A handler that completes on every well-formed state, with a run. -/
def Completes (k : Resolved → State → Res Unit) : Prop :=
  ∀ r s, s.Wf → ∃ u, k r s = .ok () u ∧ s.Run u

/-- A handler that only updates registers. -/
theorem Completes.pure {f : Resolved → State → State} (h : ∀ r (s : State), s.Run (f r s)) :
    Completes fun r s => .ok () (f r s) := fun r s _ => ⟨_, rfl, h r s⟩

theorem State.write_run {s : State} (h : s.Wf) (a : Word) (v : Byte) :
    ∃ u, s.write a v = .ok () u ∧ s.Run u := by
  obtain ⟨b', hw, hs⟩ := State.write_spec h a v
  exact ⟨_, hw, rfl, rfl, rfl, hs.step.run⟩

theorem State.push_run {s : State} (h : s.Wf) (v : Byte) : ∃ u, s.push v = .ok () u ∧ s.Run u :=
  ⟨_, State.push_eq h.size v, rfl, rfl, rfl, Bus.pushed_run h.size s.bus s.sp v⟩

theorem State.pop_run {s : State} (h : s.Wf) : ∃ v u, s.pop = .ok v u ∧ s.Run u :=
  ⟨_, _, State.pop_eq h.size, rfl, rfl, rfl, Bus.Run.refl _ _⟩

theorem State.pushReturn_run {s : State} (h : s.Wf) : ∃ u, s.pushReturn = .ok () u ∧ s.Run u := by
  obtain ⟨t, h1, r1⟩ := State.push_run h (hi (s.pc + 2))
  obtain ⟨u, h2, r2⟩ := State.push_run (r1.wf h) (lo (s.pc + 2))
  exact ⟨u, by rw [State.pushReturn, h1]; exact h2, r1.trans r2⟩

theorem State.enterTrap_run {s : State} (h : s.Wf) : ∃ u, s.enterTrap = .ok () u ∧ s.Run u := by
  obtain ⟨t, h1, r1⟩ := State.pushReturn_run h
  have ht := r1.wf h
  obtain ⟨u, h2, r2⟩ := State.push_run ht (forced t.p)
  have hu := r2.wf ht
  have r3 : u.Run ((u.withFlag .i true).withFlag .d false) := ⟨rfl, rfl, rfl, Bus.Run.refl _ _⟩
  obtain ⟨w, v, h4, r4⟩ := State.read16_spec (r3.wf hu) vecBrk
  refine ⟨{ v with pc := w }, ?_, ((r1.trans r2).trans r3).trans (r4.toRun.trans ⟨rfl, rfl, rfl, Bus.Run.refl _ _⟩)⟩
  rw [State.enterTrap, h1]
  simp only [Res.bind_ok]
  rw [h2]
  simp only [Res.bind_ok]
  rw [h4]
  rfl

theorem State.returnFromTrap_run {s : State} (h : s.Wf) : ∃ u, s.returnFromTrap = .ok () u ∧ s.Run u := by
  obtain ⟨p, t, h1, r1⟩ := State.pop_run h
  have r2 : t.Run { t with p := p } := ⟨rfl, rfl, rfl, Bus.Run.refl _ _⟩
  have ht := (r1.trans r2).wf h
  obtain ⟨l, u, h3, r3⟩ := State.pop_run ht
  obtain ⟨m, v, h4, r4⟩ := State.pop_run (r3.wf ht)
  refine ⟨{ v with pc := word m l }, ?_,
    ((r1.trans r2).trans r3).trans (r4.trans ⟨rfl, rfl, rfl, Bus.Run.refl _ _⟩)⟩
  rw [State.returnFromTrap, h1]
  simp only [Res.bind_ok]
  rw [h3]
  simp only [Res.bind_ok]
  rw [h4]
  rfl

theorem State.returnFromSubroutine_run {s : State} (h : s.Wf) :
    ∃ u, s.returnFromSubroutine = .ok () u ∧ s.Run u := by
  obtain ⟨l, u, h3, r3⟩ := State.pop_run h
  obtain ⟨m, v, h4, r4⟩ := State.pop_run (r3.wf h)
  refine ⟨{ v with pc := word m l + 1 }, ?_, r3.trans (r4.trans ⟨rfl, rfl, rfl, Bus.Run.refl _ _⟩)⟩
  rw [State.returnFromSubroutine, h3]
  simp only [Res.bind_ok]
  rw [h4]
  rfl

theorem writeBack_run {s : State} (h : s.Wf) (o : Operand) (ea : Word) (v : Byte) :
    ∃ u, writeBack o ea v s = .ok () u ∧ s.Run u := by
  cases o
  case acc => exact ⟨_, rfl, rfl, rfl, rfl, Bus.Run.refl _ _⟩
  all_goals exact State.write_run h ea v

/-- A flag update before a write-back. -/
theorem writeBack_run_p {s : State} (h : s.Wf) (o : Operand) (ea : Word) (v p : Byte) :
    ∃ u, writeBack o ea v { s with p := p } = .ok () u ∧ s.Run u := by
  have r : s.Run { s with p := p } := ⟨rfl, rfl, rfl, Bus.Run.refl _ _⟩
  obtain ⟨u, h1, r1⟩ := writeBack_run (r.wf h) o ea v
  exact ⟨u, h1, r.trans r1⟩

/-- What ADC and SBC do to a well-formed state: a run, or the refusal of a decimal operation. -/
theorem addHandler_run {s : State} (m n : Byte) (k : Byte → Byte → Bool → Byte × Bool) :
    (∃ u, addHandler m n k s = .ok () u ∧ s.Run u) ∨
      (s.cfg.decimalMode = .refuse ∧ getFlag s.p .d = true ∧ addHandler m n k s = .refused .decimalRefused) := by
  unfold addHandler
  split
  · rename_i hd
    split
    · rename_i hm; exact Or.inr ⟨hm, hd, rfl⟩
    · exact Or.inl ⟨_, rfl, rfl, rfl, rfl, Bus.Run.refl _ _⟩
    · refine Or.inl ⟨_, rfl, ?_⟩
      have hk : ∀ j, Bus.Run s.cfg s.bus { s.bus with draws := j } := fun j =>
        (Bus.Step.withDraws s.cfg s.bus j).run
      unfold State.decimal
      split
      · exact ⟨rfl, rfl, rfl, hk _⟩
      · exact ⟨rfl, rfl, rfl, hk _⟩
  · exact Or.inl ⟨_, rfl, rfl, rfl, rfl, Bus.Run.refl _ _⟩

/-! ## Every instruction -/

/-- What a run of an instruction's handler can give: a run, or the refusal of a decimal operation. -/
def HandlerSpec (k : Resolved → State → Res Unit) : Prop :=
  ∀ r s, s.Wf → (∃ u, k r s = .ok () u ∧ s.Run u) ∨
    (s.cfg.decimalMode = .refuse ∧ getFlag s.p .d = true ∧ k r s = .refused .decimalRefused)

theorem HandlerSpec.of_completes {k : Resolved → State → Res Unit} (h : Completes k) : HandlerSpec k :=
  fun r s hs => Or.inl (h r s hs)

theorem HandlerSpec.of_pure {f : Resolved → State → State} (h : ∀ r (s : State), s.Run (f r s)) :
    HandlerSpec fun r s => .ok () (f r s) := .of_completes (.pure h)

/-- Pulling a byte and updating registers. -/
theorem HandlerSpec.of_pop {f : Byte → State → State} (h : ∀ v (s : State), s.Run (f v s)) :
    HandlerSpec fun _ s => s.pop.bind fun v s => .ok () (f v s) := fun _ s hs => by
  obtain ⟨v, u, h1, r1⟩ := State.pop_run hs
  exact Or.inl ⟨f v u, by simp only [h1, Res.bind_ok], r1.trans (h v u)⟩

/-- An instruction is its resolver, a handler that completes or refuses a decimal operation, and the end of the
step. -/
theorem exec_handler (i : Instr) (s : State) :
    ∃ k, exec i s = runInstr i.mnemonic i.operand k s ∧ HandlerSpec k := by
  cases i
  case adc u =>
    exact ⟨_, execAdc.eq_1 u s, fun _ _ _ => addHandler_run _ _ _⟩
  case and u =>
    exact ⟨_, execAnd.eq_1 u s, .of_pure fun _ _ => ⟨rfl, rfl, rfl, Bus.Run.refl _ _⟩⟩
  case asl u =>
    exact ⟨_, execAsl.eq_1 u s, .of_completes fun _ _ h => writeBack_run_p h _ _ _ _⟩
  case bcc u =>
    exact ⟨_, execBcc.eq_1 u s, .of_pure fun _ _ => ⟨rfl, rfl, rfl, Bus.Run.refl _ _⟩⟩
  case bcs u =>
    exact ⟨_, execBcs.eq_1 u s, .of_pure fun _ _ => ⟨rfl, rfl, rfl, Bus.Run.refl _ _⟩⟩
  case beq u =>
    exact ⟨_, execBeq.eq_1 u s, .of_pure fun _ _ => ⟨rfl, rfl, rfl, Bus.Run.refl _ _⟩⟩
  case bit u =>
    exact ⟨_, execBit.eq_1 u s, .of_pure fun _ _ => ⟨rfl, rfl, rfl, Bus.Run.refl _ _⟩⟩
  case bmi u =>
    exact ⟨_, execBmi.eq_1 u s, .of_pure fun _ _ => ⟨rfl, rfl, rfl, Bus.Run.refl _ _⟩⟩
  case bne u =>
    exact ⟨_, execBne.eq_1 u s, .of_pure fun _ _ => ⟨rfl, rfl, rfl, Bus.Run.refl _ _⟩⟩
  case bpl u =>
    exact ⟨_, execBpl.eq_1 u s, .of_pure fun _ _ => ⟨rfl, rfl, rfl, Bus.Run.refl _ _⟩⟩
  case bra u =>
    exact ⟨_, execBra.eq_1 u s, .of_pure fun _ _ => ⟨rfl, rfl, rfl, Bus.Run.refl _ _⟩⟩
  case brk =>
    exact ⟨_, execBrk.eq_1 s, .of_completes fun _ _ h => State.enterTrap_run h⟩
  case bvc u =>
    exact ⟨_, execBvc.eq_1 u s, .of_pure fun _ _ => ⟨rfl, rfl, rfl, Bus.Run.refl _ _⟩⟩
  case bvs u =>
    exact ⟨_, execBvs.eq_1 u s, .of_pure fun _ _ => ⟨rfl, rfl, rfl, Bus.Run.refl _ _⟩⟩
  case clc =>
    exact ⟨_, execClc.eq_1 s, .of_pure fun _ _ => ⟨rfl, rfl, rfl, Bus.Run.refl _ _⟩⟩
  case cld =>
    exact ⟨_, execCld.eq_1 s, .of_pure fun _ _ => ⟨rfl, rfl, rfl, Bus.Run.refl _ _⟩⟩
  case cli =>
    exact ⟨_, execCli.eq_1 s, .of_pure fun _ _ => ⟨rfl, rfl, rfl, Bus.Run.refl _ _⟩⟩
  case clv =>
    exact ⟨_, execClv.eq_1 s, .of_pure fun _ _ => ⟨rfl, rfl, rfl, Bus.Run.refl _ _⟩⟩
  case cmp u =>
    exact ⟨_, execCmp.eq_1 u s, .of_pure fun _ _ => ⟨rfl, rfl, rfl, Bus.Run.refl _ _⟩⟩
  case cpx u =>
    exact ⟨_, execCpx.eq_1 u s, .of_pure fun _ _ => ⟨rfl, rfl, rfl, Bus.Run.refl _ _⟩⟩
  case cpy u =>
    exact ⟨_, execCpy.eq_1 u s, .of_pure fun _ _ => ⟨rfl, rfl, rfl, Bus.Run.refl _ _⟩⟩
  case dec u =>
    exact ⟨_, execDec.eq_1 u s, .of_completes fun _ _ h => writeBack_run_p h _ _ _ _⟩
  case dex =>
    exact ⟨_, execDex.eq_1 s, .of_pure fun _ _ => ⟨rfl, rfl, rfl, Bus.Run.refl _ _⟩⟩
  case dey =>
    exact ⟨_, execDey.eq_1 s, .of_pure fun _ _ => ⟨rfl, rfl, rfl, Bus.Run.refl _ _⟩⟩
  case eor u =>
    exact ⟨_, execEor.eq_1 u s, .of_pure fun _ _ => ⟨rfl, rfl, rfl, Bus.Run.refl _ _⟩⟩
  case inc u =>
    exact ⟨_, execInc.eq_1 u s, .of_completes fun _ _ h => writeBack_run_p h _ _ _ _⟩
  case inx =>
    exact ⟨_, execInx.eq_1 s, .of_pure fun _ _ => ⟨rfl, rfl, rfl, Bus.Run.refl _ _⟩⟩
  case iny =>
    exact ⟨_, execIny.eq_1 s, .of_pure fun _ _ => ⟨rfl, rfl, rfl, Bus.Run.refl _ _⟩⟩
  case jmp u =>
    exact ⟨_, execJmp.eq_1 u s, .of_pure fun _ _ => ⟨rfl, rfl, rfl, Bus.Run.refl _ _⟩⟩
  case jsr u =>
    exact ⟨_, execJsr.eq_1 u s, .of_completes fun r t h => by
      obtain ⟨w, h1, r1⟩ := State.pushReturn_run h
      exact ⟨{ w with pc := r.ea }, by rw [h1]; rfl, r1.trans ⟨rfl, rfl, rfl, Bus.Run.refl _ _⟩⟩⟩
  case lda u =>
    exact ⟨_, execLda.eq_1 u s, .of_pure fun _ _ => ⟨rfl, rfl, rfl, Bus.Run.refl _ _⟩⟩
  case ldx u =>
    exact ⟨_, execLdx.eq_1 u s, .of_pure fun _ _ => ⟨rfl, rfl, rfl, Bus.Run.refl _ _⟩⟩
  case ldy u =>
    exact ⟨_, execLdy.eq_1 u s, .of_pure fun _ _ => ⟨rfl, rfl, rfl, Bus.Run.refl _ _⟩⟩
  case lsr u =>
    exact ⟨_, execLsr.eq_1 u s, .of_completes fun _ _ h => writeBack_run_p h _ _ _ _⟩
  case nop =>
    exact ⟨_, execNop.eq_1 s, .of_pure fun _ _ => ⟨rfl, rfl, rfl, Bus.Run.refl _ _⟩⟩
  case nop1 u =>
    exact ⟨_, execNop1.eq_1 u s, .of_pure fun _ _ => ⟨rfl, rfl, rfl, Bus.Run.refl _ _⟩⟩
  case nop2 u v =>
    exact ⟨_, execNop2.eq_1 u v s, .of_pure fun _ _ => ⟨rfl, rfl, rfl, Bus.Run.refl _ _⟩⟩
  case nop3 u v =>
    exact ⟨_, execNop3.eq_1 u v s, .of_pure fun _ _ => ⟨rfl, rfl, rfl, Bus.Run.refl _ _⟩⟩
  case ora u =>
    exact ⟨_, execOra.eq_1 u s, .of_pure fun _ _ => ⟨rfl, rfl, rfl, Bus.Run.refl _ _⟩⟩
  case pha =>
    exact ⟨_, execPha.eq_1 s, .of_completes fun _ _ h => State.push_run h _⟩
  case php =>
    exact ⟨_, execPhp.eq_1 s, .of_completes fun _ _ h => State.push_run h _⟩
  case phx =>
    exact ⟨_, execPhx.eq_1 s, .of_completes fun _ _ h => State.push_run h _⟩
  case phy =>
    exact ⟨_, execPhy.eq_1 s, .of_completes fun _ _ h => State.push_run h _⟩
  case pla =>
    exact ⟨_, execPla.eq_1 s, .of_pop fun _ _ => ⟨rfl, rfl, rfl, Bus.Run.refl _ _⟩⟩
  case plp =>
    exact ⟨_, execPlp.eq_1 s, .of_pop fun _ _ => ⟨rfl, rfl, rfl, Bus.Run.refl _ _⟩⟩
  case plx =>
    exact ⟨_, execPlx.eq_1 s, .of_pop fun _ _ => ⟨rfl, rfl, rfl, Bus.Run.refl _ _⟩⟩
  case ply =>
    exact ⟨_, execPly.eq_1 s, .of_pop fun _ _ => ⟨rfl, rfl, rfl, Bus.Run.refl _ _⟩⟩
  case rol u =>
    exact ⟨_, execRol.eq_1 u s, .of_completes fun _ _ h => writeBack_run_p h _ _ _ _⟩
  case ror u =>
    exact ⟨_, execRor.eq_1 u s, .of_completes fun _ _ h => writeBack_run_p h _ _ _ _⟩
  case rti =>
    exact ⟨_, execRti.eq_1 s, .of_completes fun _ _ h => State.returnFromTrap_run h⟩
  case rts =>
    exact ⟨_, execRts.eq_1 s, .of_completes fun _ _ h => State.returnFromSubroutine_run h⟩
  case sbc u =>
    exact ⟨_, execSbc.eq_1 u s, fun _ _ _ => addHandler_run _ _ _⟩
  case sec =>
    exact ⟨_, execSec.eq_1 s, .of_pure fun _ _ => ⟨rfl, rfl, rfl, Bus.Run.refl _ _⟩⟩
  case sed =>
    exact ⟨_, execSed.eq_1 s, .of_pure fun _ _ => ⟨rfl, rfl, rfl, Bus.Run.refl _ _⟩⟩
  case sei =>
    exact ⟨_, execSei.eq_1 s, .of_pure fun _ _ => ⟨rfl, rfl, rfl, Bus.Run.refl _ _⟩⟩
  case sta u =>
    exact ⟨_, execSta.eq_1 u s, .of_completes fun _ _ h => State.write_run h _ _⟩
  case stx u =>
    exact ⟨_, execStx.eq_1 u s, .of_completes fun _ _ h => State.write_run h _ _⟩
  case sty u =>
    exact ⟨_, execSty.eq_1 u s, .of_completes fun _ _ h => State.write_run h _ _⟩
  case stz u =>
    exact ⟨_, execStz.eq_1 u s, .of_completes fun _ _ h => State.write_run h _ _⟩
  case tax =>
    exact ⟨_, execTax.eq_1 s, .of_pure fun _ _ => ⟨rfl, rfl, rfl, Bus.Run.refl _ _⟩⟩
  case tay =>
    exact ⟨_, execTay.eq_1 s, .of_pure fun _ _ => ⟨rfl, rfl, rfl, Bus.Run.refl _ _⟩⟩
  case trb u =>
    exact ⟨_, execTrb.eq_1 u s, .of_completes fun _ _ h => writeBack_run_p h _ _ _ _⟩
  case tsb u =>
    exact ⟨_, execTsb.eq_1 u s, .of_completes fun _ _ h => writeBack_run_p h _ _ _ _⟩
  case tsx =>
    exact ⟨_, execTsx.eq_1 s, .of_pure fun _ _ => ⟨rfl, rfl, rfl, Bus.Run.refl _ _⟩⟩
  case txa =>
    exact ⟨_, execTxa.eq_1 s, .of_pure fun _ _ => ⟨rfl, rfl, rfl, Bus.Run.refl _ _⟩⟩
  case txs =>
    exact ⟨_, execTxs.eq_1 s, .of_pure fun _ _ => ⟨rfl, rfl, rfl, Bus.Run.refl _ _⟩⟩
  case tya =>
    exact ⟨_, execTya.eq_1 s, .of_pure fun _ _ => ⟨rfl, rfl, rfl, Bus.Run.refl _ _⟩⟩

/-- Everything an instruction can do on a well-formed state. -/
theorem exec_spec {s : State} (h : s.Wf) (i : Instr) :
    (∃ t, exec i s = .next t ∧ s.Run t) ∨
      (s.cfg.decimalMode = .refuse ∧ getFlag s.p .d = true ∧ exec i s = .refused .decimalRefused) := by
  obtain ⟨k, hk, spec⟩ := exec_handler i s
  obtain ⟨r, t, hr, rd⟩ := resolve_spec h i.operand
  rw [hk, runInstr_of_resolve hr]
  rcases spec r t (rd.wf h) with ⟨u, hu, ru⟩ | ⟨h1, h2, h3⟩
  · rw [hu]
    exact Or.inl ⟨_, rfl, rd.toRun.trans (ru.trans ⟨rfl, rfl, rfl, Bus.Run.refl _ _⟩)⟩
  · rw [h3]
    exact Or.inr ⟨rd.cfg ▸ h1, rd.p ▸ h2, rfl⟩

/-- An instruction ends with B and U forced on. -/
theorem exec_forced {i : Instr} {s t : State} (h : exec i s = .next t) : ∃ p, t.p = forced p := by
  obtain ⟨k, hk, -⟩ := exec_handler i s
  rw [hk, runInstr] at h
  cases hr : (resolve i.operand s).bind k with
  | ok v u => rw [hr] at h; cases h; exact ⟨_, rfl⟩
  | fault => rw [hr] at h; cases h
  | refused => rw [hr] at h; cases h

end Sys2Proof.Machine
end

