-- ==== Sys2Proof/Laws/PerInstr.lean ====
section
/-! SUPPORT. One family of statements for all instructions, with one lemma for each constructor of `Instr`:
the encoder's table (30_encoding.md R136) and the decoder's map (R135) agree. -/

namespace Sys2Proof.Laws.OpcodeMap

/-- A well-formed instruction has an opcode byte, and the opcode map has its mnemonic and mode there. -/
def Statement (i : Instr) : Prop :=
  i.wf = true → ∃ op, i.opcode = some op ∧ opcodeEntry op = (i.mnemonic, i.operand.mode)

theorem adc (o : Operand) : Statement (.adc o) := fun h => opcodeTable_lookup (Instr.wf_modes h) rfl

theorem and (o : Operand) : Statement (.and o) := fun h => opcodeTable_lookup (Instr.wf_modes h) rfl

theorem asl (o : Operand) : Statement (.asl o) := fun h => opcodeTable_lookup (Instr.wf_modes h) rfl

theorem bcc (d : Byte) : Statement (.bcc d) := fun h => opcodeTable_lookup (Instr.wf_modes h) rfl

theorem bcs (d : Byte) : Statement (.bcs d) := fun h => opcodeTable_lookup (Instr.wf_modes h) rfl

theorem beq (d : Byte) : Statement (.beq d) := fun h => opcodeTable_lookup (Instr.wf_modes h) rfl

theorem bit (o : Operand) : Statement (.bit o) := fun h => opcodeTable_lookup (Instr.wf_modes h) rfl

theorem bmi (d : Byte) : Statement (.bmi d) := fun h => opcodeTable_lookup (Instr.wf_modes h) rfl

theorem bne (d : Byte) : Statement (.bne d) := fun h => opcodeTable_lookup (Instr.wf_modes h) rfl

theorem bpl (d : Byte) : Statement (.bpl d) := fun h => opcodeTable_lookup (Instr.wf_modes h) rfl

theorem bra (d : Byte) : Statement (.bra d) := fun h => opcodeTable_lookup (Instr.wf_modes h) rfl

theorem brk : Statement .brk := fun h => opcodeTable_lookup (Instr.wf_modes h) rfl

theorem bvc (d : Byte) : Statement (.bvc d) := fun h => opcodeTable_lookup (Instr.wf_modes h) rfl

theorem bvs (d : Byte) : Statement (.bvs d) := fun h => opcodeTable_lookup (Instr.wf_modes h) rfl

theorem clc : Statement .clc := fun h => opcodeTable_lookup (Instr.wf_modes h) rfl

theorem cld : Statement .cld := fun h => opcodeTable_lookup (Instr.wf_modes h) rfl

theorem cli : Statement .cli := fun h => opcodeTable_lookup (Instr.wf_modes h) rfl

theorem clv : Statement .clv := fun h => opcodeTable_lookup (Instr.wf_modes h) rfl

theorem cmp (o : Operand) : Statement (.cmp o) := fun h => opcodeTable_lookup (Instr.wf_modes h) rfl

theorem cpx (o : Operand) : Statement (.cpx o) := fun h => opcodeTable_lookup (Instr.wf_modes h) rfl

theorem cpy (o : Operand) : Statement (.cpy o) := fun h => opcodeTable_lookup (Instr.wf_modes h) rfl

theorem dec (o : Operand) : Statement (.dec o) := fun h => opcodeTable_lookup (Instr.wf_modes h) rfl

theorem dex : Statement .dex := fun h => opcodeTable_lookup (Instr.wf_modes h) rfl

theorem dey : Statement .dey := fun h => opcodeTable_lookup (Instr.wf_modes h) rfl

theorem eor (o : Operand) : Statement (.eor o) := fun h => opcodeTable_lookup (Instr.wf_modes h) rfl

theorem inc (o : Operand) : Statement (.inc o) := fun h => opcodeTable_lookup (Instr.wf_modes h) rfl

theorem inx : Statement .inx := fun h => opcodeTable_lookup (Instr.wf_modes h) rfl

theorem iny : Statement .iny := fun h => opcodeTable_lookup (Instr.wf_modes h) rfl

theorem jmp (o : Operand) : Statement (.jmp o) := fun h => opcodeTable_lookup (Instr.wf_modes h) rfl

theorem jsr (target : Word) : Statement (.jsr target) := fun h => opcodeTable_lookup (Instr.wf_modes h) rfl

theorem lda (o : Operand) : Statement (.lda o) := fun h => opcodeTable_lookup (Instr.wf_modes h) rfl

theorem ldx (o : Operand) : Statement (.ldx o) := fun h => opcodeTable_lookup (Instr.wf_modes h) rfl

theorem ldy (o : Operand) : Statement (.ldy o) := fun h => opcodeTable_lookup (Instr.wf_modes h) rfl

theorem lsr (o : Operand) : Statement (.lsr o) := fun h => opcodeTable_lookup (Instr.wf_modes h) rfl

theorem nop : Statement .nop := fun h => opcodeTable_lookup (Instr.wf_modes h) rfl

theorem nop1 (op : Byte) : Statement (.nop1 op) := fun h =>
  ⟨op, rfl, opcodeEntry_nop1 op (Instr.wf_reserved h)⟩

theorem nop2 (op ignored : Byte) : Statement (.nop2 op ignored) := fun h =>
  ⟨op, rfl, opcodeEntry_nop2 op (Instr.wf_reserved h)⟩

theorem nop3 (op : Byte) (ignored : Word) : Statement (.nop3 op ignored) := fun h =>
  ⟨op, rfl, opcodeEntry_nop3 op (Instr.wf_reserved h)⟩

theorem ora (o : Operand) : Statement (.ora o) := fun h => opcodeTable_lookup (Instr.wf_modes h) rfl

theorem pha : Statement .pha := fun h => opcodeTable_lookup (Instr.wf_modes h) rfl

theorem php : Statement .php := fun h => opcodeTable_lookup (Instr.wf_modes h) rfl

theorem phx : Statement .phx := fun h => opcodeTable_lookup (Instr.wf_modes h) rfl

theorem phy : Statement .phy := fun h => opcodeTable_lookup (Instr.wf_modes h) rfl

theorem pla : Statement .pla := fun h => opcodeTable_lookup (Instr.wf_modes h) rfl

theorem plp : Statement .plp := fun h => opcodeTable_lookup (Instr.wf_modes h) rfl

theorem plx : Statement .plx := fun h => opcodeTable_lookup (Instr.wf_modes h) rfl

theorem ply : Statement .ply := fun h => opcodeTable_lookup (Instr.wf_modes h) rfl

theorem rol (o : Operand) : Statement (.rol o) := fun h => opcodeTable_lookup (Instr.wf_modes h) rfl

theorem ror (o : Operand) : Statement (.ror o) := fun h => opcodeTable_lookup (Instr.wf_modes h) rfl

theorem rti : Statement .rti := fun h => opcodeTable_lookup (Instr.wf_modes h) rfl

theorem rts : Statement .rts := fun h => opcodeTable_lookup (Instr.wf_modes h) rfl

theorem sbc (o : Operand) : Statement (.sbc o) := fun h => opcodeTable_lookup (Instr.wf_modes h) rfl

theorem sec : Statement .sec := fun h => opcodeTable_lookup (Instr.wf_modes h) rfl

theorem sed : Statement .sed := fun h => opcodeTable_lookup (Instr.wf_modes h) rfl

theorem sei : Statement .sei := fun h => opcodeTable_lookup (Instr.wf_modes h) rfl

theorem sta (o : Operand) : Statement (.sta o) := fun h => opcodeTable_lookup (Instr.wf_modes h) rfl

theorem stx (o : Operand) : Statement (.stx o) := fun h => opcodeTable_lookup (Instr.wf_modes h) rfl

theorem sty (o : Operand) : Statement (.sty o) := fun h => opcodeTable_lookup (Instr.wf_modes h) rfl

theorem stz (o : Operand) : Statement (.stz o) := fun h => opcodeTable_lookup (Instr.wf_modes h) rfl

theorem tax : Statement .tax := fun h => opcodeTable_lookup (Instr.wf_modes h) rfl

theorem tay : Statement .tay := fun h => opcodeTable_lookup (Instr.wf_modes h) rfl

theorem trb (o : Operand) : Statement (.trb o) := fun h => opcodeTable_lookup (Instr.wf_modes h) rfl

theorem tsb (o : Operand) : Statement (.tsb o) := fun h => opcodeTable_lookup (Instr.wf_modes h) rfl

theorem tsx : Statement .tsx := fun h => opcodeTable_lookup (Instr.wf_modes h) rfl

theorem txa : Statement .txa := fun h => opcodeTable_lookup (Instr.wf_modes h) rfl

theorem txs : Statement .txs := fun h => opcodeTable_lookup (Instr.wf_modes h) rfl

theorem tya : Statement .tya := fun h => opcodeTable_lookup (Instr.wf_modes h) rfl

/-- The family for every instruction. -/
theorem all (i : Instr) : Statement i := by
  cases i
  case adc u => exact adc u
  case and u => exact and u
  case asl u => exact asl u
  case bcc u => exact bcc u
  case bcs u => exact bcs u
  case beq u => exact beq u
  case bit u => exact bit u
  case bmi u => exact bmi u
  case bne u => exact bne u
  case bpl u => exact bpl u
  case bra u => exact bra u
  case brk => exact brk
  case bvc u => exact bvc u
  case bvs u => exact bvs u
  case clc => exact clc
  case cld => exact cld
  case cli => exact cli
  case clv => exact clv
  case cmp u => exact cmp u
  case cpx u => exact cpx u
  case cpy u => exact cpy u
  case dec u => exact dec u
  case dex => exact dex
  case dey => exact dey
  case eor u => exact eor u
  case inc u => exact inc u
  case inx => exact inx
  case iny => exact iny
  case jmp u => exact jmp u
  case jsr u => exact jsr u
  case lda u => exact lda u
  case ldx u => exact ldx u
  case ldy u => exact ldy u
  case lsr u => exact lsr u
  case nop => exact nop
  case nop1 u => exact nop1 u
  case nop2 u v => exact nop2 u v
  case nop3 u v => exact nop3 u v
  case ora u => exact ora u
  case pha => exact pha
  case php => exact php
  case phx => exact phx
  case phy => exact phy
  case pla => exact pla
  case plp => exact plp
  case plx => exact plx
  case ply => exact ply
  case rol u => exact rol u
  case ror u => exact ror u
  case rti => exact rti
  case rts => exact rts
  case sbc u => exact sbc u
  case sec => exact sec
  case sed => exact sed
  case sei => exact sei
  case sta u => exact sta u
  case stx u => exact stx u
  case sty u => exact sty u
  case stz u => exact stz u
  case tax => exact tax
  case tay => exact tay
  case trb u => exact trb u
  case tsb u => exact tsb u
  case tsx => exact tsx
  case txa => exact txa
  case txs => exact txs
  case tya => exact tya

end Sys2Proof.Laws.OpcodeMap
end

