-- ==== Sys2Proof/Laws/Terms.lean ====
section
/-! SUPPORT. The terms of `Safety.lean` in which statements about one instruction are written: what gives a
`ResolvesTo`, a `Bus.Stores`, a `Bus.MemoryIs` and a `StatusIs`. -/

namespace Sys2Proof.Machine

/-! ## Resolvers -/

/-- On a well-formed state a resolver completes, and leaves every register and every byte. -/
theorem resolvesTo {s : State} (h : s.Wf) (o : Operand) : ∃ r t, ResolvesTo o s r t ∧ s.Reads t := by
  obtain ⟨r, t, hr, rd⟩ := resolve_spec h o
  exact ⟨r, t, ⟨hr, rd.only, fun g off => by rw [rd.mem]⟩, rd⟩

theorem State.Reads.fullSize {s t : State} (h : s.Reads t) (hs : s.Wf) : Machine.fullSize t.cfg = true :=
  h.cfg ▸ hs.size

/-! ## Stores -/

theorem Bus.setMem_fields (b : Bus) (m : Memory) (g : Segment) :
    (b.setMem m g).ms = b.ms ∧ (b.setMem m g).drive1 = b.drive1 ∧ (b.setMem m g).drive2 = b.drive2 ∧
      (b.setMem m g).selected = b.selected ∧ (b.setMem m g).draws = b.draws := by simp

/-- A bus write on a well-formed bus is a store. -/
theorem Bus.stores {c : Cfg} {b : Bus} (hc : fullSize c = true) (h : b.Wf c) (a : Word) (v : Byte) :
    ∃ b', Bus.Stores c a v b b' := by
  obtain ⟨b', hw⟩ := Bus.write_ok hc h a v
  have hs := Bus.write_step hc hw
  refine ⟨b', hw, hs.stored h, hs.kept h, fun hn => ?_⟩
  unfold Bus.write at hw
  split at hw
  · unfold Bus.setCell at hw
    split at hw
    · cases hw; exact Bus.setMem_fields b _ _
    · cases hw
  · cases hw; exact ⟨rfl, rfl, rfl, rfl, rfl⟩
  · rename_i w hw'; exact absurd hw' (hn w)

/-- The same through the machine. -/
theorem State.write_stores {s : State} (h : s.Wf) (a : Word) (v : Byte) :
    ∃ b', Bus.Stores s.cfg a v s.bus b' ∧ s.write a v = .ok () { s with bus := b' } := by
  obtain ⟨b', hs⟩ := Bus.stores h.size h.bus a v
  exact ⟨b', hs, by rw [State.write, hs.write]; rfl⟩

/-! ## The stack -/

/-- What a push leaves, in the terms of statements. -/
theorem Bus.pushed_memoryIs {c : Cfg} {b : Bus} (h : b.Wf c) (sp v : Byte) :
    Bus.MemoryIs b (b.pushed sp v) fun g off => if b.stackSlot sp g off then v else (b.mem g).read off := by
  refine ⟨fun g off => ?_, by simp, by simp, by simp, by simp, by simp⟩
  rw [Bus.pushed_read h]
  simp [Bus.stackSlot]

/-- `Push(v)` is the bus write of `v` at the slot S designates. -/
theorem State.push_write {s : State} (h : fullSize s.cfg = true) (v : Byte) :
    s.bus.write s.cfg (stackAddr s.sp) v = .ok () (s.bus.pushed s.sp v) := by
  have ht := Bus.writeTarget_low s.cfg s.bus (stackAddr_lt s.sp)
  have hin := Bus.writeTarget_inside h ht
  rw [Bus.write, ht]
  simp only []
  rw [Bus.setCell, if_pos hin, toNat_stackAddr]
  rfl

theorem State.push_stores {s : State} (h : s.Wf) (v : Byte) :
    Bus.Stores s.cfg (stackAddr s.sp) v s.bus (s.bus.pushed s.sp v) := by
  obtain ⟨b', hs⟩ := Bus.stores h.size h.bus (stackAddr s.sp) v
  have e := hs.write
  rw [State.push_write h.size v] at e
  cases e
  exact hs

/-- A slot after a push: the byte pushed there, or what it held. -/
theorem Bus.pushed_stackByte {c : Cfg} {b : Bus} (h : b.Wf c) (sp v sp' : Byte) :
    (b.pushed sp v).stackByte sp' = if sp' = sp then v else b.stackByte sp' := by
  unfold Bus.stackByte
  rw [Bus.pushed_ms, Bus.pushed_read h]
  by_cases e : sp' = sp
  · subst e; simp
  · have : sp'.toNat ≠ sp.toNat := fun hn => e (BitVec.eq_of_toNat_eq hn)
    simp [e, this]

/-- `Pop()` takes the byte in the slot above S. -/
theorem State.pop_stackByte {s : State} (h : fullSize s.cfg = true) :
    s.pop = .ok (s.bus.stackByte (s.sp + 1)) { s with sp := s.sp + 1 } := State.pop_eq h

theorem hi_eq (w : Word) : hi w = BitVec.ofNat 8 (w.toNat / 256) := by
  apply BitVec.eq_of_toNat_eq
  simp [hi, BitVec.extractLsb', Nat.shiftRight_eq_div_pow]

theorem lo_eq (w : Word) : lo w = BitVec.ofNat 8 (w.toNat % 256) := by
  apply BitVec.eq_of_toNat_eq
  simp [lo, BitVec.extractLsb']

/-! ## The status register -/

/-- The status after the forcing at the end of a step. -/
theorem StatusIs.of_forced {p old : Byte} {w : Flag → Option Bool}
    (h : ∀ f, f ≠ .b → f ≠ .u → getFlag p f = (w f).getD (getFlag old f)) : StatusIs (forced p) old w := by
  intro f
  rw [getFlag_forced]
  by_cases hb : f = .b
  · simp [hb]
  · by_cases hu : f = .u
    · simp [hu]
    · simp [hb, hu, h f hb hu]

theorem StatusIs.none (p : Byte) : StatusIs (forced p) p noFlags := .of_forced fun _ _ _ => rfl

theorem StatusIs.nz (p v : Byte) : StatusIs (forced (setNZ p v)) p (nzOf v) :=
  .of_forced fun f _ _ => by cases f <;> simp [nzOf, BitVec.msb_eq_getLsbD_last]

theorem StatusIs.one (p : Byte) (g : Flag) (on : Bool) : StatusIs (forced (setFlag p g on)) p (oneFlag g on) :=
  .of_forced fun f _ _ => by by_cases h : f = g <;> simp [oneFlag, h]

theorem StatusIs.sum (p : Byte) (r : Sum) :
    StatusIs (forced (sumFlags p r)) p (nvzcOf r.value r.overflow r.carry) :=
  .of_forced fun f _ _ => by
    rw [getFlag_sumFlags]; cases f <;> simp [nvzcOf, BitVec.msb_eq_getLsbD_last]

theorem StatusIs.shift (p : Byte) (out : Bool) (v : Byte) :
    StatusIs (forced (shiftFlags p out v)) p (nzcOf v out) :=
  .of_forced fun f _ _ => by
    rw [getFlag_shiftFlags]; cases f <;> simp [nzcOf, BitVec.msb_eq_getLsbD_last]

end Sys2Proof.Machine
end

