-- ==== Sys2Proof/Tests/Slice0.lean ====
section
/-! SUPPORT. The model's own tests. Expected results come from the spec: words from 30_encoding.md R136 and the
instruction rules, vectors from 95_test_vectors.md by their names. Then, for every statement that has hypotheses,
a state and operands that meet them. -/

namespace Sys2Proof.Tests

open Sys2Proof Sys2Proof.Machine

/- One theorem at a time: the kernel evaluates most of these, and many at once wait in a thread each. -/
set_option Elab.async false

/-! ## Well-formedness: what each check refuses -/

/-- The mode check, for every mnemonic with an operand, in a mode the opcode map does not give it. -/
theorem test_wf_modes :
    ([.adc .acc, .and .imp, .asl (.imm 0), .bit .acc, .cmp (.ind 0), .cpx (.zpx 0), .cpy (.abx 0), .dec (.imm 0),
      .eor (.rel 0), .inc (.aby 0), .jmp (.abx 0), .lda (.zpy 0), .ldx (.zpx 0), .ldy (.zpy 0), .lsr (.zpi 0),
      .ora (.by2 0), .rol (.idx 0), .ror (.idy 0), .sbc (.by3 0), .sta (.imm 0), .stx (.zpx 0), .sty (.abx 0),
      .stz (.zpi 0), .trb (.zpx 0), .tsb (.abx 0)] : List Instr).all (fun i => !i.wf) = true := by
  decide +kernel

/-- The check of the reserved byte: an assigned opcode, and a byte reserved for another length. -/
theorem test_wf_reserved_bytes :
    ([.nop1 0xEA, .nop1 0x44, .nop2 0xA9 0, .nop2 0x5C 0, .nop3 0x4C 0, .nop3 0x03 0] : List Instr).all
      (fun i => !i.wf) = true := by
  decide +kernel

/-! ## Decoding: one word for every constructor, by family -/

/-- Whether a list of words decodes as written, with nothing left over. -/
def decodesAs (rows : List (List Byte × Instr)) : Bool := rows.all fun e => decode e.1 == .ok (e.2, [])

theorem test_decode_load_store_transfer : decodesAs
    [([0xA1, 0x20], .lda (.idx 0x20)), ([0xBE, 0x34, 0x12], .ldx (.aby 0x1234)), ([0xB4, 0x7F], .ldy (.zpx 0x7F)),
     ([0x99, 0xFF, 0x00], .sta (.aby 0x00FF)), ([0x96, 0x10], .stx (.zpy 0x10)), ([0x8C, 0x10, 0xC0], .sty (.abs 0xC010)),
     ([0x9E, 0x00, 0x20], .stz (.abx 0x2000)), ([0xAA], .tax), ([0xA8], .tay), ([0x8A], .txa), ([0x98], .tya),
     ([0xBA], .tsx), ([0x9A], .txs)] = true := by
  decide +kernel

theorem test_decode_arithmetic : decodesAs
    [([0x71, 0x20], .adc (.idy 0x20)), ([0xFD, 0x34, 0x12], .sbc (.abx 0x1234)), ([0xD2, 0x20], .cmp (.zpi 0x20)),
     ([0xE0, 0x06], .cpx (.imm 0x06)), ([0xC4, 0x06], .cpy (.zpg 0x06)), ([0x1A], .inc .acc), ([0xD6, 0x10], .dec (.zpx 0x10)),
     ([0xE8], .inx), ([0xC8], .iny), ([0xCA], .dex), ([0x88], .dey)] = true := by
  decide +kernel

theorem test_decode_logic_shift : decodesAs
    [([0x21, 0x20], .and (.idx 0x20)), ([0x11, 0x20], .ora (.idy 0x20)), ([0x52, 0x20], .eor (.zpi 0x20)),
     ([0x89, 0xF0], .bit (.imm 0xF0)), ([0x0C, 0x00, 0x20], .tsb (.abs 0x2000)), ([0x14, 0x10], .trb (.zpg 0x10)),
     ([0x1E, 0x00, 0x20], .asl (.abx 0x2000)), ([0x4A], .lsr .acc), ([0x36, 0x10], .rol (.zpx 0x10)),
     ([0x6E, 0x00, 0x20], .ror (.abs 0x2000))] = true := by
  decide +kernel

theorem test_decode_stack_flags : decodesAs
    [([0x48], .pha), ([0x08], .php), ([0xDA], .phx), ([0x5A], .phy), ([0x68], .pla), ([0x28], .plp), ([0xFA], .plx),
     ([0x7A], .ply), ([0x18], .clc), ([0x38], .sec), ([0x58], .cli), ([0x78], .sei), ([0xD8], .cld), ([0xF8], .sed),
     ([0xB8], .clv)] = true := by
  decide +kernel

theorem test_decode_control_flow : decodesAs
    [([0x90, 0x02], .bcc 0x02), ([0xB0, 0x10], .bcs 0x10), ([0xF0, 0xFF], .beq 0xFF), ([0xD0, 0xFD], .bne 0xFD),
     ([0x30, 0x7F], .bmi 0x7F), ([0x10, 0xFB], .bpl 0xFB), ([0x50, 0x05], .bvc 0x05), ([0x70, 0x80], .bvs 0x80),
     ([0x80, 0xFE], .bra 0xFE), ([0x6C, 0xFC, 0xFF], .jmp (.ind 0xFFFC)), ([0x20, 0x00, 0x04], .jsr 0x0400), ([0x60], .rts),
     ([0x00], .brk), ([0x40], .rti), ([0xEA], .nop), ([0xDB], .nop1 0xDB), ([0x44, 0x10], .nop2 0x44 0x10),
     ([0xDC, 0x30, 0xC0], .nop3 0xDC 0xC030)] = true := by
  decide +kernel

/-- A word too short for its opcode is the one decoding error. -/
theorem test_decode_truncated :
    decode [] = .error .noOpcode ∧ decode [0xAD, 0x34] = .error (.truncated 0xAD 3 2) := by
  decide +kernel

/-- The bits the host does not give are operand bytes of 0. -/
theorem test_decode_table_word : decodeTableWord 8 0xAD = some (.lda (.abs 0)) ∧ decodeTableWord 16 0x10A5 = some (.lda (.zpg 0x10)) := by
  decide +kernel

/-! ## One step of each instruction -/

/-- The start of 95_test_vectors.md: A = X = Y = 00, S = FF, P = 30, switches as after Reset. -/
def at0 (pc : Word) (main rom : Memory) : State :=
  { State.reset with p := 0x30, pc := pc, bus := { State.reset.bus with main := main, rom := rom } }

/-- The step completed, and its end state passes a check. -/
def ends (o : Host.Outcome State Fault Refusal) (check : State → Bool) : Bool :=
  match o with
  | .next t => check t
  | _ => false

theorem ends_next {o : Host.Outcome State Fault Refusal} {check : State → Bool} (h : ends o check = true) :
    ∃ t, o = .next t := by
  cases o with
  | next t => exact ⟨t, rfl⟩
  | fault => cases h
  | refused => cases h

/-- The step stopped with that fault or that refusal. -/
def stops (o : Host.Outcome State Fault Refusal) (f : Option Fault) (r : Option Refusal) : Bool :=
  match o with
  | .next _ => false
  | .fault g => some g == f
  | .refused q => some q == r

theorem stops_fault {o : Host.Outcome State Fault Refusal} {f : Fault} (h : stops o (some f) none = true) :
    o = .fault f := by
  cases o with
  | next => cases h
  | fault g => simp only [stops, beq_iff_eq, Option.some.injEq] at h; rw [h]
  | refused => cases h

/-- 95_test_vectors.md AR1. -/
theorem test_adc_ar1 : ends (step { at0 0x300 [(0x300, 0x69), (0x301, 0x50)] [] with a := 0x50 })
      (fun t => t.a == 0xA0 && t.p == 0xF0 && t.pc == 0x0302) = true := by decide +kernel

/-- 95_test_vectors.md AR22. -/
theorem test_adc_ar22 :
    ends (step { at0 0x300 [(0x21, 0x30), (0x300, 0x72), (0x301, 0x20), (0x3000, 0x02)] [] with a := 0x01 })
      (fun t => t.a == 0x03 && t.p == 0x30 && t.pc == 0x0302) = true := by decide +kernel

/-- 95_test_vectors.md LG7. -/
theorem test_and_lg7 :
    ends (step { at0 0x300 [(0x21, 0x30), (0x300, 0x32), (0x301, 0x20), (0x3000, 0x3C)] [] with a := 0xFF })
      (fun t => t.a == 0x3C && t.p == 0x30 && t.pc == 0x0302) = true := by decide +kernel

/-- 95_test_vectors.md LG2. -/
theorem test_and_lg2 : ends (step { at0 0x300 [(0x300, 0x29), (0x301, 0x80)] [] with a := 0xFF })
      (fun t => t.a == 0x80 && t.p == 0xB0 && t.pc == 0x0302) = true := by decide +kernel

/-- 95_test_vectors.md LG20. -/
theorem test_asl_lg20 : ends (step { at0 0x300 [(0x300, 0x0A)] [] with a := 0x80, p := 0xB0 })
      (fun t => t.a == 0x00 && t.p == 0x33 && t.pc == 0x0301) = true := by decide +kernel

/-- 95_test_vectors.md LG22. -/
theorem test_asl_lg22 : ends (step (at0 0x300 [(0x10, 0xFF), (0x300, 0x06), (0x301, 0x10)] []))
      (fun t => t.p == 0xB1 && t.pc == 0x0302 && t.bus.main.read 0x0010 == 0xFE) = true := by decide +kernel

/-- 95_test_vectors.md CF1. -/
theorem test_bcc_cf1 : ends (step (at0 0xFF [(0xFF, 0x90), (0x100, 0x02)] []))
      (fun t => t.p == 0x30 && t.pc == 0x0103) = true := by decide +kernel

/-- 95_test_vectors.md CF3. -/
theorem test_bcc_cf3 : ends (step { at0 0x300 [(0x300, 0x90), (0x301, 0x02)] [] with p := 0x31 })
      (fun t => t.p == 0x31 && t.pc == 0x0302) = true := by decide +kernel

/-- 95_test_vectors.md CF4. -/
theorem test_bcs_cf4 : ends (step (at0 0x300 [(0x300, 0xB0), (0x301, 0x10)] []))
      (fun t => t.p == 0x30 && t.pc == 0x0302) = true := by decide +kernel

/-- 95_test_vectors.md CF5. -/
theorem test_bcs_cf5 : ends (step { at0 0x300 [(0x300, 0xB0), (0x301, 0x10)] [] with p := 0x31 })
      (fun t => t.p == 0x31 && t.pc == 0x0312) = true := by decide +kernel

/-- 95_test_vectors.md CF2. -/
theorem test_beq_cf2 : ends (step { at0 0x36 [(0x36, 0xF0), (0x37, 0xFF)] [] with p := 0x32 })
      (fun t => t.p == 0x32 && t.pc == 0x0037) = true := by decide +kernel

/-- 95_test_vectors.md CF7. -/
theorem test_beq_cf7 : ends (step (at0 0x300 [(0x300, 0xF0), (0x301, 0x05)] []))
      (fun t => t.p == 0x30 && t.pc == 0x0302) = true := by decide +kernel

/-- 95_test_vectors.md LG12. -/
theorem test_bit_lg12 : ends (step { at0 0x300 [(0x300, 0x3C), (0x302, 0x20), (0x2001, 0xFF)] [] with x := 0x01 })
      (fun t => t.p == 0xF2 && t.pc == 0x0303) = true := by decide +kernel

/-- 95_test_vectors.md LG13. -/
theorem test_bit_lg13 : ends (step { at0 0x300 [(0x300, 0x89), (0x301, 0xF0)] [] with a := 0x0F, p := 0xF0 })
      (fun t => t.p == 0xF2 && t.pc == 0x0302) = true := by decide +kernel

/-- 95_test_vectors.md CF8. -/
theorem test_bmi_cf8 : ends (step { at0 0x300 [(0x300, 0x30), (0x301, 0x7F)] [] with p := 0xB0 })
      (fun t => t.p == 0xB0 && t.pc == 0x0381) = true := by decide +kernel

/-- 95_test_vectors.md CF6. -/
theorem test_bne_cf6 : ends (step (at0 0x302 [(0x302, 0xD0), (0x303, 0xFD)] []))
      (fun t => t.p == 0x30 && t.pc == 0x0301) = true := by decide +kernel

/-- 95_test_vectors.md CF9. -/
theorem test_bpl_cf9 : ends (step (at0 0x305 [(0x305, 0x10), (0x306, 0xFB)] []))
      (fun t => t.p == 0x30 && t.pc == 0x0302) = true := by decide +kernel

/-- 95_test_vectors.md CF14. -/
theorem test_bra_cf14 : ends (step (at0 0x10 [(0x10, 0x80), (0x11, 0x80)] []))
      (fun t => t.p == 0x30 && t.pc == 0xFF92) = true := by decide +kernel

/-- 95_test_vectors.md CF33. -/
theorem test_bra_cf33 : ends (step (at0 0xFFFE [] [(0x3FFE, 0x80)]))
      (fun t => t.p == 0x30 && t.pc == 0x0000) = true := by decide +kernel

/-- 95_test_vectors.md CF35. -/
theorem test_brk_cf35 : ends (step { at0 0x300 [] [(0x3FFE, 0x40), (0x3FFF, 0xFA)] with p := 0x31 })
      (fun t => t.sp == 0xFC && t.p == 0x35 && t.pc == 0xFA40 && t.bus.main.read 0x01FF == 0x03 && t.bus.main.read 0x01FE == 0x02 && t.bus.main.read 0x01FD == 0x31) = true := by decide +kernel

/-- 95_test_vectors.md CF36. -/
theorem test_brk_cf36 : ends (step { at0 0x300 [] [(0x3FFF, 0xC6)] with sp := 0x01, p := 0xFB })
      (fun t => t.sp == 0xFE && t.p == 0xF7 && t.pc == 0xC600 && t.bus.main.read 0x0101 == 0x03 && t.bus.main.read 0x0100 == 0x02 && t.bus.main.read 0x01FF == 0xFB) = true := by decide +kernel

/-- 95_test_vectors.md CF10. -/
theorem test_bvc_cf10 : ends (step { at0 0x300 [(0x300, 0x50), (0x301, 0x05)] [] with p := 0x70 })
      (fun t => t.p == 0x70 && t.pc == 0x0302) = true := by decide +kernel

/-- 95_test_vectors.md CF11. -/
theorem test_bvs_cf11 : ends (step { at0 0x300 [(0x300, 0x70), (0x301, 0x80)] [] with p := 0x70 })
      (fun t => t.p == 0x70 && t.pc == 0x0282) = true := by decide +kernel

/-- 95_test_vectors.md ST21. -/
theorem test_clc_st21 : ends (step { at0 0x300 [(0x300, 0x18)] [] with p := 0x01 })
      (fun t => t.p == 0x30 && t.pc == 0x0301) = true := by decide +kernel

/-- 95_test_vectors.md ST18. -/
theorem test_cld_st18 : ends (step { at0 0x300 [(0x300, 0xD8)] [] with p := 0x38 })
      (fun t => t.p == 0x30 && t.pc == 0x0301) = true := by decide +kernel

/-- 95_test_vectors.md ST16. -/
theorem test_cli_st16 : ends (step { at0 0x300 [(0x300, 0x58)] [] with p := 0x34 })
      (fun t => t.p == 0x30 && t.pc == 0x0301) = true := by decide +kernel

/-- 95_test_vectors.md ST20. -/
theorem test_clv_st20 : ends (step { at0 0x300 [(0x300, 0xB8)] [] with p := 0xF0 })
      (fun t => t.p == 0xB0 && t.pc == 0x0301) = true := by decide +kernel

/-- 95_test_vectors.md AR26. -/
theorem test_cmp_ar26 : ends (step (at0 0x300 [(0x300, 0xC9), (0x301, 0x80)] []))
      (fun t => t.p == 0xB0 && t.pc == 0x0302) = true := by decide +kernel

/-- 95_test_vectors.md AR27. -/
theorem test_cmp_ar27 : ends (step { at0 0x300 [(0x300, 0xC9), (0x301, 0xFF)] [] with a := 0xFF, p := 0xF0 })
      (fun t => t.p == 0x73 && t.pc == 0x0302) = true := by decide +kernel

/-- 95_test_vectors.md AR29. -/
theorem test_cpx_ar29 : ends (step { at0 0x300 [(0x300, 0xE0), (0x301, 0x06)] [] with x := 0x05 })
      (fun t => t.p == 0xB0 && t.pc == 0x0302) = true := by decide +kernel

/-- 95_test_vectors.md AR31. -/
theorem test_cpy_ar31 : ends (step (at0 0x300 [(0x300, 0xCC), (0x302, 0x20)] []))
      (fun t => t.p == 0x33 && t.pc == 0x0303) = true := by decide +kernel

/-- 95_test_vectors.md AR37. -/
theorem test_dec_ar37 : ends (step { at0 0x300 [(0x300, 0xDE), (0x302, 0x20), (0x20FF, 0x80)] [] with x := 0xFF })
      (fun t => t.p == 0x30 && t.pc == 0x0303 && t.bus.main.read 0x20FF == 0x7F) = true := by decide +kernel

/-- 95_test_vectors.md AR39. -/
theorem test_dec_ar39 : ends (step (at0 0x300 [(0x300, 0x3A)] []))
      (fun t => t.a == 0xFF && t.p == 0xB0 && t.pc == 0x0301) = true := by decide +kernel

/-- 95_test_vectors.md AR42. -/
theorem test_dex_ar42 : ends (step (at0 0x300 [(0x300, 0xCA)] []))
      (fun t => t.x == 0xFF && t.p == 0xB0 && t.pc == 0x0301) = true := by decide +kernel

/-- 95_test_vectors.md AR43. -/
theorem test_dey_ar43 : ends (step { at0 0x300 [(0x300, 0x88)] [] with y := 0x01 })
      (fun t => t.y == 0x00 && t.p == 0x32 && t.pc == 0x0301) = true := by decide +kernel

/-- 95_test_vectors.md LG6. -/
theorem test_eor_lg6 : ends (step { at0 0x300 [(0x300, 0x49), (0x301, 0x80)] [] with a := 0x01 })
      (fun t => t.a == 0x81 && t.p == 0xB0 && t.pc == 0x0302) = true := by decide +kernel

/-- 95_test_vectors.md AR34. -/
theorem test_inc_ar34 : ends (step { at0 0x300 [(0x11, 0x7F), (0x300, 0xF6), (0x301, 0x10)] [] with x := 0x01 })
      (fun t => t.p == 0xB0 && t.pc == 0x0302 && t.bus.main.read 0x0011 == 0x80) = true := by decide +kernel

/-- 95_test_vectors.md AR38. -/
theorem test_inc_ar38 : ends (step { at0 0x300 [(0x300, 0x1A)] [] with a := 0xFF })
      (fun t => t.a == 0x00 && t.p == 0x32 && t.pc == 0x0301) = true := by decide +kernel

/-- 95_test_vectors.md AR40. -/
theorem test_inx_ar40 : ends (step { at0 0x300 [(0x300, 0xE8)] [] with x := 0xFF })
      (fun t => t.x == 0x00 && t.p == 0x32 && t.pc == 0x0301) = true := by decide +kernel

/-- 95_test_vectors.md AR41. -/
theorem test_iny_ar41 : ends (step { at0 0x300 [(0x300, 0xC8)] [] with y := 0x7F })
      (fun t => t.y == 0x80 && t.p == 0xB0 && t.pc == 0x0301) = true := by decide +kernel

/-- 95_test_vectors.md AM15. -/
theorem test_jmp_am15 :
    ends (step (at0 0x300 [(0x300, 0x6C), (0x301, 0xFF), (0x302, 0x30), (0x3000, 0x99), (0x30FF, 0x78), (0x3100, 0x56)] []))
      (fun t => t.p == 0x30 && t.pc == 0x5678) = true := by decide +kernel

/-- 95_test_vectors.md AM16. -/
theorem test_jmp_am16 : ends (step { at0 0x300 [(0x300, 0x7C), (0x302, 0x30), (0x3003, 0x04)] [] with x := 0x02 })
      (fun t => t.p == 0x30 && t.pc == 0x0400) = true := by decide +kernel

/-- 95_test_vectors.md CF19. -/
theorem test_jsr_cf19 : ends (step { at0 0x300 [(0x300, 0x20), (0x302, 0x04)] [] with sp := 0x00 })
      (fun t => t.sp == 0xFE && t.p == 0x30 && t.pc == 0x0400 && t.bus.main.read 0x0100 == 0x03 && t.bus.main.read 0x01FF == 0x02) = true := by decide +kernel

/-- 95_test_vectors.md CF20. -/
theorem test_jsr_cf20 : ends (step (at0 0x2FE [(0x2FE, 0x20), (0x300, 0x04)] []))
      (fun t => t.sp == 0xFD && t.p == 0x30 && t.pc == 0x0400 && t.bus.main.read 0x01FF == 0x03 && t.bus.main.read 0x01FE == 0x00) = true := by decide +kernel

/-- 95_test_vectors.md AM10. -/
theorem test_lda_am10 :
    ends (step { at0 0x300 [(0x00, 0x12), (0xFF, 0x34), (0x100, 0x99), (0x300, 0xA1), (0x301, 0xFE), (0x1234, 0x77)] [] with x := 0x01 })
      (fun t => t.a == 0x77 && t.p == 0x30 && t.pc == 0x0302) = true := by decide +kernel

/-- 95_test_vectors.md AM13. -/
theorem test_lda_am13 :
    ends (step { at0 0x300 [(0x00, 0x21), (0x20, 0xFF), (0x21, 0xFF), (0x300, 0xB1), (0x301, 0x20)] [] with y := 0x01 })
      (fun t => t.a == 0x21 && t.p == 0x30 && t.pc == 0x0302) = true := by decide +kernel

/-- 95_test_vectors.md AM4. -/
theorem test_ldx_am4 :
    ends (step { at0 0x300 [(0x00, 0x33), (0x100, 0x99), (0x300, 0xB6), (0x301, 0xFF)] [] with y := 0x01 })
      (fun t => t.x == 0x33 && t.p == 0x30 && t.pc == 0x0302) = true := by decide +kernel

/-- 95_test_vectors.md LS6. -/
theorem test_ldx_ls6 : ends (step { at0 0x300 [(0x300, 0xBE), (0x302, 0x20), (0x2005, 0x90)] [] with y := 0x05 })
      (fun t => t.x == 0x90 && t.p == 0xB0 && t.pc == 0x0303) = true := by decide +kernel

/-- 95_test_vectors.md LS7. -/
theorem test_ldy_ls7 : ends (step { at0 0x300 [(0x300, 0xBC), (0x302, 0x20), (0x2005, 0x7F)] [] with x := 0x05 })
      (fun t => t.y == 0x7F && t.p == 0x30 && t.pc == 0x0303) = true := by decide +kernel

/-- 95_test_vectors.md LS4. -/
theorem test_ldy_ls4 : ends (step { at0 0x300 [(0x300, 0xA0), (0x301, 0x01)] [] with p := 0xB2 })
      (fun t => t.y == 0x01 && t.p == 0x30 && t.pc == 0x0302) = true := by decide +kernel

/-- 95_test_vectors.md LG24. -/
theorem test_lsr_lg24 : ends (step { at0 0x300 [(0x300, 0x4A)] [] with a := 0x01 })
      (fun t => t.a == 0x00 && t.p == 0x33 && t.pc == 0x0301) = true := by decide +kernel

/-- 95_test_vectors.md LG25. -/
theorem test_lsr_lg25 : ends (step { at0 0x300 [(0x300, 0x5E), (0x302, 0x20), (0x2001, 0xFF)] [] with x := 0x01 })
      (fun t => t.p == 0x31 && t.pc == 0x0303 && t.bus.main.read 0x2001 == 0x7F) = true := by decide +kernel

/-- 95_test_vectors.md ST22. -/
theorem test_nop_st22 : ends (step { at0 0x300 [(0x300, 0xEA)] [] with p := 0x00 })
      (fun t => t.p == 0x30 && t.pc == 0x0301) = true := by decide +kernel

/-- 95_test_vectors.md CF28. -/
theorem test_nop1_cf28 :
    ends (step { at0 0x300 [(0x300, 0xFF)] [] with a := 0x12, x := 0x34, y := 0x56, p := 0xF3 })
      (fun t => t.p == 0xF3 && t.pc == 0x0301) = true := by decide +kernel

/-- 95_test_vectors.md CF29. -/
theorem test_nop2_cf29 : ends (step (at0 0x300 [(0x10, 0x99), (0x300, 0x44), (0x301, 0x10)] []))
      (fun t => t.p == 0x30 && t.pc == 0x0302) = true := by decide +kernel

/-- 95_test_vectors.md CF31. -/
theorem test_nop3_cf31 : ends (step (at0 0x300 [(0x300, 0xDC), (0x301, 0x30), (0x302, 0xC0)] []))
      (fun t => t.p == 0x30 && t.pc == 0x0303) = true := by decide +kernel

/-- 95_test_vectors.md LG3. -/
theorem test_ora_lg3 : ends (step { at0 0x300 [(0x300, 0x09), (0x301, 0xF0)] [] with a := 0x0F })
      (fun t => t.a == 0xFF && t.p == 0xB0 && t.pc == 0x0302) = true := by decide +kernel

/-- 95_test_vectors.md ST2. -/
theorem test_pha_st2 : ends (step { at0 0x300 [(0x300, 0x48)] [] with a := 0x42, sp := 0x00 })
      (fun t => t.sp == 0xFF && t.p == 0x30 && t.pc == 0x0301 && t.bus.main.read 0x0100 == 0x42) = true := by decide +kernel

/-- 95_test_vectors.md ST4. -/
theorem test_php_st4 : ends (step { at0 0x300 [(0x300, 0x08)] [] with sp := 0x80, p := 0xC3 })
      (fun t => t.sp == 0x7F && t.p == 0xF3 && t.pc == 0x0301 && t.bus.main.read 0x0180 == 0xF3) = true := by decide +kernel

/-- 95_test_vectors.md ST5. -/
theorem test_phx_st5 : ends (step { at0 0x300 [(0x300, 0xDA)] [] with x := 0x01, sp := 0x00 })
      (fun t => t.sp == 0xFF && t.p == 0x30 && t.pc == 0x0301 && t.bus.main.read 0x0100 == 0x01) = true := by decide +kernel

/-- 95_test_vectors.md ST6. -/
theorem test_phy_st6 : ends (step { at0 0x300 [(0x300, 0x5A)] [] with y := 0xFF, sp := 0x80 })
      (fun t => t.sp == 0x7F && t.p == 0x30 && t.pc == 0x0301 && t.bus.main.read 0x0180 == 0xFF) = true := by decide +kernel

/-- 95_test_vectors.md ST8. -/
theorem test_pla_st8 : ends (step (at0 0x300 [(0x100, 0x80), (0x300, 0x68)] []))
      (fun t => t.a == 0x80 && t.sp == 0x00 && t.p == 0xB0 && t.pc == 0x0301) = true := by decide +kernel

/-- 95_test_vectors.md ST9. -/
theorem test_plp_st9 : ends (step { at0 0x300 [(0x1FF, 0xC3), (0x300, 0x28)] [] with sp := 0xFE })
      (fun t => t.sp == 0xFF && t.p == 0xF3 && t.pc == 0x0301) = true := by decide +kernel

/-- 95_test_vectors.md ST10. -/
theorem test_plp_st10 : ends (step { at0 0x300 [(0x300, 0x28)] [] with sp := 0xFE, p := 0xFF })
      (fun t => t.sp == 0xFF && t.p == 0x30 && t.pc == 0x0301) = true := by decide +kernel

/-- 95_test_vectors.md ST11. -/
theorem test_plx_st11 : ends (step (at0 0x300 [(0x100, 0x80), (0x300, 0xFA)] []))
      (fun t => t.x == 0x80 && t.sp == 0x00 && t.p == 0xB0 && t.pc == 0x0301) = true := by decide +kernel

/-- 95_test_vectors.md ST12. -/
theorem test_ply_st12 : ends (step { at0 0x300 [(0x1FF, 0x01), (0x300, 0x7A)] [] with sp := 0xFE })
      (fun t => t.y == 0x01 && t.sp == 0xFF && t.p == 0x30 && t.pc == 0x0301) = true := by decide +kernel

/-- 95_test_vectors.md LG26. -/
theorem test_rol_lg26 : ends (step { at0 0x300 [(0x300, 0x2A)] [] with a := 0x40, p := 0x31 })
      (fun t => t.a == 0x81 && t.p == 0xB0 && t.pc == 0x0301) = true := by decide +kernel

/-- 95_test_vectors.md LG29. -/
theorem test_rol_lg29 : ends (step { at0 0x300 [(0x10, 0x55), (0x300, 0x26), (0x301, 0x10)] [] with p := 0x31 })
      (fun t => t.p == 0xB0 && t.pc == 0x0302 && t.bus.main.read 0x0010 == 0xAB) = true := by decide +kernel

/-- 95_test_vectors.md LG30. -/
theorem test_ror_lg30 : ends (step { at0 0x300 [(0x300, 0x6A)] [] with a := 0x01, p := 0x31 })
      (fun t => t.a == 0x80 && t.p == 0xB1 && t.pc == 0x0301) = true := by decide +kernel

/-- 95_test_vectors.md LG33. -/
theorem test_ror_lg33 : ends (step (at0 0x300 [(0x300, 0x7E), (0x302, 0x20), (0x2000, 0x02)] []))
      (fun t => t.p == 0x30 && t.pc == 0x0303 && t.bus.main.read 0x2000 == 0x01) = true := by decide +kernel

/-- 95_test_vectors.md CF24. -/
theorem test_rti_cf24 :
    ends (step { at0 0x400 [(0x1FD, 0x31), (0x1FE, 0x02), (0x1FF, 0x03), (0x400, 0x40)] [] with sp := 0xFC })
      (fun t => t.sp == 0xFF && t.p == 0x31 && t.pc == 0x0302) = true := by decide +kernel

/-- 95_test_vectors.md CF25. -/
theorem test_rti_cf25 : ends (step { at0 0x400 [(0x1FF, 0x20), (0x400, 0x40)] [] with sp := 0xFC })
      (fun t => t.sp == 0xFF && t.p == 0x30 && t.pc == 0x2000) = true := by decide +kernel

/-- 95_test_vectors.md CF22. -/
theorem test_rts_cf22 : ends (step { at0 0x400 [(0x1FE, 0xFF), (0x1FF, 0xFF), (0x400, 0x60)] [] with sp := 0xFD })
      (fun t => t.sp == 0xFF && t.p == 0x30 && t.pc == 0x0000) = true := by decide +kernel

/-- 95_test_vectors.md CF23. -/
theorem test_rts_cf23 : ends (step (at0 0x400 [(0x100, 0x10), (0x101, 0x20), (0x400, 0x60)] []))
      (fun t => t.sp == 0x01 && t.p == 0x30 && t.pc == 0x2011) = true := by decide +kernel

/-- 95_test_vectors.md AR15. -/
theorem test_sbc_ar15 : ends (step { at0 0x300 [(0x300, 0xE9), (0x301, 0xB0)] [] with a := 0x50, p := 0x31 })
      (fun t => t.a == 0xA0 && t.p == 0xF0 && t.pc == 0x0302) = true := by decide +kernel

/-- 95_test_vectors.md AR23. -/
theorem test_sbc_ar23 :
    ends (step { at0 0x300 [(0x21, 0x30), (0x300, 0xF1), (0x301, 0x20), (0x3001, 0x09)] [] with a := 0x09, y := 0x01, p := 0x31 })
      (fun t => t.a == 0x00 && t.p == 0x33 && t.pc == 0x0302) = true := by decide +kernel

/-- 95_test_vectors.md ST15. -/
theorem test_sec_st15 : ends (step (at0 0x300 [(0x300, 0x38)] []))
      (fun t => t.p == 0x31 && t.pc == 0x0301) = true := by decide +kernel

/-- 95_test_vectors.md ST19. -/
theorem test_sed_st19 : ends (step (at0 0x300 [(0x300, 0xF8)] []))
      (fun t => t.p == 0x38 && t.pc == 0x0301) = true := by decide +kernel

/-- 95_test_vectors.md ST17. -/
theorem test_sei_st17 : ends (step (at0 0x300 [(0x300, 0x78)] []))
      (fun t => t.p == 0x34 && t.pc == 0x0301) = true := by decide +kernel

/-- 95_test_vectors.md LS8. -/
theorem test_sta_ls8 : ends (step { at0 0x300 [(0x10, 0x77), (0x300, 0x85), (0x301, 0x10)] [] with p := 0xB0 })
      (fun t => t.p == 0xB0 && t.pc == 0x0302 && t.bus.main.read 0x0010 == 0x00) = true := by decide +kernel

/-- 95_test_vectors.md LS12. -/
theorem test_sta_ls12 :
    ends (step { at0 0x300 [(0x21, 0x30), (0x300, 0x91), (0x301, 0x20)] [] with a := 0xAB, y := 0x10 })
      (fun t => t.p == 0x30 && t.pc == 0x0302 && t.bus.main.read 0x3010 == 0xAB) = true := by decide +kernel

/-- 95_test_vectors.md LS10. -/
theorem test_stx_ls10 : ends (step { at0 0x300 [(0x300, 0x96), (0x301, 0x10)] [] with x := 0x07, y := 0x02 })
      (fun t => t.p == 0x30 && t.pc == 0x0302 && t.bus.main.read 0x0010 == 0x00 && t.bus.main.read 0x0012 == 0x07) = true := by decide +kernel

/-- 95_test_vectors.md LS11. -/
theorem test_sty_ls11 : ends (step { at0 0x300 [(0x300, 0x8C), (0x302, 0x20)] [] with y := 0x80 })
      (fun t => t.p == 0x30 && t.pc == 0x0303 && t.bus.main.read 0x2000 == 0x80) = true := by decide +kernel

/-- 95_test_vectors.md LS17. -/
theorem test_stz_ls17 : ends (step { at0 0x300 [(0x00, 0xFF), (0x300, 0x74), (0x301, 0x10)] [] with x := 0xF0 })
      (fun t => t.p == 0x30 && t.pc == 0x0302 && t.bus.main.read 0x0000 == 0x00) = true := by decide +kernel

/-- 95_test_vectors.md LS18. -/
theorem test_tax_ls18 : ends (step { at0 0x300 [(0x300, 0xAA)] [] with a := 0x80 })
      (fun t => t.x == 0x80 && t.p == 0xB0 && t.pc == 0x0301) = true := by decide +kernel

/-- 95_test_vectors.md LS19. -/
theorem test_tay_ls19 : ends (step { at0 0x300 [(0x300, 0xA8)] [] with y := 0x05 })
      (fun t => t.y == 0x00 && t.p == 0x32 && t.pc == 0x0301) = true := by decide +kernel

/-- 95_test_vectors.md LG17. -/
theorem test_trb_lg17 : ends (step { at0 0x300 [(0x10, 0x05), (0x300, 0x14), (0x301, 0x10)] [] with a := 0x03 })
      (fun t => t.p == 0x30 && t.pc == 0x0302 && t.bus.main.read 0x0010 == 0x04) = true := by decide +kernel

/-- 95_test_vectors.md LG16. -/
theorem test_tsb_lg16 : ends (step { at0 0x300 [(0x300, 0x0C), (0x302, 0x20), (0x2000, 0x0F)] [] with a := 0xF0 })
      (fun t => t.p == 0x32 && t.pc == 0x0303 && t.bus.main.read 0x2000 == 0xFF) = true := by decide +kernel

/-- 95_test_vectors.md LS23. -/
theorem test_tsx_ls23 : ends (step { at0 0x300 [(0x300, 0xBA)] [] with x := 0x55, sp := 0x00 })
      (fun t => t.x == 0x00 && t.p == 0x32 && t.pc == 0x0301) = true := by decide +kernel

/-- 95_test_vectors.md LS20. -/
theorem test_txa_ls20 : ends (step { at0 0x300 [(0x300, 0x8A)] [] with a := 0xFF, x := 0x01 })
      (fun t => t.a == 0x01 && t.p == 0x30 && t.pc == 0x0301) = true := by decide +kernel

/-- 95_test_vectors.md LS25. -/
theorem test_txs_ls25 : ends (step { at0 0x300 [(0x300, 0x9A)] [] with x := 0x80 })
      (fun t => t.sp == 0x80 && t.p == 0x30 && t.pc == 0x0301) = true := by decide +kernel

/-- 95_test_vectors.md LS21. -/
theorem test_tya_ls21 : ends (step { at0 0x300 [(0x300, 0x98)] [] with y := 0xFF })
      (fun t => t.a == 0xFF && t.p == 0xB0 && t.pc == 0x0301) = true := by decide +kernel

/-- 95_test_vectors.md AM21: an operand fetched through the keyboard's read handler. -/
theorem test_fetch_through_a_switch :
    ends (step (at0 0xBFFF [(0xBFFF, 0xA9)] [])) (fun t => t.a == 0x00 && t.p == 0x32 && t.pc == 0xC001) = true := by
  decide +kernel

/-! ## Decimal mode (95_test_vectors.md FT2, FT2b) -/

/-- A machine about to run `ADC #$28` with A = 19 and D set, in a decimal mode. -/
def decimalAdd (m : DecimalMode) : State :=
  { at0 0x0300 [(0x0300, 0x69), (0x0301, 0x28)] [] with cfg := { defaultCfg with decimalMode := m }, a := 0x19, p := 0x38 }

theorem test_decimal_bcd : ends (step (decimalAdd .bcd)) (fun t => t.a == 0x47 && t.pc == 0x0302) = true := by
  decide +kernel

/-- 19 + 28 = 47 with no carry; 10 - 20 borrows. -/
theorem test_decimal_digits : bcdAdd 0x19 0x28 false = (0x47, false) ∧ bcdSub 0x10 0x20 true = (0x90, false) := by
  decide +kernel

theorem test_decimal_binary : ends (step (decimalAdd .binary)) (fun t => t.a == 0x41 && t.p == 0x38) = true := by
  decide +kernel

theorem test_decimal_refuse : stops (step (decimalAdd .refuse)) none (some .decimalRefused) = true := by
  decide +kernel

/-! ## The bus (95_test_vectors.md section 2.7) -/

/-- One bus access: a read, or a write of a value. -/
inductive Access where
  | r (a : Word)
  | w (a : Word) (v : Byte)

/-- A sequence of bus accesses; the values that the reads give, and the bus after them. -/
def accesses (c : Cfg) : Bus → List Access → List Byte → Option (List Byte × Bus)
  | b, [], got => some (got.reverse, b)
  | b, .r a :: rest, got =>
    match b.read c a with
    | .ok v b => accesses c b rest (v :: got)
    | .fault _ _ _ => none
  | b, .w a v :: rest, got =>
    match b.write c a v with
    | .ok _ b => accesses c b rest got
    | .fault _ _ _ => none

/-- The accesses complete, and the values read and the bus after them pass a check. -/
def endsBus (b : Bus) (as : List Access) (check : List Byte → Bus → Bool) : Bool :=
  match accesses defaultCfg b as [] with
  | some (got, b) => check got b
  | none => false

/-- S6, SS1: one attempt does not enable writing. -/
theorem test_bank_one_attempt :
    endsBus State.reset.bus [.w 0xC081 0]
      (fun _ b => b.ms.bankWrite == false && b.ms.preWriteAddr == some 0xC081 && b.ms.preWriteCount == 1) = true := by
  decide +kernel

/-- S7, SS9: two do, whatever other addresses are accessed in between. -/
theorem test_bank_two_attempts :
    endsBus State.reset.bus [.r 0xC081, .r 0x0300, .w 0xC010 0, .r 0xC081]
      (fun _ b => b.ms.bankWrite == true && b.ms.preWriteAddr == none && b.ms.bankRead == .rom) = true := by
  decide +kernel

/-- SS16: a store reads and writes the toggle address, two attempts in one instruction. -/
theorem test_bank_store_enables :
    ends (step (at0 0x0300 [(0x0300, 0x8D), (0x0301, 0x81), (0x0302, 0xC0)] []))
      (fun t => t.bus.ms.bankWrite == true && t.bus.ms.bankSel == .two) = true := by
  decide +kernel

/-- SS20, SS21: writes reach bank RAM only while enabled, and reads still give ROM. -/
theorem test_bank_write_under_rom :
    endsBus { State.reset.bus with rom := [(0x1000, 0xAA)] } [.w 0xD000 0x11, .r 0xC081, .r 0xC081, .w 0xD000 0x22, .r 0xD000]
      (fun got b => got.getLast? == some 0xAA && b.mainBank2 == [(0, 0x22)] && b.main == []) = true := by
  decide +kernel

/-- SS28, SS29: the system block is copied to the side that becomes active. -/
theorem test_system_block_copy :
    endsBus { State.reset.bus with main := [(0x10, 0x11), (0x1FF, 0x22), (0x200, 0x33)], aux := [(0x10, 0x99), (0x200, 0x44)] }
      [.r 0xC016, .w 0xC009 0, .r 0xC016, .r 0x0010, .r 0x01FF, .r 0x0200, .w 0x0010 0x55]
      (fun got b => got == [0x00, 0x80, 0x11, 0x22, 0x33] && b.aux == [(0x10, 0x55), (0x1FF, 0x22), (0x200, 0x44)]) = true := by
  decide +kernel

/-- SS37, SS38: 80STORE and HIRES make PAGE2 select the side of the display windows. -/
theorem test_display_steering :
    endsBus { State.reset.bus with main := [(0x800, 7), (0x2000, 5)], aux := [(0x400, 4), (0x800, 8), (0x2000, 6)] }
      [.w 0xC055 0, .w 0xC001 0, .r 0x0400, .r 0x0800, .r 0x2000, .w 0xC057 0, .r 0x2000, .r 0xC018]
      (fun got _ => got == [4, 7, 5, 6, 0x80]) = true := by
  decide +kernel

/-- SS49: the strobe and the any-key bit over the key code. -/
theorem test_keyboard :
    endsBus (State.reset.keyDown 0x41).bus [.r 0xC000, .r 0xC010, .r 0xC000, .r 0xC010]
      (fun got _ => got == [0xC1, 0xC1, 0x41, 0xC1]) = true := by
  decide +kernel

/-- SS53, SS54: the slot-ROM window, but for page C3, and its writes dropped. -/
theorem test_slot_rom_window :
    endsBus { State.reset.bus with rom := [(0x300, 0x33)], slotROM := [(0, 0xA1), (0x200, 0xA3)] }
      [.r 0xC100, .r 0xC300, .w 0xC100 0xFF, .r 0xC100, .w 0xC00B 0, .r 0xC300]
      (fun got _ => got == [0xA1, 0x33, 0xA1, 0xA3]) = true := by
  decide +kernel

/-- SS42, SS45: double hi-res is ignored until the IOU flag is set. -/
theorem test_double_hires_under_iou :
    endsBus State.reset.bus [.w 0xC05E 0, .r 0xC07F, .w 0xC07E 0, .w 0xC05E 0, .r 0xC07F]
      (fun got _ => got == [0x00, 0x80]) = true := by
  decide +kernel

/-! ## The drive and the codec (95_test_vectors.md sections 2.8 and 2.9) -/

/-- S8, S9 (DR1, DR2): one half-track inward, one outward; DR4: the clamp still resets the offset. -/
theorem test_drive_stepping :
    (let d := { Drive.empty with phase := 1, trackPos := 4, sectorPos := 100 }
     d.stepPhase defaultCfg 3 = { d with phase := 2, trackPos := 5, sectorPos := 0 } ∧
     d.stepPhase defaultCfg 7 = { d with phase := 4, trackPos := 3, sectorPos := 0 } ∧
     d.stepPhase defaultCfg 5 = { d with phase := 3 } ∧
     { d with trackPos := 0 }.stepPhase defaultCfg 7 = { d with phase := 4, trackPos := 0, sectorPos := 0 }) := by
  decide +kernel

/-- DR9, DR10 and DR13 on a short buffer: what is committed, and that the head moves. -/
theorem test_drive_write :
    (let d := { Drive.empty with data := some [0xAA, 0xBB, 0xCC], mode := .write, sectorPos := 1 }
     let after := fun d : Drive => endsBus { State.reset.bus with drive1 := d } [.r 0xC0EC]
     after { d with latch := 0x7F } (fun got b => got == [0x7F] && b.drive1.data == d.data && b.drive1.sectorPos == 2) &&
     after { d with latch := 0xFF } (fun _ b => b.drive1.data == some [0xAA, 0xFF, 0xCC] && b.drive1.sectorPos == 2) &&
     after { d with latch := 0xFF, writeProtect := true } (fun _ b => b.drive1.data == d.data && b.drive1.sectorPos == 2)) = true := by
  decide +kernel

/-- DR8, DR11: around the track, and not while locked. -/
theorem test_drive_shift :
    ({ Drive.empty with sectorPos := 6655 }.shift 1).sectorPos = 0 ∧
    ({ Drive.empty with sectorPos := 10, locked := true }.shift 1).sectorPos = 10 := by
  decide +kernel

/-- DR17, DR18: the motor and the phases act on the selected drive, at either address. -/
theorem test_drive_selection :
    endsBus State.reset.bus [.w 0xC0E9 0, .w 0xC0EB 0, .w 0xC0E1 0, .w 0xC0E3 0, .w 0xC0F9 0]
      (fun _ b => b.drive1.online && b.drive1.phase == 0 && b.selected == .two && b.drive2.trackPos == 1 &&
        b.drive2.online) = true := by
  decide +kernel

/-- CD1 to CD3. -/
theorem test_codec_address_field :
    enc44 0xFE = [0xFF, 0xFE] ∧ dec44 0xFA 0xEA = 0xE0 ∧
    addrField 254 17 15 = [0xFF, 0xFE, 0xAA, 0xBB, 0xAF, 0xAF, 0xFA, 0xEA] := by
  decide +kernel

/-- CD7 and CD8: the start of two data fields. -/
theorem test_codec_data_field :
    (enc62 ((List.range 256).map (BitVec.ofNat 8))).take 8 = [0x9D, 0xE6, 0xFF, 0xE6, 0xFF, 0xE6, 0xFF, 0xE6] ∧
    (enc62 (1 :: List.replicate 255 0)).take 3 = [0x9A, 0x9A, 0x96] := by
  decide +kernel

/-- CD12, CD15: a flipped bit leaves the table or the terminal XOR not zero. -/
theorem test_codec_corruption :
    dec62 (0x97 :: List.replicate 342 0x96) = none ∧ dec62 (0x16 :: List.replicate 342 0x96) = none := by
  decide +kernel

/-! ## The host's operations (95_test_vectors.md sections 2.10 and 2.11) -/

/-- RS1: Reset reads its vector from ROM, and leaves A, X, Y and the selected drive. -/
theorem test_reset :
    (let s := { at0 0x1234 [(0xFFFD, 3)] [(0x3FFC, 0x62), (0x3FFD, 0xFA)] with a := 0x12, sp := 0x80, p := 0xFB }
     let t := (s.setMachineState { s.bus.ms with bankRead := .ram, bankWrite := true, sysBlockAux := true }).resetMachine.2
     t.a = 0x12 ∧ t.sp = 0xFF ∧ t.p = 0x34 ∧ t.pc = 0xFA62 ∧ t.bus.ms = MachineState.reset .two) := by
  decide +kernel

/-- 60_exceptions.md R410: a run of the host ends at a refused step; 00_scope.md R7: the default of `DECIMAL_MODE`. -/
theorem test_refused_run :
    ({ at0 0x0300 [(0x0300, 0x69)] [] with cfg := defaultCfg, p := 0x38 } : State).events [.process, .keyUp] =
      .error .decimalRefused := rfl

/-- LD2, LD3: the suffixes, in any case. -/
theorem test_suffixes :
    imageTypeOf ['a', '.', 'b', '.', 'd', 'o'] = some .dos ∧ imageTypeOf ['G', '.', 'D', 'S', 'K'] = some .dos ∧
    imageTypeOf ['d', '.', 'P', 'o'] = some .proDOS ∧ imageTypeOf ['x', '.', 'n', 'i', 'b'] = some .nib ∧
    imageTypeOf ['d', '.', 'd', '1', '3'] = none ∧ imageTypeOf ['R', 'E', 'A', 'D', 'M', 'E'] = none := by
  decide +kernel

/-- FT6: `LDA $9000` with an Aux segment of 0x8000 bytes. -/
def shortAux : State :=
  let s := at0 0x0300 [(0x0300, 0xAD), (0x0302, 0x90)] []
  { s with cfg := { defaultCfg with auxSize := 0x8000 }, bus := { s.bus with aux := s.bus.main, ms := { s.bus.ms with readAux := true } } }

theorem test_bus_fault : stops (step shortAux) (some (.busFault (.segment .aux) 0x9000 shortAux.bus)) none = true := by
  decide +kernel

/-- The machine runs the instruction the host places. -/
theorem test_with_fetch_word :
    ends (step (State.reset.withFetchWord 16 0x7FA9)) (fun t => t.a == 0x7F && t.pc == 2) = true := by
  decide +kernel

/-! ## Witnesses: a state and operands that meet the hypotheses of each statement -/

/-- `LDA #$7F` at 0300, with a pointer to 1234 in 20 and 21, a pointer that wraps at FF, and vectors in the ROM. -/
def sample : State :=
  { State.reset with
    a := 0x12, x := 0x02, y := 0x01, sp := 0x80, p := 0x71, pc := 0x0300
    bus := { State.reset.bus with
      main := [(0x00, 0x40), (0x20, 0x34), (0x21, 0x12), (0xFF, 0x10), (0x300, 0xA9), (0x301, 0x7F), (0x1234, 0x56)]
      rom := [(0x3FFE, 0x40), (0x3FFF, 0xFA)] } }

/-- A disk of the right length in both drives, drive 1 selected, its head at the end of a track. -/
def sampleDisk (mode : DriveMode) : Bus :=
  let d := { Drive.empty with
    data := some (List.replicate physImageLen 0xD5), trackPos := 69, sectorPos := 6655, latch := 0xAA, mode := mode }
  { sample.bus with drive1 := d, drive2 := d }

theorem wf_keys (m : MachineState) (h : m = MachineState.reset .two) : m.Wf := by subst h; exact ⟨by decide, by decide, by decide⟩

theorem wf_empty_drive : Drive.empty.Wf := ⟨by decide, by decide, fun _ h => nomatch h⟩

theorem sample_wf : sample.Wf := by
  refine ⟨by decide, by decide, wf_keys _ rfl, wf_empty_drive, wf_empty_drive, fun g => ?_, fun g => ?_⟩ <;> cases g <;>
    decide +kernel

theorem sampleDisk_wf (mode : DriveMode) : (sampleDisk mode).Wf sample.cfg := by
  have h : ((sampleDisk mode).drive1).Wf := by
    refine ⟨by show 69 ≤ maxSteps; decide, by show 6655 < physTrackLen; decide, fun bytes hb => ?_⟩
    cases hb
    exact List.length_replicate
  exact ⟨wf_keys _ rfl, h, h, sample_wf.bus.canonical, sample_wf.bus.inside⟩

/-- The sample with D set, in a decimal mode, with a packed BCD byte or another in A. -/
def sampleDecimal (m : DecimalMode) (a : Byte) : State :=
  { sample with cfg := { defaultCfg with decimalMode := m }, a := a, p := 0x38 }

theorem sampleDecimal_wf (m : DecimalMode) (a : Byte) : (sampleDecimal m a).Wf :=
  ⟨by cases m <;> rfl, (by decide : defaultCfg.resetPValid = true), sample_wf.bus.ms, wf_empty_drive, wf_empty_drive, sample_wf.bus.canonical, sample_wf.bus.inside⟩

theorem sample_step : ∃ t, step sample = .next t := ends_next (check := fun _ => true) (by decide +kernel)

theorem witness_DecodeOfEncodeIsTheInstruction :
    (Instr.adc (.imm 0xFF)).wf = true ∧ (Instr.jmp (.iax 0xFFFF)).wf = true ∧ (Instr.nop3 0xDC 0xC030).wf = true := by
  decide +kernel

theorem witness_StepRunsTheDecodedInstruction :
    (sample.canStep = true ∧ sample.fetch = .ok (.lda (.imm 0x7F)) sample) ∧
    (sample.canStep = true ∧ fullSize sample.cfg = true ∧ decode [0xA9, 0x7F] = .ok (.lda (.imm 0x7F), []) ∧
      ∀ k (h : k < [0xA9, 0x7F].length),
        sample.bus.peek sample.cfg (sample.pc + BitVec.ofNat 16 k) = some (([0xA9, 0x7F] : List Byte)[k])) := by
  refine ⟨⟨by decide, by rfl⟩, by decide, by decide, by decide +kernel, fun k h => ?_⟩
  match k, h with
  | 0, _ => exact (by decide +kernel : sample.bus.peek sample.cfg (sample.pc + BitVec.ofNat 16 0) = some 0xA9)
  | 1, _ => exact (by decide +kernel : sample.bus.peek sample.cfg (sample.pc + BitVec.ofNat 16 1) = some 0x7F)

theorem witness_StoppedMachineTakesNoStep :
    { sample with status := .faulted (.segment .aux) 0x9000 }.status = .faulted (.segment .aux) 0x9000 ∧
    ({ sample with booted := false }.status = .running ∧ { sample with booted := false }.booted = false) ∧
    ({ sample with booted := false }.events [.keyDown 0x41] = .ok ({ sample with booted := false }.keyDown 0x41) ∧
      step ({ sample with booted := false }.keyDown 0x41) = .refused .notBooted) :=
  ⟨rfl, ⟨rfl, rfl⟩, rfl, rfl⟩

theorem witness_StepKeepsTheInvariant : sample.Wf ∧ ∃ t, step sample = .next t := ⟨sample_wf, sample_step⟩

theorem witness_StepForcesBreakAndUnused :
    ∃ t, step { sample with p := 0x00 } = .next t := ends_next (check := fun _ => true) (by decide +kernel)

theorem witness_StepCompletesOrRefusesDecimal :
    (sample.Wf ∧ sample.canStep = true) ∧
    (sampleDecimal .refuse 0x19).Wf ∧ (sampleDecimal .refuse 0x19).canStep = true :=
  ⟨⟨sample_wf, by decide⟩, sampleDecimal_wf _ _, by decide⟩

theorem witness_StepKeepsWhatOnlyTheHostSets : sample.Wf ∧ ∃ t, step sample = .next t := ⟨sample_wf, sample_step⟩

/-- Each clause, with the wraps of zero-page and absolute indexing, and a plain byte behind the address. -/
theorem witness_DirectResolversReadTheirTargetOnce :
    (fullSize sample.cfg = true ∧ sample.bus.peek sample.cfg 0x1234 = some 0x56) ∧
    (∃ b, Operand.zpg 0xFF = .zpg b ∧ (0x00FF : Word).toNat = b.toNat) ∧
    (∃ b, Operand.zpx 0xFF = .zpx b ∧ (0x0001 : Word).toNat = (b.toNat + sample.x.toNat) % 256) ∧
    (∃ b, Operand.zpy 0xFF = .zpy b ∧ (0x0000 : Word).toNat = (b.toNat + sample.y.toNat) % 256) ∧
    (∃ w, Operand.abs 0x1234 = .abs w ∧ (0x1234 : Word) = w) ∧
    (∃ w, Operand.abx 0xFFFF = .abx w ∧ (0x0001 : Word).toNat = (w.toNat + sample.x.toNat) % 65536) ∧
    (∃ w, Operand.aby 0x1233 = .aby w ∧ (0x1234 : Word).toNat = (w.toNat + sample.y.toNat) % 65536) :=
  ⟨by decide +kernel, ⟨0xFF, rfl, rfl⟩, ⟨0xFF, rfl, rfl⟩, ⟨0xFF, rfl, rfl⟩, ⟨_, rfl, rfl⟩, ⟨0xFFFF, rfl, rfl⟩,
    ⟨0x1233, rfl, rfl⟩⟩

/-- Each clause; the pointer at FF takes its high byte from 00. -/
theorem witness_ZeroPagePointerResolvers :
    (let low := sample.bus.mem (ramSegment sample.bus.ms.sysBlockAux)
     fullSize sample.cfg = true ∧ sample.bus.peek sample.cfg 0x1234 = some 0x56 ∧
     (∃ b, Operand.idx 0x1E = .idx b ∧ (0x20 : Byte).toNat = (b.toNat + sample.x.toNat) % 256 ∧
       (0x1234 : Word) = low.read (((0x20 : Byte).toNat + 1) % 256) ++ low.read (0x20 : Byte).toNat) ∧
     (0x4010 : Word) = low.read (((0xFF : Byte).toNat + 1) % 256) ++ low.read (0xFF : Byte).toNat ∧
     (0x1235 : Word).toNat =
       ((low.read (((0x20 : Byte).toNat + 1) % 256) ++ low.read (0x20 : Byte).toNat).toNat + sample.y.toNat) % 65536) :=
  ⟨by decide, by decide +kernel, ⟨0x1E, rfl, by decide +kernel, by decide +kernel⟩, by decide +kernel, by decide +kernel⟩

/-- Both clauses, the second with the pointer at the top of memory. -/
theorem witness_AbsolutePointerResolvers :
    (Operand.ind 0x0020 = .ind 0x0020 ∧ fullSize sample.cfg = true ∧ sample.bus.peek sample.cfg 0x0020 = some 0x34 ∧
      sample.bus.peek sample.cfg 0x0021 = some 0x12) ∧
    (∃ w, Operand.iax 0xFFFD = .iax w ∧ (0xFFFF : Word).toNat = (w.toNat + sample.x.toNat) % 65536) ∧
    sample.bus.peek sample.cfg 0xFFFF = some 0xFA ∧ sample.bus.peek sample.cfg (0xFFFF + 1) = some 0x40 :=
  ⟨by decide +kernel, ⟨0xFFFD, rfl, rfl⟩, by decide +kernel, by decide +kernel⟩

theorem witness_LoadsPutTheValueInTheirRegister :
    sample.Wf ∧ (Instr.lda (.idy 0x20)).wf = true ∧ (Instr.ldx (.zpy 0xFF)).wf = true ∧ (Instr.ldy (.imm 0x80)).wf = true :=
  ⟨sample_wf, by decide, by decide, by decide⟩

theorem witness_StoresWriteTheirRegisterOnce :
    sample.Wf ∧ (Instr.sta (.zpi 0x20)).wf = true ∧ (Instr.stx (.zpy 0xFF)).wf = true ∧
      (Instr.sty (.abs 0xC010)).wf = true ∧ (Instr.stz (.abx 0xFFFF)).wf = true :=
  ⟨sample_wf, by decide, by decide, by decide, by decide⟩

theorem witness_BinaryAddAndSubtract :
    (sample.Wf ∧ (Instr.adc (.imm 0x50)).wf = true ∧ (Instr.sbc (.idx 0x1E)).wf = true ∧ getFlag sample.p .d = false) ∧
    ((sampleDecimal .binary 0x50).Wf ∧ getFlag (sampleDecimal .binary 0x50).p .d = true ∧
      (sampleDecimal .binary 0x50).cfg.decimalMode = .binary) :=
  ⟨⟨sample_wf, by decide, by decide, by decide⟩, sampleDecimal_wf _ _, by decide, rfl⟩

/-- The largest packed BCD byte in A and in the operand. -/
theorem witness_DecimalAddAndSubtract :
    (let s := sampleDecimal .bcd 0x99
     s.Wf ∧ (Instr.adc (.imm 0x99)).wf = true ∧ (Instr.sbc (.imm 0x99)).wf = true ∧ getFlag s.p .d = true ∧
      s.cfg.decimalMode = .bcd ∧ resolve (.imm 0x99) s = .ok ⟨0, 0x99⟩ s ∧ s.a.toNat / 16 ≤ 9 ∧ s.a.toNat % 16 ≤ 9) :=
  ⟨sampleDecimal_wf _ _, by decide, by decide, by decide, rfl, rfl, by decide, by decide⟩

/-- The first byte that is not packed BCD; and the refusing machine. -/
theorem witness_DecimalCornersAndRefusal :
    ((sampleDecimal .bcd 0x9A).Wf ∧ (Instr.adc (.imm 0x00)).wf = true ∧ getFlag (sampleDecimal .bcd 0x9A).p .d = true ∧
      ¬ ((0x9A : Byte).toNat / 16 ≤ 9 ∧ (0x9A : Byte).toNat % 16 ≤ 9 ∧ (0 : Byte).toNat / 16 ≤ 9 ∧ (0 : Byte).toNat % 16 ≤ 9)) ∧
    ((sampleDecimal .refuse 0x19).Wf ∧ (Instr.sbc (.imm 0x00)).wf = true ∧
      getFlag (sampleDecimal .refuse 0x19).p .d = true ∧ (sampleDecimal .refuse 0x19).cfg.decimalMode = .refuse) :=
  ⟨⟨sampleDecimal_wf _ _, by decide, by decide, by decide⟩, sampleDecimal_wf _ _, by decide, by decide, rfl⟩

theorem witness_ComparesSetCarryZeroNegative :
    sample.Wf ∧ (Instr.cmp (.abx 0x1232)).wf = true ∧ (Instr.cpx (.imm 0x02)).wf = true ∧ (Instr.cpy (.zpg 0xFF)).wf = true :=
  ⟨sample_wf, by decide, by decide, by decide⟩

theorem witness_IncrementAndDecrementWriteBack :
    sample.Wf ∧ (Instr.inc .acc).wf = true ∧ (Instr.inc (.abs 0x1234)).wf = true ∧ (Instr.dec .acc).wf = true ∧
      (Instr.dec (.zpx 0xFF)).wf = true :=
  ⟨sample_wf, by decide, by decide, by decide, by decide⟩

theorem witness_LogicalInstructionsCombineBits :
    sample.Wf ∧ (Instr.and (.zpi 0x20)).wf = true ∧ (Instr.ora (.imm 0x80)).wf = true ∧ (Instr.eor (.idy 0x20)).wf = true :=
  ⟨sample_wf, by decide, by decide, by decide⟩

/-- The immediate form, and a memory form. -/
theorem witness_BitTestFlags :
    (sample.Wf ∧ (Instr.bit (.imm 0xF0)).wf = true ∧ ∃ b, Operand.imm 0xF0 = .imm b) ∧
    (sample.Wf ∧ (Instr.bit (.abs 0x1234)).wf = true ∧ ∀ b, Operand.abs 0x1234 ≠ .imm b) :=
  ⟨⟨sample_wf, by decide, _, rfl⟩, sample_wf, by decide, fun _ h => nomatch h⟩

theorem witness_TestAndSetOrResetBits :
    sample.Wf ∧ (Instr.tsb (.zpg 0x20)).wf = true ∧ (Instr.trb (.abs 0x1234)).wf = true :=
  ⟨sample_wf, by decide, by decide⟩

theorem witness_ShiftsAndRotatesMoveOneBit :
    sample.Wf ∧ (Instr.asl .acc).wf = true ∧ (Instr.lsr (.abx 0x1232)).wf = true ∧ (Instr.rol (.zpg 0x20)).wf = true ∧
      (Instr.ror .acc).wf = true ∧ getFlag sample.p .c = true :=
  ⟨sample_wf, by decide, by decide, by decide, by decide, by decide⟩

/-- The byte of a PHP: P with B and U set. -/
theorem witness_PushesWriteAtTheStackPointer : sample.Wf ∧ StatusIs 0x71 sample.p noFlags ∧ StatusIs 0x30 0x00 noFlags :=
  ⟨sample_wf, fun f => by cases f <;> rfl, fun f => by cases f <;> rfl⟩

/-- The slot above S, also where S wraps. -/
theorem witness_PullsReadAboveTheStackPointer :
    sample.Wf ∧ (0 : Byte) = sample.bus.stackByte (sample.sp + 1) ∧ (0x00 : Byte) = sample.bus.stackByte (0xFF + 1) :=
  ⟨sample_wf, by decide +kernel, by decide +kernel⟩

theorem witness_FlagInstructionsWriteOneFlag : ∀ g, g ∈ [Flag.c, .i, .d, .v] → ∃ i on, (i, g, on) ∈
    [(Instr.clc, Flag.c, false), (.sec, .c, true), (.cli, .i, false), (.sei, .i, true), (.cld, .d, false),
      (.sed, .d, true), (.clv, .v, false)] := by
  intro g h
  simp only [List.mem_cons, List.not_mem_nil, or_false] at h
  rcases h with rfl | rfl | rfl | rfl
  exacts [⟨.clc, false, by decide⟩, ⟨.sei, true, by decide⟩, ⟨.sed, true, by decide⟩, ⟨.clv, false, by decide⟩]

/-- A branch taken and one not taken, at the ends of the displacement's range. -/
theorem witness_BranchesGoWhereTheirFlagSays :
    (Instr.bcs 0x80, true) ∈ [(Instr.bcs 0x80, getFlag sample.p .c)] ∧ (Instr.bcc 0x7F, false) ∈ [(Instr.bcc 0x7F, !getFlag sample.p .c)] := by
  decide +kernel

theorem witness_JumpGoesToTheResolvedAddress :
    sample.Wf ∧ (Instr.jmp (.abs 0x0300)).wf = true ∧ (Instr.jmp (.ind 0x0020)).wf = true ∧ (Instr.jmp (.iax 0x001E)).wf = true :=
  ⟨sample_wf, by decide, by decide, by decide⟩

/-- The statements about JSR, RTS, BRK and RTI assume a well-formed state alone; S may be at either end. -/
theorem witness_JsrPushesTheReturnAddress : sample.Wf ∧ ({ sample with sp := 0x00 } : State).Wf :=
  ⟨sample_wf, sample_wf.size, sample_wf.resetP, sample_wf.bus⟩

theorem witness_RtsReturnsPastThePulledAddress : ({ sample with sp := 0xFF } : State).Wf := ⟨sample_wf.size, sample_wf.resetP, sample_wf.bus⟩

theorem witness_BrkTakesTheTrap : ({ sample with sp := 0x01 } : State).Wf := ⟨sample_wf.size, sample_wf.resetP, sample_wf.bus⟩

theorem witness_RtiRestoresStatusAndCounter : ({ sample with sp := 0xFE } : State).Wf := ⟨sample_wf.size, sample_wf.resetP, sample_wf.bus⟩

theorem witness_RtiUndoesBrk : sample.Wf ∧ ∃ t, exec .brk sample = .next t :=
  ⟨sample_wf, ends_next (check := fun _ => true) (by decide +kernel)⟩

theorem witness_NoOpsOnlyAdvance :
    (Instr.nop = .nop ∧ (1 : Word) = 1) ∧ (∃ op, Instr.nop1 0xDB = .nop1 op ∧ (1 : Word) = 1) ∧
    (∃ op b, Instr.nop2 0x44 0x10 = .nop2 op b ∧ (2 : Word) = 2) ∧ (∃ op w, Instr.nop3 0xDC 0xC030 = .nop3 op w ∧ (3 : Word) = 3) :=
  ⟨⟨rfl, rfl⟩, ⟨_, rfl, rfl⟩, ⟨_, _, rfl, rfl⟩, _, _, rfl, rfl⟩

/-- The ends of the zero and stack pages, of the two display windows, and of the range. -/
theorem witness_LowMemorySteering :
    ([0x0000, 0x01FF, 0x0200, 0x03FF, 0x0400, 0x07FF, 0x0800, 0x1FFF, 0x2000, 0x3FFF, 0x4000, 0xBFFF] : List Word).all
      (fun a => a.toNat < 0xC000) = true := by
  decide +kernel

/-- The ends of the I/O page and of its ranges without a handler, of the window, of page C3, and of the two halves of
the bank-switched region. -/
theorem witness_HighMemorySteering :
    defaultMap sample.cfg ∧
    ([0xC000, 0xC01F, 0xC020, 0xC04F, 0xC050, 0xC057, 0xC058, 0xC05D, 0xC05E, 0xC05F, 0xC060, 0xC07D, 0xC07E, 0xC08F,
      0xC090, 0xC0DF, 0xC0E0, 0xC0FF] : List Word).all (fun a => 0xC000 ≤ a.toNat && a.toNat ≤ 0xC0FF) = true ∧
    ([0xC100, 0xC2FF, 0xC300, 0xC3FF, 0xC400, 0xCFFF] : List Word).all (fun a => 0xC100 ≤ a.toNat && a.toNat ≤ 0xCFFF) = true ∧
    ([0xD000, 0xDFFF, 0xE000, 0xFFFF] : List Word).all (fun a => 0xD000 ≤ a.toNat) = true :=
  ⟨rfl, by decide +kernel⟩

theorem witness_ReadsReturnTheLatestWrite :
    fullSize sample.cfg = true ∧ sample.bus.Wf sample.cfg ∧ sample.bus.writeTarget sample.cfg 0xD000 = .dropped ∧
      sample.bus.writeTarget sample.cfg 0x1234 = .cell .main 0x1234 ∧
      sample.bus.readTarget sample.cfg 0x1234 = .cell .main 0x1234 ∧ sample.bus.readTarget sample.cfg 0xFFFF = .cell .rom 0x3FFF :=
  ⟨by decide, sample_wf.bus, by decide +kernel, by decide +kernel, by decide +kernel, by decide +kernel⟩

/-- The ends of the range, an even and an odd address. -/
theorem witness_BankSwitchAccesses :
    defaultMap sample.cfg ∧
    ([(0xC080, 0), (0xC08E, 0), (0xC081, 1), (0xC08F, 1)] : List (Word × Nat)).all
      (fun e => 0xC080 ≤ e.1.toNat && e.1.toNat ≤ 0xC08F && e.1.toNat % 2 == e.2) = true :=
  ⟨rfl, by decide +kernel⟩

theorem witness_StatusReadsReturnTheirFlag : defaultMap sample.cfg := rfl

theorem witness_CommandSwitchesChangeTheirFlag : defaultMap sample.cfg := rfl

theorem witness_KeyboardReadsAndStrobe :
    defaultMap sample.cfg ∧ sample.bus.ms.Wf ∧
    ([0xC000, 0xC00F] : List Word).all (fun a => 0xC000 ≤ a.toNat && a.toNat ≤ 0xC00F) = true ∧
    ([0xC010, 0xC01F] : List Word).all (fun a => 0xC010 ≤ a.toNat && a.toNat ≤ 0xC01F) = true :=
  ⟨rfl, sample_wf.bus.ms, by decide +kernel, by decide +kernel⟩

/-- A switch that changes the flag, and one that does not. -/
theorem witness_SystemBlockSwitchCopiesTheBlock :
    defaultMap sample.cfg ∧ fullSize sample.cfg = true ∧ sample.bus.Wf sample.cfg ∧ sample.bus.ms.sysBlockAux = (!true) ∧
      sample.bus.ms.sysBlockAux = false :=
  ⟨rfl, by decide, sample_wf.bus, rfl, rfl⟩

/-- The table commands a step inward, one outward, and none. -/
theorem witness_HeadStepsByThePhaseTable :
    (defaultCfg.phaseTable[(1 : Fin 5)])[(2 : Fin 5)] = .inward ∧ (defaultCfg.phaseTable[(1 : Fin 5)])[(4 : Fin 5)] = .outward ∧
      (defaultCfg.phaseTable[(0 : Fin 5)])[(1 : Fin 5)] = .stay := by
  decide +kernel

/-- A disk in each mode, with its head at the end of the last track, and an empty drive in each mode. -/
theorem witness_StrobeMovesOneByteAndAdvances :
    defaultMap sample.cfg ∧
    ((sampleDisk .read).Wf sample.cfg ∧ (∃ bytes, (sampleDisk .read).drive.data = some bytes) ∧ (sampleDisk .read).drive.mode = .read) ∧
    ((sampleDisk .write).Wf sample.cfg ∧ (∃ bytes, (sampleDisk .write).drive.data = some bytes) ∧ (sampleDisk .write).drive.mode = .write) ∧
    (sample.bus.Wf sample.cfg ∧ sample.bus.drive.data = none ∧ sample.bus.drive.mode = .read) ∧
    ({ sample.bus with drive1 := { Drive.empty with mode := .write } }.Wf sample.cfg ∧
      ({ sample.bus with drive1 := { Drive.empty with mode := .write } } : Bus).drive.data = none ∧
      ({ sample.bus with drive1 := { Drive.empty with mode := .write } } : Bus).drive.mode = .write) :=
  ⟨rfl, ⟨sampleDisk_wf _, ⟨_, rfl⟩, rfl⟩, ⟨sampleDisk_wf _, ⟨_, rfl⟩, rfl⟩, ⟨sample_wf.bus, rfl, rfl⟩,
    ⟨sample_wf.bus.ms, ⟨by decide, by decide, fun _ h => nomatch h⟩, wf_empty_drive, sample_wf.bus.canonical,
      sample_wf.bus.inside⟩, rfl, rfl⟩

/-- The first and the last address of a range, an access that completes, and the drive that is not selected. -/
theorem witness_DriveSwitchesActOnTheSelectedDrive :
    defaultMap sample.cfg ∧ (0xC0E0 : Word).toNat ≤ (0xC0E0 : Word).toNat ∧
    (0xC0EF : Word).toNat < (0xC0E0 : Word).toNat + 16 ∧ DriveId.two ≠ sample.bus.selected ∧
    sample.bus.write sample.cfg 0xC0EF 0xD5 = .ok () (sample.bus.setDrive { sample.bus.drive with mode := .write, latch := 0xD5 }) :=
  ⟨rfl, by decide, by decide, by decide, rfl⟩

theorem witness_SectorCodecRoundTrip : (List.replicate 256 (0xFF : Byte)).length = 256 := by decide +kernel

/-- An image of the right length of each type, and one a byte too short. -/
theorem witness_ImageCodecRoundTrip :
    (List.replicate 143360 (1 : Byte)).length = (if ImageType.dos = .nib then 232960 else 143360) ∧
    (List.replicate 143360 (1 : Byte)).length = (if ImageType.proDOS = .nib then 232960 else 143360) ∧
    (List.replicate 232960 (1 : Byte)).length = (if ImageType.nib = .nib then 232960 else 143360) ∧
    (List.replicate 143359 (1 : Byte)).length ≠ (if ImageType.dos = .nib then 232960 else 143360) ∧
    ([] : List Byte).length ≠ 232960 :=
  ⟨List.length_replicate.trans (if_neg (by decide)).symm, List.length_replicate.trans (if_neg (by decide)).symm,
    List.length_replicate.trans (if_pos rfl).symm, by rw [List.length_replicate, if_neg (by decide)]; norm_num,
    by decide⟩

/-- The checksum byte's top bit. -/
theorem witness_SingleBitFlipIsDetected : (List.replicate 256 (0x5A : Byte)).length = 256 ∧ 342 < 343 ∧ 7 < 8 := by
  decide +kernel

theorem witness_ResetSetsTheListedState : fullSize sample.cfg = true := by decide

/-- Two images of the right lengths; each of the four ways to fail is met by an image that is missing or short. -/
theorem witness_BootLoadsTheRomsAndResets :
    sample.Wf ∧ (List.replicate 0x4000 (0xEA : Byte)).length = 0x4000 ∧ (List.replicate 0x0F00 (0xEA : Byte)).length = 0x0F00 ∧
      (List.replicate 0x3FFF (0xEA : Byte)).length ≠ 0x4000 ∧ ([] : List Byte).length ≠ 0x0F00 :=
  ⟨sample_wf, List.length_replicate, List.length_replicate, by rw [List.length_replicate]; decide, by decide⟩

/-- An extension, a name without one; a known and an unknown suffix, an image that encodes and one that does not. -/
theorem witness_LoadPopulatesTheSelectedDrive :
    '.' ∉ ['D', 's', 'k'] ∧ '.' ∉ ([] : List Char) ∧ '.' ∉ ['R', 'E', 'A', 'D', 'M', 'E'] ∧
    imageTypeOf ['x'] = none ∧ imageTypeOf ['x', '.', 'n', 'i', 'b'] = some .nib ∧
    encodeImage .nib [] = .error .badImageLength ∧
    encodeImage .nib (List.replicate physImageLen 0) = .ok (List.replicate physImageLen 0) :=
  ⟨by decide, by decide, by decide, by decide +kernel, by decide +kernel, by rw [encodeImage]; exact if_neg (by decide), by simp [encodeImage]⟩

/-- A segment too small for the address, for a read and for a write, and a step that meets it. -/
theorem witness_AccessOutsideASegmentStopsTheMachine :
    shortAux.cfg.size .aux ≤ 0x9000 ∧ shortAux.bus.readTarget shortAux.cfg 0x9000 = .cell .aux 0x9000 ∧
    ({ shortAux.bus with ms := { shortAux.bus.ms with writeAux := true } } : Bus).writeTarget shortAux.cfg 0x9000 = .cell .aux 0x9000 ∧
    step shortAux = .fault (.busFault (.segment .aux) 0x9000 shortAux.bus) :=
  ⟨by decide, by decide +kernel, by decide +kernel, stops_fault test_bus_fault⟩

theorem witness_KeysArriveInTheLatch : defaultMap sample.cfg := rfl

/-- An instruction outside all three lists completes. -/
theorem witness_OverflowInterruptDecimalHaveFewWriters :
    sample.Wf ∧ (∃ t, exec (.lda (.imm 0x7F)) sample = .next t) ∧
    (Instr.lda (.imm 0x7F)).mnemonic ∉ ([.adc, .sbc, .bit, .clv, .plp, .rti] : List Mnemonic) ∧
    (Instr.lda (.imm 0x7F)).mnemonic ∉ ([.cli, .sei, .brk, .plp, .rti] : List Mnemonic) ∧
    (Instr.lda (.imm 0x7F)).mnemonic ∉ ([.cld, .sed, .brk, .plp, .rti] : List Mnemonic) :=
  ⟨sample_wf, ends_next (check := fun _ => true) (by decide +kernel), by decide, by decide, by decide⟩

end Sys2Proof.Tests
end

section
/-! PROOFS. Reset (70_reset_and_hazards.md R431): with the ROM selected for reads, the vector comes from the ROM
segment and reading it changes nothing. -/

namespace Sys2Proof.Machine

/-- With ROM as the read source, an address of $D000-$FFFF reads the ROM segment (22_soft_switches.md R81). -/
theorem Bus.peek_rom (c : Cfg) {b : Bus} (hrom : b.ms.bankRead = .rom) {a : Word} (h : 0xD000 ≤ a.toNat) :
    b.peek c a = some (b.rom.read (a.toNat - 0xC000)) := by
  have ht : b.readTarget c a = .cell .rom (a.toNat - 0xC000) := by
    have h1 : ¬ a.toNat < 0x200 := by omega
    have h2 : ¬ a.toNat < 0xC000 := by omega
    have h3 : ¬ a.toNat < 0xC100 := by omega
    have h4 : ¬ a.toNat < 0xD000 := by omega
    simp only [Bus.readTarget, h1, h2, h3, h4, if_false, hrom]
  rw [Bus.peek, ht]; rfl

/-- A 16-bit read of two addresses without a handler gives the bytes behind them and changes nothing. -/
theorem Bus.read16_of_peek {c : Cfg} {b : Bus} (hc : fullSize c = true) {a : Word} {l m : Byte}
    (hl : b.peek c a = some l) (hm : b.peek c (a + 1) = some m) : b.read16 c a = .ok (word m l) b := by
  simp only [Bus.read16, Bus.read_of_peek hc hl, BusRes.bind, Bus.read_of_peek hc hm]

/-- With ROM as the read source, the reset vector is the word at offsets 0x3FFC and 0x3FFD of the ROM segment. -/
theorem Bus.read16_vecReset {c : Cfg} {b : Bus} (hc : fullSize c = true) (hrom : b.ms.bankRead = .rom) :
    b.read16 c vecReset = .ok (word (b.rom.read 0x3FFD) (b.rom.read 0x3FFC)) b :=
  Bus.read16_of_peek hc (Bus.peek_rom c hrom (a := vecReset) (by decide))
    (Bus.peek_rom c hrom (a := vecReset + 1) (by decide))

/-- Reset completes: the registers of R431 are assigned, and PC is the word behind the reset vector. -/
theorem State.resetMachine_eq {s : State} (hc : fullSize s.cfg = true) :
    s.resetMachine = (.ok (), { s.resetRegisters with pc := word (s.bus.rom.read 0x3FFD) (s.bus.rom.read 0x3FFC) }) := by
  have hread : s.resetRegisters.bus.read16 s.resetRegisters.cfg vecReset =
      .ok (word (s.bus.rom.read 0x3FFD) (s.bus.rom.read 0x3FFC)) s.resetRegisters.bus :=
    Bus.read16_vecReset hc rfl
  simp only [State.resetMachine, hread]

/-- Settles O55: Reset selects ROM before it reads its vector, so the read has no handler and no side effect. -/
theorem resetSetsTheListedState : Obligations.ResetSetsTheListedState := by
  intro s hc
  exact ⟨MachineState.reset s.cfg.resetBank, State.resetMachine_eq hc, rfl⟩

end Sys2Proof.Machine
end

section
/-! PROOFS. Steering and soft switches (22_soft_switches.md): what a read and a write of each address range reach,
which handlers the default switch table gives, and what the bank switches and the system-block switch do. -/

namespace Sys2Proof.Machine

/-! ## What an access reaches, by address range -/

/-- The side of RAM behind an address below $C000 (22_soft_switches.md R72 to R76): the zero page and the stack page
follow the system-block flag, the rest `auxSelected`. -/
def lowSideAux (m : MachineState) (direct : Bool) (a : Nat) : Bool :=
  if a ≤ 0x01FF then m.sysBlockAux else auxSelected m direct a

theorem Bus.readTarget_below_io (c : Cfg) (b : Bus) {a : Word} (h : a.toNat < 0xC000) :
    b.readTarget c a = .cell (ramSegment (lowSideAux b.ms b.ms.readAux a.toNat)) a.toNat := by
  by_cases hpage : a.toNat ≤ 0x01FF <;> simp (disch := omega) only [Bus.readTarget, lowSideAux, if_pos, if_neg]

theorem Bus.writeTarget_below_io (c : Cfg) (b : Bus) {a : Word} (h : a.toNat < 0xC000) :
    b.writeTarget c a = .cell (ramSegment (lowSideAux b.ms b.ms.writeAux a.toNat)) a.toNat := by
  by_cases hpage : a.toNat ≤ 0x01FF <;> simp (disch := omega) only [Bus.writeTarget, lowSideAux, if_pos, if_neg]

theorem Bus.readTarget_io (c : Cfg) (b : Bus) {a : Word} (h1 : 0xC000 ≤ a.toNat) (h2 : a.toNat ≤ 0xC0FF) :
    b.readTarget c a = ((readSwitch c a.toNat).map ReadTarget.handler).getD (.cell .main a.toNat) := by
  simp (disch := omega) only [Bus.readTarget, if_pos, if_neg]
  cases readSwitch c a.toNat <;> rfl

theorem Bus.writeTarget_io (c : Cfg) (b : Bus) {a : Word} (h1 : 0xC000 ≤ a.toNat) (h2 : a.toNat ≤ 0xC0FF) :
    b.writeTarget c a = ((writeSwitch c a.toNat).map WriteTarget.handler).getD (.cell .main a.toNat) := by
  simp (disch := omega) only [Bus.writeTarget, if_pos, if_neg]
  cases writeSwitch c a.toNat <;> rfl

theorem Bus.readTarget_slotWindow (c : Cfg) (b : Bus) {a : Word} (h1 : 0xC100 ≤ a.toNat) (h2 : a.toNat ≤ 0xCFFF) :
    b.readTarget c a = .cell (slotWindow b.ms a.toNat).1 (slotWindow b.ms a.toNat).2 := by
  simp (disch := omega) only [Bus.readTarget, if_pos, if_neg]

theorem Bus.writeTarget_slotWindow (c : Cfg) (b : Bus) {a : Word} (h1 : 0xC100 ≤ a.toNat) (h2 : a.toNat ≤ 0xCFFF) :
    b.writeTarget c a = .dropped := by
  simp (disch := omega) only [Bus.writeTarget, if_pos, if_neg]

theorem Bus.readTarget_banked (c : Cfg) (b : Bus) {a : Word} (h : 0xD000 ≤ a.toNat) :
    b.readTarget c a = if b.ms.bankRead = .rom then .cell .rom (a.toNat - 0xC000)
      else .cell (bankRAM b.ms a.toNat).1 (bankRAM b.ms a.toNat).2 := by
  simp (disch := omega) only [Bus.readTarget, if_neg]
  cases b.ms.bankRead <;> rfl

theorem Bus.writeTarget_banked (c : Cfg) (b : Bus) {a : Word} (h : 0xD000 ≤ a.toNat) :
    b.writeTarget c a = if b.ms.bankWrite then .cell (bankRAM b.ms a.toNat).1 (bankRAM b.ms a.toNat).2
      else .dropped := by
  simp (disch := omega) only [Bus.writeTarget, if_neg]

/-- The two ways into the internal ROM (R77) are one condition. -/
theorem slotWindow_cell (m : MachineState) (a : Nat) :
    ReadTarget.cell (slotWindow m a).1 (slotWindow m a).2 =
      if m.intCxROM = true ∨ (0xC300 ≤ a ∧ a ≤ 0xC3FF ∧ m.slotC3ROM = false) then .cell .rom (a - 0xC000)
      else .cell .slotROM (a - 0xC100) := by
  unfold slotWindow
  cases m.intCxROM
  · by_cases hpage : 0xC300 ≤ a ∧ a ≤ 0xC3FF ∧ m.slotC3ROM = false <;> simp [hpage]
  · simp

/-- Settles O41: below $C000 the target is RAM of the side that `lowSideAux` names. -/
theorem lowMemorySteering : Obligations.LowMemorySteering := by
  intro c b a h
  exact ⟨Bus.readTarget_below_io c b h, Bus.writeTarget_below_io c b h⟩

/-! ## The default switch table (R100) -/

/-- The rows of a table whose ranges rise: a row that covers an address is the one the table finds for it. -/
theorem find?_row_of_mem {rows : List SwitchRow} (hs : rows.Pairwise fun r s => r.last < s.first)
    {row : SwitchRow} (hm : row ∈ rows) {a : Nat} (h1 : row.first ≤ a) (h2 : a ≤ row.last) :
    (rows.find? fun r => r.first ≤ a && a ≤ r.last) = some row := by
  induction rows with
  | nil => cases hm
  | cons r rs ih =>
    obtain ⟨hr, hrs⟩ := List.pairwise_cons.1 hs
    rcases List.mem_cons.1 hm with rfl | hm
    · exact List.find?_cons_of_pos (by simp [h1, h2])
    · have hlt := hr row hm
      rw [List.find?_cons_of_neg (by simp; omega)]
      exact ih hrs hm

theorem switchMap_rising : switchMap.Pairwise fun r s => r.last < s.first := by decide

theorem switchMap_row_handlers : ∀ row ∈ switchMap, row.read.isSome = true ∧ row.write.isSome = true := by decide

theorem switchRow_of_mem {c : Cfg} (hc : defaultMap c) {row : SwitchRow} (hm : row ∈ switchMap) {a : Nat}
    (h1 : row.first ≤ a) (h2 : a ≤ row.last) : switchRow c a = some row := by
  rw [switchRow, hc]
  exact find?_row_of_mem switchMap_rising hm h1 h2

theorem switchMap_row_range : ∀ row ∈ switchMap, 0xC000 ≤ row.first ∧ row.last ≤ 0xC0FF := by decide

/-- A bus read of an address that a row of the default table covers runs that row's read handler. -/
theorem Bus.read_of_row {c : Cfg} (hc : defaultMap c) (b : Bus) {row : SwitchRow} (hm : row ∈ switchMap) {a : Word}
    (h1 : row.first ≤ a.toNat) (h2 : a.toNat ≤ row.last) {h : ReadSwitch} (hr : row.read = some h) :
    b.read c a = b.readHandler c a h := by
  obtain ⟨hlow, hhigh⟩ := switchMap_row_range row hm
  have ht : b.readTarget c a = .handler h := by
    rw [Bus.readTarget_io c b (by omega) (by omega), readSwitch, switchRow_of_mem hc hm h1 h2, Option.bind_some, hr]
    rfl
  simp only [Bus.read, ht]

/-- A bus write of an address that a row of the default table covers runs that row's write handler. -/
theorem Bus.write_of_row {c : Cfg} (hc : defaultMap c) (b : Bus) {row : SwitchRow} (hm : row ∈ switchMap) {a : Word}
    (h1 : row.first ≤ a.toNat) (h2 : a.toNat ≤ row.last) {h : WriteSwitch} (hw : row.write = some h) (v : Byte) :
    b.write c a v = b.writeHandler c a v h := by
  obtain ⟨hlow, hhigh⟩ := switchMap_row_range row hm
  have ht : b.writeTarget c a = .handler h := by
    rw [Bus.writeTarget_io c b (by omega) (by omega), writeSwitch, switchRow_of_mem hc hm h1 h2, Option.bind_some, hw]
    rfl
  simp only [Bus.write, ht]

/-! ### Which addresses have a row, part by part of the table -/

theorem switchRowsC00_cover (a : Nat) :
    (∃ row ∈ switchRowsC00, row.first ≤ a ∧ a ≤ row.last) ↔ 0xC000 ≤ a ∧ a ≤ 0xC00F := by
  simp only [switchRowsC00, List.exists_mem_cons_iff, List.not_mem_nil, false_and, exists_false, or_false]
  omega

theorem switchRowsC01_cover (a : Nat) :
    (∃ row ∈ switchRowsC01, row.first ≤ a ∧ a ≤ row.last) ↔ 0xC010 ≤ a ∧ a ≤ 0xC01F := by
  simp only [switchRowsC01, List.exists_mem_cons_iff, List.not_mem_nil, false_and, exists_false, or_false]
  omega

theorem switchRowsC05_cover (a : Nat) :
    (∃ row ∈ switchRowsC05, row.first ≤ a ∧ a ≤ row.last) ↔
      (0xC050 ≤ a ∧ a ≤ 0xC057) ∨ (0xC05E ≤ a ∧ a ≤ 0xC05F) ∨ (0xC07E ≤ a ∧ a ≤ 0xC07F) := by
  simp only [switchRowsC05, List.exists_mem_cons_iff, List.not_mem_nil, false_and, exists_false, or_false]
  omega

theorem switchRowsC08_cover (a : Nat) :
    (∃ row ∈ switchRowsC08, row.first ≤ a ∧ a ≤ row.last) ↔
      (0xC080 ≤ a ∧ a ≤ 0xC08F) ∨ (0xC0E0 ≤ a ∧ a ≤ 0xC0FF) := by
  simp only [switchRowsC08, List.exists_mem_cons_iff, List.not_mem_nil, false_and, exists_false, or_false]

/-- The addresses of the I/O page that have no row in the default table. -/
def plainIO (a : Nat) : Prop :=
  (0xC020 ≤ a ∧ a ≤ 0xC04F) ∨ (0xC058 ≤ a ∧ a ≤ 0xC05D) ∨ (0xC060 ≤ a ∧ a ≤ 0xC07D) ∨ (0xC090 ≤ a ∧ a ≤ 0xC0DF)

theorem switchMap_cover {a : Nat} (h1 : 0xC000 ≤ a) (h2 : a ≤ 0xC0FF) :
    (∃ row ∈ switchMap, row.first ≤ a ∧ a ≤ row.last) ↔ ¬ plainIO a := by
  simp only [switchMap, List.mem_append, or_and_right, exists_or, switchRowsC00_cover, switchRowsC01_cover,
    switchRowsC05_cover, switchRowsC08_cover, plainIO]
  omega

theorem switchRow_eq_none_of_plainIO {c : Cfg} (hc : defaultMap c) {a : Nat} (h1 : 0xC000 ≤ a) (h2 : a ≤ 0xC0FF)
    (hp : plainIO a) : switchRow c a = none := by
  rw [switchRow, hc, List.find?_eq_none]
  intro row hm hcover
  exact (switchMap_cover h1 h2).1 ⟨row, hm, by simpa using hcover⟩ hp

/-- Settles O42: the default table's rows leave exactly `plainIO` without a handler; the slot-ROM window reads by
`slotWindow` and drops writes; the banked region goes to ROM, to `bankRAM` or nowhere. -/
theorem highMemorySteering : Obligations.HighMemorySteering := by
  intro c b a
  refine ⟨fun hc h1 h2 => ?_, fun h1 h2 => ⟨?_, Bus.writeTarget_slotWindow c b h1 h2⟩, fun h => ?_⟩
  · rw [Bus.readTarget_io c b h1 h2, Bus.writeTarget_io c b h1 h2, readSwitch, writeSwitch]
    split
    case isTrue hp => simp [switchRow_eq_none_of_plainIO hc h1 h2 hp]
    case isFalse hp =>
      obtain ⟨row, hm, hfirst, hlast⟩ := (switchMap_cover h1 h2).2 hp
      obtain ⟨hread, hwrite⟩ := switchMap_row_handlers row hm
      obtain ⟨r, hr⟩ := Option.isSome_iff_exists.1 hread
      obtain ⟨w, hw⟩ := Option.isSome_iff_exists.1 hwrite
      rw [switchRow_of_mem hc hm hfirst hlast, Option.bind_some, Option.bind_some, hr, hw]
      exact ⟨⟨r, rfl⟩, w, rfl⟩
  · rw [Bus.readTarget_slotWindow c b h1 h2, slotWindow_cell]
  · exact ⟨Bus.readTarget_banked c b h, Bus.writeTarget_banked c b h⟩

/-! ## The bank switches (R84 to R87) -/

/-- The bank that bit 3 of a bank-switch address selects. -/
def bankOf (a : Word) : Bank := if a.toNat / 8 % 2 = 1 then .one else .two

/-- The read source that bits 1:0 of a bank-switch address select. -/
def readSourceOf (a : Word) : ReadSource := if a.toNat % 4 = 0 ∨ a.toNat % 4 = 3 then .ram else .rom

/-- How many write-enable attempts in a row an odd access of `a` makes (R85). -/
def attempts (m : MachineState) (a : Word) : Nat := if m.preWriteAddr = some a then m.preWriteCount + 1 else 1

theorem getLsbD_eq_decide_div_mod (a : Word) (i : Nat) : a.getLsbD i = decide (a.toNat / 2 ^ i % 2 = 1) :=
  Nat.testBit_eq_decide_div_mod_eq

theorem bankOf_eq (a : Word) : (if a.getLsbD 3 then Bank.one else Bank.two) = bankOf a := by
  rw [getLsbD_eq_decide_div_mod]
  simp [bankOf]

theorem readSourceOf_eq (a : Word) :
    (if a.getLsbD 0 == a.getLsbD 1 then ReadSource.ram else ReadSource.rom) = readSourceOf a := by
  have hbits : (a.toNat % 2 = 1 ↔ a.toNat / 2 % 2 = 1) ↔ a.toNat % 4 = 0 ∨ a.toNat % 4 = 3 := by omega
  rw [readSourceOf, getLsbD_eq_decide_div_mod, getLsbD_eq_decide_div_mod]
  simp [hbits]

theorem bankAccess_even (m : MachineState) {a : Word} (h : a.toNat % 2 = 0) :
    bankAccess m a = { m with bankSel := bankOf a, bankRead := readSourceOf a,
                              bankWrite := false, preWriteAddr := none, preWriteCount := 0 } := by
  have hbit : a.getLsbD 0 = false := by rw [getLsbD_eq_decide_div_mod]; simp [h]
  simp only [bankAccess, bankOf_eq, readSourceOf_eq]
  simp only [hbit, Bool.not_false, if_true]

theorem bankAccess_odd (m : MachineState) {a : Word} (h : a.toNat % 2 = 1) :
    bankAccess m a =
      if 2 ≤ attempts m a then
        { m with bankSel := bankOf a, bankRead := readSourceOf a,
                 bankWrite := true, preWriteAddr := none, preWriteCount := 0 }
      else
        { m with bankSel := bankOf a, bankRead := readSourceOf a,
                 preWriteAddr := some a, preWriteCount := attempts m a } := by
  have hbit : a.getLsbD 0 = true := by rw [getLsbD_eq_decide_div_mod]; simp [h]
  simp only [bankAccess, bankOf_eq, readSourceOf_eq]
  simp only [hbit, Bool.not_true, Bool.false_eq_true, if_false]
  rfl

/-- Settles O44: reads and writes of $C080-$C08F run the same `bankAccess`, whose effect on an even address and on an
odd one, before and at the second attempt, is written out above. -/
theorem bankSwitchAccesses : Obligations.BankSwitchAccesses := by
  intro c b a v hc h1 h2
  have hrow : (⟨0xC080, 0xC08F, some .bankSwitch, some .bankSwitch⟩ : SwitchRow) ∈ switchMap := by decide
  refine ⟨bankAccess b.ms a, ⟨_, _, Bus.read_of_row hc b hrow h1 h2 rfl⟩, Bus.write_of_row hc b hrow h1 h2 rfl v, ?_⟩
  rcases Nat.mod_two_eq_zero_or_one a.toNat with heven | hodd
  · rw [bankAccess_even b.ms heven]
    exact ⟨rfl, rfl, rfl, fun _ => ⟨rfl, rfl, rfl⟩, fun hodd => absurd (heven.symm.trans hodd) (by decide)⟩
  · rw [bankAccess_odd b.ms hodd]
    have hne : a.toNat % 2 ≠ 0 := by omega
    by_cases hn : 2 ≤ attempts b.ms a
    · rw [if_pos hn]
      refine ⟨rfl, rfl, rfl, fun heven => absurd heven hne, fun _ => ?_⟩
      exact (if_pos hn).mpr ⟨rfl, rfl, rfl⟩
    · rw [if_neg hn]
      refine ⟨rfl, rfl, rfl, fun heven => absurd heven hne, fun _ => ?_⟩
      exact (if_neg hn).mpr ⟨rfl, rfl, rfl⟩

/-! ## The system-block switch (R90) -/

theorem Bus.write_sysBlock {c : Cfg} (hc : defaultMap c) (b : Bus) (v : Byte) (on : Bool) :
    b.write c (if on then 0xC009 else 0xC008) v = b.setSysBlock c on := by
  cases on
  · exact Bus.write_of_row hc b (row := ⟨0xC008, 0xC008, some .keyboard, some (.sysBlock false)⟩) (by decide)
      (by decide) (by decide) rfl v
  · exact Bus.write_of_row hc b (row := ⟨0xC009, 0xC009, some .keyboard, some (.sysBlock true)⟩) (by decide)
      (by decide) (by decide) rfl v

/-- Settles O48: the write is `setSysBlock`, which changes nothing when the flag stays, and otherwise puts the block
copy, read by `Memory.read_copyPrefix`, in the segment that becomes active. -/
theorem systemBlockSwitchCopiesTheBlock : Obligations.SystemBlockSwitchCopiesTheBlock := by
  intro c b v on hc hsize hb
  rw [Bus.write_sysBlock hc, Bus.setSysBlock_eq hsize]
  by_cases hflag : b.ms.sysBlockAux = on
  · rw [if_pos hflag]
    exact ⟨b, rfl, fun _ => rfl, fun hchange => absurd (hflag.symm.trans hchange) (by cases on <;> decide)⟩
  · rw [if_neg hflag]
    refine ⟨_, rfl, fun hsame => absurd hsame hflag, fun _ => ⟨rfl, by simp, by simp, by simp, by simp, fun g off => ?_⟩⟩
    have hsrc : (if on then Segment.main else .aux) = ramSegment (!on) := by cases on <;> rfl
    rw [hsrc, Bus.mem_withMs, Bus.mem_setMem]
    change _ = if g = ramSegment on ∧ off < 512 then _ else _
    by_cases hg : g = ramSegment on
    · subst hg
      simp only [if_true, true_and, Memory.read_copyPrefix (hb.canonical _) (hb.canonical _)]
    · simp only [hg, if_false, false_and]

end Sys2Proof.Machine
end

section
/-! PROOFS. Decoding is total, and the reserved bytes of the opcode map are the no-ops (30_encoding.md R137, R138):
a decoded instruction is determined by its opcode byte and its assembled operand, so it ignores the bytes beyond
its length. -/

namespace Sys2Proof

/-! ## The opcode map, read as a table of 256 bytes -/

/-- Every entry of the opcode map is a mnemonic with one of its modes (R136). -/
theorem opcodeEntry_mode_mem : ∀ op : Byte, (opcodeEntry op).2 ∈ (opcodeEntry op).1.modes :=
  forall_byte (by decide +kernel)

theorem opcodeEntry_eq_nop1_iff : ∀ op : Byte, (opcodeEntry op).1 = .nop1 ↔ op.toNat % 4 = 3 :=
  forall_byte (by decide +kernel)

theorem opcodeEntry_eq_nop2_iff : ∀ op : Byte, (opcodeEntry op).1 = .nop2 ↔ op ∈ nop2Bytes :=
  forall_byte (by decide +kernel)

theorem opcodeEntry_eq_nop3_iff : ∀ op : Byte, (opcodeEntry op).1 = .nop3 ↔ op ∈ nop3Bytes :=
  forall_byte (by decide +kernel)

/-! ## The instruction of a mnemonic -/

@[simp] theorem instrOf_mnemonic (m : Mnemonic) (op : Byte) (o : Operand) (b1 b2 : Byte) :
    (instrOf m op o b1 b2).mnemonic = m := by
  cases m <;> rfl

/-- An instruction built in a mode of its mnemonic has the assembled operand: the mnemonics that do not store
`o` have one mode only. -/
theorem instrOf_operand {m : Mnemonic} {md : Mode} (h : md ∈ m.modes) (op b1 b2 : Byte) :
    (instrOf m op (operandOf md b1 b2) b1 b2).operand = operandOf md b1 b2 := by
  cases m with
  | adc | and | asl | bit | cmp | cpx | cpy | dec | eor | inc | jmp | lda | ldx | ldy | lsr | ora | rol | ror
  | sbc | sta | stx | sty | stz | trb | tsb => rfl
  | _ => obtain rfl := List.mem_singleton.1 h; rfl

/-- The operand bytes enter an instruction only through its operand. -/
theorem instrOf_eq_of_operand {m : Mnemonic} {md : Mode} (h : md ∈ m.modes) (op b1 b2 : Byte) :
    instrOf m op (operandOf md b1 b2) b1 b2 =
      instrOf m op (operandOf md b1 b2)
        ((operandOf md b1 b2).bytes.getD 0 0) ((operandOf md b1 b2).bytes.getD 1 0) := by
  cases m with
  | adc | and | asl | bit | cmp | cpx | cpy | dec | eor | inc | jmp | lda | ldx | ldy | lsr | ora | rol | ror
  | sbc | sta | stx | sty | stz | trb | tsb => rfl
  | _ => obtain rfl := List.mem_singleton.1 h; simp [instrOf, operandOf, Operand.bytes]

/-- A reserved no-op stores the operand's bytes, not the assembled operand. -/
theorem instrOf_reserved {m : Mnemonic} (hm : m.reserved = true) (op : Byte) (o o' : Operand) (b1 b2 : Byte) :
    instrOf m op o b1 b2 = instrOf m op o' b1 b2 := by
  cases m with
  | nop1 | nop2 | nop3 => rfl
  | _ => cases hm

/-! ## Operands of one and of two bytes -/

theorem operandOf_of_length_one {md : Mode} (h : md.length = 1) (b1 b2 c1 c2 : Byte) :
    operandOf md b1 b2 = operandOf md c1 c2 := by
  cases md with
  | imp | acc => rfl
  | _ => cases h

theorem operandOf_of_length_two {md : Mode} (h : md.length = 2) (b1 b2 c2 : Byte) :
    operandOf md b1 b2 = operandOf md b1 c2 := by
  cases md with
  | imm | zpg | zpx | zpy | idx | idy | zpi | rel | by2 => rfl
  | _ => cases h

/-! ## The instruction of three bytes -/

@[simp] theorem decodeBytes_mnemonic (op b1 b2 : Byte) : (decodeBytes op b1 b2).mnemonic = (opcodeEntry op).1 :=
  instrOf_mnemonic ..

@[simp] theorem decodeBytes_operand (op b1 b2 : Byte) :
    (decodeBytes op b1 b2).operand = operandOf (opcodeEntry op).2 b1 b2 :=
  instrOf_operand (opcodeEntry_mode_mem op) op b1 b2

theorem decodeBytes_length (op b1 b2 : Byte) : (decodeBytes op b1 b2).length = (opcodeEntry op).2.length := by
  rw [Instr.length, Operand.length, decodeBytes_operand, operandOf_mode]

theorem decodeBytes_congr {op b1 b2 c1 c2 : Byte}
    (h : operandOf (opcodeEntry op).2 b1 b2 = operandOf (opcodeEntry op).2 c1 c2) :
    decodeBytes op b1 b2 = decodeBytes op c1 c2 := by
  have hmem := opcodeEntry_mode_mem op
  rw [decodeBytes, decodeBytes, instrOf_eq_of_operand hmem op b1, instrOf_eq_of_operand hmem op c1, h]

/-- Three bytes always decode, and what is left are the bytes beyond the instruction's length (R138). -/
theorem decode_three_bytes (op b1 b2 : Byte) :
    decode [op, b1, b2] = .ok (decodeBytes op b1 b2, [op, b1, b2].drop (decodeBytes op b1 b2).length) := by
  rw [decodeBytes_length]
  rcases (opcodeEntry op).2.length_cases with h | h | h
  · simpa [decode, h] using decodeBytes_congr (operandOf_of_length_one h 0 0 b1 b2)
  · simpa [decode, h] using decodeBytes_congr (operandOf_of_length_two h b1 0 b2)
  · simp [decode, h]

/-- The bytes that decode to a reserved no-op are those the opcode map gives its mnemonic. -/
theorem decodeBytes_eq_reserved_iff {m : Mnemonic} (hm : m.reserved = true) (op : Byte) (o : Operand) (b1 b2 : Byte) :
    decodeBytes op b1 b2 = instrOf m op o b1 b2 ↔ (opcodeEntry op).1 = m := by
  constructor
  · intro h
    simpa using congrArg Instr.mnemonic h
  · rintro rfl
    exact instrOf_reserved hm ..

/-- Settles O3: three bytes always decode, and a byte decodes to a reserved no-op exactly where the opcode map
names it, which the map does at the bytes of R138. -/
theorem reservedBytesAreTheNoOps : Obligations.ReservedBytesAreTheNoOps := by
  intro op b1 b2
  have hnop1 : decodeBytes op b1 b2 = .nop1 op ↔ _ := decodeBytes_eq_reserved_iff (m := .nop1) rfl op .imp b1 b2
  have hnop2 : decodeBytes op b1 b2 = .nop2 op b1 ↔ _ := decodeBytes_eq_reserved_iff (m := .nop2) rfl op .imp b1 b2
  have hnop3 : decodeBytes op b1 b2 = .nop3 op (b2 ++ b1) ↔ _ :=
    decodeBytes_eq_reserved_iff (m := .nop3) rfl op .imp b1 b2
  exact ⟨decode_three_bytes op b1 b2,
    (hnop1.trans (opcodeEntry_eq_nop1_iff op)).symm,
    (hnop2.trans (opcodeEntry_eq_nop2_iff op)).symm,
    (hnop3.trans (opcodeEntry_eq_nop3_iff op)).symm,
    rfl, rfl, rfl⟩

end Sys2Proof
end

section
/-! PROOFS. Loads, stores and transfers (41_load_store_transfer.md): the shape of an instruction that advances PC
(a register update or one bus write after its resolver), and the opcode bytes of a mnemonic by mode. -/

namespace Sys2Proof.Machine

/-! ## Opcode bytes by mode -/

/-- The opcode bytes of a mnemonic whose instructions the encoder looks up in its table (30_encoding.md R136). -/
theorem encodedAs_of_table {i : Operand → Instr} {rows : List (Mode × Byte)} (m : Mnemonic)
    (hi : ∀ o, (i o).opcode = opcodeTable.lookup (m, o.mode))
    (hrows : ∀ md ∈ allModes, opcodeTable.lookup (m, md) = rows.lookup md) : encodedAs i rows :=
  fun o => (hi o).trans (hrows o.mode (mem_allModes _))

/-! ## An instruction that advances PC by its length -/

theorem advance_eq_length {m : Mnemonic} (hm : m.setsPc = false) (o : Operand) :
    advance m o = BitVec.ofNat 16 o.length := by
  simp [advance, hm]

/-- On a well-formed state the resolver completes, and what the handler gives is completed with the length. -/
theorem runInstr_resolved {m : Mnemonic} (hm : m.setsPc = false) {s : State} (hs : s.Wf) (o : Operand)
    (k : Resolved → State → Res Unit) :
    ∃ r t, ResolvesTo o s r t ∧ s.Reads t ∧ runInstr m o k s = complete (BitVec.ofNat 16 o.length) (k r t) := by
  obtain ⟨r, t, hr, rd⟩ := resolvesTo hs o
  exact ⟨r, t, hr, rd, by rw [runInstr_of_resolve hr.result, advance_eq_length hm]⟩

/-- An instruction whose handler updates registers other than PC, and of the flags those that `w` names. -/
theorem runInstr_update {m : Mnemonic} (hm : m.setsPc = false) {s : State} (hs : s.Wf) (o : Operand)
    {f : Resolved → State → State} {w : Resolved → State → Flag → Option Bool}
    (hpc : ∀ r t, (f r t).pc = t.pc) (hp : ∀ r t, StatusIs (forced (f r t).p) t.p (w r t)) :
    ∃ r t p, ResolvesTo o s r t ∧ StatusIs p s.p (w r t) ∧
      runInstr m o (fun r t => .ok () (f r t)) s =
        .next { f r t with p := p, pc := s.pc + BitVec.ofNat 16 o.length } := by
  obtain ⟨r, t, hr, rd, hrun⟩ := runInstr_resolved hm hs o fun r t => .ok () (f r t)
  exact ⟨r, t, _, hr, rd.p ▸ hp r t, by rw [hrun, complete_ok, hpc, rd.pc]⟩

/-- An instruction whose handler makes one bus write at the resolved address, of a value that the resolver's reads
do not change. -/
theorem runInstr_store {m : Mnemonic} (hm : m.setsPc = false) {s : State} (hs : s.Wf) (o : Operand)
    {source : State → Byte} (hsource : ∀ t, s.Reads t → source t = source s) :
    ∃ r t b' p, ResolvesTo o s r t ∧ Bus.Stores s.cfg r.ea (source s) t.bus b' ∧ StatusIs p s.p noFlags ∧
      runInstr m o (fun r t => t.write r.ea (source t)) s =
        .next { t with bus := b', p := p, pc := s.pc + BitVec.ofNat 16 o.length } := by
  obtain ⟨r, t, hr, rd, hrun⟩ := runInstr_resolved hm hs o fun r t => t.write r.ea (source t)
  obtain ⟨b', hstores, hwrite⟩ := State.write_stores (rd.wf hs) r.ea (source s)
  refine ⟨r, t, b', forced t.p, hr, rd.cfg ▸ hstores, rd.p ▸ StatusIs.none t.p, ?_⟩
  rw [hrun, hsource t rd, hwrite, complete_ok, ← rd.pc]

/-- An instruction without an operand whose handler updates registers other than PC, and of the flags those that `w`
names, from any state. -/
theorem runInstr_imp_update {m : Mnemonic} (hm : m.setsPc = false) (f : State → State) {s : State}
    {w : Flag → Option Bool} (hpc : (f s).pc = s.pc) (hp : StatusIs (forced (f s).p) s.p w) :
    ∃ p, StatusIs p s.p w ∧
      runInstr m .imp (fun _ t => .ok () (f t)) s = .next { f s with p := p, pc := s.pc + 1 } := by
  refine ⟨_, hp, ?_⟩
  rw [runInstr_imp, advance_eq_length hm, complete_ok, hpc]
  rfl

/-! ## The statements -/

/-- Settles O16: the handler of each load is a register update whose flags are `SetNZ` of the resolver's value. -/
theorem loadsPutTheValueInTheirRegister : Obligations.LoadsPutTheValueInTheirRegister := by
  refine ⟨encodedAs_of_table .lda (fun _ => rfl) (by decide +kernel),
    encodedAs_of_table .ldx (fun _ => rfl) (by decide +kernel),
    encodedAs_of_table .ldy (fun _ => rfl) (by decide +kernel),
    fun o s hs => ⟨fun _ => ?lda, fun _ => ?ldx, fun _ => ?ldy⟩⟩
  case lda => exact runInstr_update (m := .lda) rfl hs o (fun r t => State.loadA_pc t r.ev) fun r t => .nz t.p r.ev
  case ldx => exact runInstr_update (m := .ldx) rfl hs o (fun r t => State.loadX_pc t r.ev) fun r t => .nz t.p r.ev
  case ldy => exact runInstr_update (m := .ldy) rfl hs o (fun r t => State.loadY_pc t r.ev) fun r t => .nz t.p r.ev

/-- Settles O17: the handler of each store is one bus write of a register, which the resolver's reads keep, or of 0. -/
theorem storesWriteTheirRegisterOnce : Obligations.StoresWriteTheirRegisterOnce := by
  refine ⟨encodedAs_of_table .sta (fun _ => rfl) (by decide +kernel),
    encodedAs_of_table .stx (fun _ => rfl) (by decide +kernel),
    encodedAs_of_table .sty (fun _ => rfl) (by decide +kernel),
    encodedAs_of_table .stz (fun _ => rfl) (by decide +kernel), fun i o v s hs _ hi => ?_⟩
  rcases hi with ⟨rfl, rfl⟩ | ⟨rfl, rfl⟩ | ⟨rfl, rfl⟩ | ⟨rfl, rfl⟩
  · exact runInstr_store (m := .sta) rfl hs o fun _ rd => rd.a
  · exact runInstr_store (m := .stx) rfl hs o fun _ rd => rd.x
  · exact runInstr_store (m := .sty) rfl hs o fun _ rd => rd.y
  · exact runInstr_store (m := .stz) rfl hs o (source := fun _ => 0) fun _ _ => rfl

/-- Settles O18: a transfer resolves nothing, and its handler is a register update, with `SetNZ` but for TXS. -/
theorem transfersCopyOneRegister : Obligations.TransfersCopyOneRegister := by
  refine ⟨by decide, by decide, by decide, by decide, by decide, by decide,
    fun s => ⟨?tax, ?tay, ?txa, ?tya, ?tsx, ?txs⟩⟩
  case tax => exact runInstr_imp_update (m := .tax) rfl (fun t => t.loadX t.a) (State.loadX_pc ..) (.nz s.p s.a)
  case tay => exact runInstr_imp_update (m := .tay) rfl (fun t => t.loadY t.a) (State.loadY_pc ..) (.nz s.p s.a)
  case txa => exact runInstr_imp_update (m := .txa) rfl (fun t => t.loadA t.x) (State.loadA_pc ..) (.nz s.p s.x)
  case tya => exact runInstr_imp_update (m := .tya) rfl (fun t => t.loadA t.y) (State.loadA_pc ..) (.nz s.p s.y)
  case tsx => exact runInstr_imp_update (m := .tsx) rfl (fun t => t.loadX t.sp) (State.loadX_pc ..) (.nz s.p s.sp)
  case txs => exact runInstr_imp_update (m := .txs) rfl (fun t => { t with sp := t.x }) rfl (.none s.p)

end Sys2Proof.Machine
end

section
/-! PROOFS. Arithmetic, compares, increments and decrements (42_arithmetic.md): binary addition into A, the flags of a
compare, and the shape of an instruction that reads a value, writes it back and sets flags. -/

namespace Sys2Proof.Machine

/-! ## Sums and differences in integers -/

/-- The value is the exact sum, narrowed (R210). -/
theorem toNat_addCore_value (a m : Byte) (c : Bool) :
    (addCore a m c).value.toNat = (a.toNat + m.toNat + (if c then 1 else 0)) % 256 :=
  BitVec.toNat_ofNat ..

/-- V in the bits of R210: both addends agree in sign, the result does not. -/
theorem addCore_overflow (a m : Byte) (c : Bool) :
    (addCore a m c).overflow =
      (a.getLsbD 7 == m.getLsbD 7 && (addCore a m c).value.getLsbD 7 != a.getLsbD 7) := by
  simp only [addCore, BitVec.msb_eq_getLsbD_last]

theorem toNat_add_one (v : Byte) : (v + 1).toNat = (v.toNat + 1) % 256 := BitVec.toNat_add ..

theorem toNat_sub_one (v : Byte) : (v - 1).toNat = (v.toNat + 255) % 256 := by
  rw [BitVec.toNat_sub, Nat.add_comm]
  rfl

theorem toNat_sub_emod (a b : Byte) : ((a - b).toNat : Int) = ((a.toNat : Int) - b.toNat) % 256 := by
  have ha := a.isLt
  have hb := b.isLt
  rw [BitVec.toNat_sub]
  omega

/-! ## ADC and SBC, binary -/

/-- Where D is clear or ignored, ADC and SBC add into A and refuse nothing. -/
theorem addHandler_binary {s : State} (h : getFlag s.p .d = false ∨ s.cfg.decimalMode = .binary) (m n : Byte)
    (digits : Byte → Byte → Bool → Byte × Bool) : addHandler m n digits s = .ok () (s.addToA n) := by
  unfold addHandler State.flag
  rcases h with hclear | hbinary
  · simp only [hclear, Bool.false_eq_true, if_false]
  · simp only [hbinary, ite_self]

/-- ADC is SBC's addition with no bit of the operand complemented (R211, R213). -/
theorem exec_adc_or_sbc {i : Instr} {o : Operand} {flip : Byte}
    (hi : (i = .adc o ∧ flip = 0x00) ∨ (i = .sbc o ∧ flip = 0xFF)) (s : State) :
    ∃ m digits, m.setsPc = false ∧
      exec i s = runInstr m o (fun r t => addHandler r.ev (r.ev ^^^ flip) digits t) s := by
  rcases hi with ⟨rfl, rfl⟩ | ⟨rfl, rfl⟩
  · exact ⟨.adc, bcdAdd, rfl, by simp only [BitVec.ofNat_eq_ofNat, BitVec.xor_zero]; rfl⟩
  · exact ⟨.sbc, bcdSub, rfl, rfl⟩

/-- Settles O19: D is clear or ignored after the resolver as before it, so the handler is the binary addition, and
`addCore` in integers gives the sum and its flags. -/
theorem binaryAddAndSubtract : Obligations.BinaryAddAndSubtract := by
  refine ⟨encodedAs_of_table .adc (fun _ => rfl) (by decide +kernel),
    encodedAs_of_table .sbc (fun _ => rfl) (by decide +kernel), fun i o flip s hs _ hi hd => ?_⟩
  obtain ⟨m, digits, hm, hexec⟩ := exec_adc_or_sbc hi s
  obtain ⟨r, t, hr, rd, hrun⟩ := runInstr_resolved hm hs o fun r t => addHandler r.ev (r.ev ^^^ flip) digits t
  have hadd := addHandler_binary (s := t) (by rwa [rd.p, rd.cfg]) r.ev (r.ev ^^^ flip) digits
  have hflags := StatusIs.sum s.p (addCore s.a (r.ev ^^^ flip) (getFlag s.p .c))
  rw [addCore_overflow] at hflags
  refine ⟨r, t, _, _, hr, ⟨toNat_addCore_value s.a (r.ev ^^^ flip) (getFlag s.p .c), hflags⟩, ?_⟩
  simp only [hexec, hrun, hadd, complete_ok, State.addToA, State.flag, rd.a, rd.p, rd.pc]

/-! ## Compares -/

/-- The flags of `Compare(reg, m)` (R224): C is "no borrow". -/
def compareOf (reg m : Byte) : Flag → Option Bool
  | .c => some (decide (m.toNat ≤ reg.toNat))
  | .z => some (decide (reg = m))
  | .n => some ((reg - m).getLsbD 7)
  | .i | .d | .b | .u | .v => none

theorem StatusIs.compare (p reg m : Byte) : StatusIs (forced (compareFlags p reg m)) p (compareOf reg m) :=
  .of_forced fun f _ _ => by
    rw [getFlag_compareFlags]; cases f <;> simp [compareOf, BitVec.msb_eq_getLsbD_last, beq_eq_decide]

/-- A resolver keeps what does not depend on the bus. -/
theorem ResolvesTo.apply_eq {α : Type} {o : Operand} {s t : State} {r : Resolved} (h : ResolvesTo o s r t)
    {f : State → α} (hf : ∀ b, f { s with bus := b } = f s) : f t = f s := by
  rw [h.registers, hf]

/-- An instruction that compares a register with the resolved value. -/
theorem runInstr_compare {m : Mnemonic} (hm : m.setsPc = false) {s : State} (hs : s.Wf) (o : Operand)
    {reg : State → Byte} (hreg : ∀ b, reg { s with bus := b } = reg s) :
    ∃ r t p, ResolvesTo o s r t ∧ StatusIs p s.p (compareOf (reg s) r.ev) ∧
      runInstr m o (fun r t => .ok () (t.compare (reg t) r.ev)) s =
        .next { t with p := p, pc := s.pc + BitVec.ofNat 16 o.length } := by
  obtain ⟨r, t, p, hr, hp, hrun⟩ := runInstr_update hm hs o (fun r t => State.compare_pc t (reg t) r.ev)
    fun r t => .compare t.p (reg t) r.ev
  exact ⟨r, t, p, hr, hr.apply_eq hreg ▸ hp, hrun⟩

/-- Each compare is `runInstr_compare` of its register. -/
theorem exec_compare {i : Instr} {o : Operand} {reg : Byte} {s : State} (hs : s.Wf)
    (hi : (i = .cmp o ∧ reg = s.a) ∨ (i = .cpx o ∧ reg = s.x) ∨ (i = .cpy o ∧ reg = s.y)) :
    ∃ r t p, ResolvesTo o s r t ∧ StatusIs p s.p (compareOf reg r.ev) ∧
      exec i s = .next { t with p := p, pc := s.pc + BitVec.ofNat 16 o.length } := by
  rcases hi with ⟨rfl, rfl⟩ | ⟨rfl, rfl⟩ | ⟨rfl, rfl⟩
  · exact runInstr_compare (m := .cmp) rfl hs o (reg := State.a) fun _ => rfl
  · exact runInstr_compare (m := .cpx) rfl hs o (reg := State.x) fun _ => rfl
  · exact runInstr_compare (m := .cpy) rfl hs o (reg := State.y) fun _ => rfl

/-- Settles O23: the handler of each compare updates P alone, and N is bit 7 of the difference modulo 256. -/
theorem comparesSetCarryZeroNegative : Obligations.ComparesSetCarryZeroNegative := by
  refine ⟨encodedAs_of_table .cmp (fun _ => rfl) (by decide +kernel),
    encodedAs_of_table .cpx (fun _ => rfl) (by decide +kernel),
    encodedAs_of_table .cpy (fun _ => rfl) (by decide +kernel), fun i o reg s hs _ hi => ?_⟩
  obtain ⟨r, t, p, hr, hp, hexec⟩ := exec_compare hs hi
  exact ⟨r, t, reg - r.ev, p, hr, toNat_sub_emod reg r.ev, hp, hexec⟩

/-! ## Increment and decrement -/

theorem writeBack_of_ne_acc {o : Operand} (h : o ≠ .acc) (ea : Word) (v : Byte) (s : State) :
    writeBack o ea v s = s.write ea v := by
  unfold writeBack
  split
  · exact absurd rfl h
  · rfl

/-- An instruction that sets flags and writes a value back (43_logic_shift.md R251): to A, or to memory in one bus
write at the resolved address. -/
theorem runInstr_writeBack {m : Mnemonic} (hm : m.setsPc = false) {s : State} (hs : s.Wf) (o : Operand)
    {v p : Resolved → State → Byte} {w : Resolved → State → Flag → Option Bool}
    (hp : ∀ r t, StatusIs (forced (p r t)) t.p (w r t)) :
    ∃ r t q, ResolvesTo o s r t ∧ StatusIs q s.p (w r t) ∧
      (o = .acc → r.ev = s.a ∧
        runInstr m o (fun r t => writeBack o r.ea (v r t) { t with p := p r t }) s =
          .next { t with a := v r t, p := q, pc := s.pc + 1 }) ∧
      (o ≠ .acc → ∃ b', Bus.Stores s.cfg r.ea (v r t) t.bus b' ∧
        runInstr m o (fun r t => writeBack o r.ea (v r t) { t with p := p r t }) s =
          .next { t with bus := b', p := q, pc := s.pc + BitVec.ofNat 16 o.length }) := by
  obtain ⟨r, t, hr, rd, hrun⟩ :=
    runInstr_resolved hm hs o fun r t => writeBack o r.ea (v r t) { t with p := p r t }
  refine ⟨r, t, forced (p r t), hr, rd.p ▸ hp r t, ?acc, ?memory⟩
  case acc =>
    rintro rfl
    cases hr.result
    exact ⟨rfl, hrun⟩
  case memory =>
    intro hmem
    have hflags : t.Run { t with p := p r t } := ⟨rfl, rfl, rfl, Bus.Run.refl _ _⟩
    obtain ⟨b', hstores, hwrite⟩ := State.write_stores (hflags.wf (rd.wf hs)) r.ea (v r t)
    refine ⟨b', rd.cfg ▸ hstores, ?_⟩
    rw [hrun, writeBack_of_ne_acc hmem, hwrite, complete_ok, ← rd.pc]

/-- Settles O24: INC and DEC write back the value read plus or minus 1, with `SetNZ` of it. -/
theorem incrementAndDecrementWriteBack : Obligations.IncrementAndDecrementWriteBack := by
  refine ⟨encodedAs_of_table .inc (fun _ => rfl) (by decide +kernel),
    encodedAs_of_table .dec (fun _ => rfl) (by decide +kernel), fun i o delta s hs _ hi => ?_⟩
  rcases hi with ⟨rfl, rfl⟩ | ⟨rfl, rfl⟩
  · obtain ⟨r, t, p, hr, hp, hback⟩ := runInstr_writeBack (m := .inc) rfl hs o fun r t => .nz t.p (r.ev + 1)
    exact ⟨r, t, r.ev + 1, p, hr, toNat_add_one r.ev, hp, hback⟩
  · obtain ⟨r, t, p, hr, hp, hback⟩ := runInstr_writeBack (m := .dec) rfl hs o fun r t => .nz t.p (r.ev - 1)
    exact ⟨r, t, r.ev - 1, p, hr, toNat_sub_one r.ev, hp, hback⟩

/-- Settles O25: the handlers load X or Y with its successor or predecessor modulo 256, and `SetNZ`. -/
theorem indexRegistersCountModulo256 : Obligations.IndexRegistersCountModulo256 := by
  refine ⟨by decide, by decide, by decide, by decide, fun s =>
    ⟨⟨s.x + 1, ?inx⟩, ⟨s.y + 1, ?iny⟩, ⟨s.x - 1, ?dex⟩, ⟨s.y - 1, ?dey⟩⟩⟩
  case inx =>
    exact exists_and_left.2 ⟨toNat_add_one s.x, runInstr_imp_update (m := .inx) rfl (fun t => t.loadX (t.x + 1))
      (State.loadX_pc ..) (.nz s.p (s.x + 1))⟩
  case iny =>
    exact exists_and_left.2 ⟨toNat_add_one s.y, runInstr_imp_update (m := .iny) rfl (fun t => t.loadY (t.y + 1))
      (State.loadY_pc ..) (.nz s.p (s.y + 1))⟩
  case dex =>
    exact exists_and_left.2 ⟨toNat_sub_one s.x, runInstr_imp_update (m := .dex) rfl (fun t => t.loadX (t.x - 1))
      (State.loadX_pc ..) (.nz s.p (s.x - 1))⟩
  case dey =>
    exact exists_and_left.2 ⟨toNat_sub_one s.y, runInstr_imp_update (m := .dey) rfl (fun t => t.loadY (t.y - 1))
      (State.loadY_pc ..) (.nz s.p (s.y - 1))⟩

end Sys2Proof.Machine
end

section
/-! PROOFS. Logic, bit tests, shifts and rotates (43_logic_shift.md): bitwise operations into A, the flags of a bit
test, and a shift or rotate as one function of its direction and of the bit moved in. -/

namespace Sys2Proof.Machine

/-! ## AND, ORA and EOR -/

/-- An instruction that loads A with a bitwise operation on A and the resolved value. -/
theorem runInstr_bitwise {m : Mnemonic} (hm : m.setsPc = false) {s : State} (hs : s.Wf) (o : Operand)
    {f : Byte → Byte → Byte} {op : Bool → Bool → Bool}
    (hf : ∀ a b k, (f a b).getLsbD k = op (a.getLsbD k) (b.getLsbD k)) :
    ∃ r t v p, ResolvesTo o s r t ∧ (∀ k, k < 8 → v.getLsbD k = op (s.a.getLsbD k) (r.ev.getLsbD k)) ∧
      StatusIs p s.p (nzOf v) ∧
      runInstr m o (fun r t => .ok () (t.loadA (f t.a r.ev))) s =
        .next { t with a := v, p := p, pc := s.pc + BitVec.ofNat 16 o.length } := by
  obtain ⟨r, t, p, hr, hp, hrun⟩ := runInstr_update hm hs o (fun r t => State.loadA_pc t (f t.a r.ev))
    fun r t => .nz t.p (f t.a r.ev)
  have ha : t.a = s.a := hr.apply_eq fun _ => rfl
  exact ⟨r, t, f t.a r.ev, p, hr, fun k _ => ha ▸ hf t.a r.ev k, hp, hrun⟩

/-- Settles O26: the handlers load A with `&&&`, `|||` and `^^^`, which act bit by bit. -/
theorem logicalInstructionsCombineBits : Obligations.LogicalInstructionsCombineBits := by
  refine ⟨encodedAs_of_table .and (fun _ => rfl) (by decide +kernel),
    encodedAs_of_table .ora (fun _ => rfl) (by decide +kernel),
    encodedAs_of_table .eor (fun _ => rfl) (by decide +kernel), fun i o op s hs _ hi => ?_⟩
  rcases hi with ⟨rfl, rfl⟩ | ⟨rfl, rfl⟩ | ⟨rfl, rfl⟩
  · exact runInstr_bitwise (m := .and) rfl hs o fun _ _ _ => BitVec.getLsbD_and
  · exact runInstr_bitwise (m := .ora) rfl hs o fun _ _ _ => BitVec.getLsbD_or
  · exact runInstr_bitwise (m := .eor) rfl hs o fun _ _ _ => BitVec.getLsbD_xor

/-! ## BIT -/

/-- The flags of a memory BIT (R243): N and V come from the operand, not from the AND. -/
def bitOf (a m : Byte) : Flag → Option Bool
  | .z => some (decide (a &&& m = 0))
  | .n => some (m.getLsbD 7)
  | .v => some (m.getLsbD 6)
  | .c | .i | .d | .b | .u => none

theorem StatusIs.bit (p a m : Byte) : StatusIs (forced (bitFlags p a m)) p (bitOf a m) :=
  .of_forced fun f _ _ => by
    rw [getFlag_bitFlags]; cases f <;> simp [bitOf, BitVec.msb_eq_getLsbD_last, beq_eq_decide]

theorem StatusIs.test (p a m : Byte) :
    StatusIs (forced (testFlags p a m)) p (oneFlag .z (decide (a &&& m = 0))) := .one p .z _

theorem bitTest_of_ne_imm {o : Operand} (h : ∀ b, o ≠ .imm b) (p a m : Byte) :
    bitTest o p a m = bitFlags p a m := by
  unfold bitTest
  split
  case h_1 b => exact absurd rfl (h b)
  case h_2 => rfl

/-- Settles O27: the handler writes P alone, with Z in the immediate form and Z, N and V in a memory form. -/
theorem bitTestFlags : Obligations.BitTestFlags := by
  refine ⟨encodedAs_of_table .bit (fun _ => rfl) (by decide +kernel), fun o s hs _ => ?_⟩
  obtain ⟨r, t, hr, rd, hrun⟩ := runInstr_resolved (m := .bit) rfl hs o
    fun r t => .ok () { t with p := bitTest o t.p t.a r.ev }
  refine ⟨r, t, forced (bitTest o s.p s.a r.ev), hr, ?immediate, ?memory, ?result⟩
  case immediate =>
    rintro ⟨b, rfl⟩
    exact .test s.p s.a r.ev
  case memory =>
    intro hmem
    rw [bitTest_of_ne_imm hmem]
    exact .bit s.p s.a r.ev
  case result => rw [exec, execBit, hrun, complete_ok, rd.p, rd.a, rd.pc]

/-! ## TSB and TRB -/

/-- An instruction that tests A against the resolved value and writes back a bitwise operation on the two. -/
theorem runInstr_testAndWrite {m : Mnemonic} (hm : m.setsPc = false) {s : State} (hs : s.Wf) {o : Operand}
    (ho : o ≠ .acc) {f : Byte → Byte → Byte} {op : Bool → Bool → Bool}
    (hf : ∀ b a k, k < 8 → (f b a).getLsbD k = op (b.getLsbD k) (a.getLsbD k)) :
    ∃ r t v b' p, ResolvesTo o s r t ∧ (∀ k, k < 8 → v.getLsbD k = op (r.ev.getLsbD k) (s.a.getLsbD k)) ∧
      StatusIs p s.p (oneFlag .z (decide (s.a &&& r.ev = 0))) ∧ Bus.Stores s.cfg r.ea v t.bus b' ∧
      runInstr m o (fun r t => writeBack o r.ea (f r.ev t.a) { t with p := testFlags t.p t.a r.ev }) s =
        .next { t with bus := b', p := p, pc := s.pc + BitVec.ofNat 16 o.length } := by
  obtain ⟨r, t, p, hr, hp, -, hmemory⟩ := runInstr_writeBack hm hs o (v := fun r t => f r.ev t.a)
    fun r t => .test t.p t.a r.ev
  obtain ⟨b', hstores, hrun⟩ := hmemory ho
  have ha : t.a = s.a := hr.apply_eq fun _ => rfl
  exact ⟨r, t, f r.ev t.a, b', p, hr, ha ▸ hf r.ev t.a, ha ▸ hp, hstores, hrun⟩

theorem getLsbD_and_complement (b a : Byte) {k : Nat} (h : k < 8) :
    (b &&& (a ^^^ 0xFF)).getLsbD k = (b.getLsbD k && !a.getLsbD k) := by
  have hcomplement : a ^^^ 0xFF = ~~~a := BitVec.xor_allOnes
  simp only [hcomplement, BitVec.getLsbD_and, BitVec.getLsbD_not, h, decide_true, Bool.true_and]

/-- Settles O28: neither has an accumulator form, so each writes memory once, and Z is of the value before that. -/
theorem testAndSetOrResetBits : Obligations.TestAndSetOrResetBits := by
  refine ⟨encodedAs_of_table .tsb (fun _ => rfl) (by decide +kernel),
    encodedAs_of_table .trb (fun _ => rfl) (by decide +kernel), fun i o op s hs hwf hi => ?_⟩
  have ho : o ≠ .acc := by
    rintro rfl
    rcases hi with ⟨rfl, -⟩ | ⟨rfl, -⟩ <;> exact absurd hwf (by decide)
  rcases hi with ⟨rfl, rfl⟩ | ⟨rfl, rfl⟩
  · exact runInstr_testAndWrite (m := .tsb) rfl hs ho fun _ _ _ _ => BitVec.getLsbD_or
  · exact runInstr_testAndWrite (m := .trb) rfl hs ho (op := fun b a => b && !a)
      fun b a _ => getLsbD_and_complement b a

/-! ## Shifts and rotates -/

/-- The byte with every bit moved one place, to the left or to the right, and `into` in the place left free. -/
def shifted (left into : Bool) (v : Byte) : Byte :=
  if left then (v <<< 1) ||| bitByte into else (v >>> 1) ||| (bitByte into <<< 7)

/-- The bit that moves out. -/
def shiftedOut (left : Bool) (v : Byte) : Bool := if left then v.getLsbD 7 else v.getLsbD 0

theorem toNat_shiftLeft_one_or (v : Byte) (into : Bool) :
    ((v <<< 1) ||| bitByte into).toNat = v.toNat * 2 % 256 + (if into then 1 else 0) := by
  have hor := Nat.two_pow_add_eq_or_of_lt (i := 1) (b := bit into) (by cases into <;> decide) (v.toNat % 128)
  have heven : (v <<< 1).toNat = 2 ^ 1 * (v.toNat % 128) := by
    rw [BitVec.toNat_shiftLeft, Nat.shiftLeft_eq]; omega
  have hinto : (bitByte into).toNat = bit into := by cases into <;> rfl
  rw [BitVec.toNat_or, heven, hinto, ← hor, bit]
  omega

theorem toNat_shiftRight_one_or (v : Byte) (into : Bool) :
    ((v >>> 1) ||| (bitByte into <<< 7)).toNat = v.toNat / 2 + (if into then 128 else 0) := by
  have hlow : v.toNat / 2 < 2 ^ 7 := by have := v.isLt; omega
  have hor := Nat.two_pow_add_eq_or_of_lt hlow (bit into)
  have htop : (bitByte into <<< 7).toNat = 2 ^ 7 * bit into := by cases into <;> rfl
  rw [BitVec.toNat_or, BitVec.toNat_ushiftRight, Nat.shiftRight_eq_div_pow, pow_one, htop, Nat.or_comm, ← hor, bit]
  cases into <;> simp [Nat.add_comm]

/-- The moved byte in integers, as R247 to R250 have it. -/
theorem toNat_shifted (left into : Bool) (v : Byte) :
    (shifted left into v).toNat =
      if left then v.toNat * 2 % 256 + (if into then 1 else 0) else v.toNat / 2 + (if into then 128 else 0) := by
  cases left
  · exact toNat_shiftRight_one_or v into
  · exact toNat_shiftLeft_one_or v into

theorem shifted_left_zero (v : Byte) : shifted true false v = v <<< 1 := BitVec.or_zero

theorem shifted_right_zero (v : Byte) : shifted false false v = v >>> 1 := BitVec.or_zero

/-- ASL and LSR move a 0 in, ROL and ROR the carry, which a resolver keeps. -/
theorem exec_shift_or_rotate {i : Instr} {o : Operand} {left into : Bool} {s : State}
    (hi : (i = .asl o ∧ left = true ∧ into = false) ∨ (i = .lsr o ∧ left = false ∧ into = false) ∨
      (i = .rol o ∧ left = true ∧ into = getFlag s.p .c) ∨ (i = .ror o ∧ left = false ∧ into = getFlag s.p .c)) :
    ∃ (m : Mnemonic) (bitIn : State → Bool), m.setsPc = false ∧ (∀ b, bitIn { s with bus := b } = bitIn s) ∧
      bitIn s = into ∧
      exec i s = runInstr m o
        (fun r t => shiftBack o r.ea (shiftedOut left r.ev) (shifted left (bitIn t) r.ev) t) s := by
  rcases hi with ⟨rfl, rfl, rfl⟩ | ⟨rfl, rfl, rfl⟩ | ⟨rfl, rfl, rfl⟩ | ⟨rfl, rfl, rfl⟩
  · exact ⟨.asl, fun _ => false, rfl, fun _ => rfl, rfl, by simp only [shifted_left_zero]; rfl⟩
  · exact ⟨.lsr, fun _ => false, rfl, fun _ => rfl, rfl, by simp only [shifted_right_zero]; rfl⟩
  · exact ⟨.rol, fun t => t.flag .c, rfl, fun _ => rfl, rfl, rfl⟩
  · exact ⟨.ror, fun t => t.flag .c, rfl, fun _ => rfl, rfl, rfl⟩

/-- Settles O29: the handler of each writes the moved byte back, with `SetNZ` of it and the bit moved out in C. -/
theorem shiftsAndRotatesMoveOneBit : Obligations.ShiftsAndRotatesMoveOneBit := by
  refine ⟨encodedAs_of_table .asl (fun _ => rfl) (by decide +kernel),
    encodedAs_of_table .lsr (fun _ => rfl) (by decide +kernel),
    encodedAs_of_table .rol (fun _ => rfl) (by decide +kernel),
    encodedAs_of_table .ror (fun _ => rfl) (by decide +kernel), fun i o left into s hs _ hi => ?_⟩
  obtain ⟨m, bitIn, hm, hkept, rfl, hexec⟩ := exec_shift_or_rotate hi
  obtain ⟨r, t, p, hr, hp, hback⟩ := runInstr_writeBack hm hs o
    fun r t => .shift t.p (shiftedOut left r.ev) (shifted left (bitIn t) r.ev)
  have hin : bitIn t = bitIn s := hr.apply_eq hkept
  exact ⟨r, t, shifted left (bitIn t) r.ev, p, hr, by rw [toNat_shifted, hin], hp, hexec ▸ hback⟩

end Sys2Proof.Machine
end

section
/-! PROOFS. Stack and flag instructions (44_stack_flags.md): the shapes of a push and of a pull, which write and read
the slot that S designates, and the flag instructions as one update of P. -/

namespace Sys2Proof.Machine

/-- An instruction without an operand whose handler completes and keeps PC. -/
theorem runInstr_imp_of_handler {m : Mnemonic} (hm : m.setsPc = false) {k : Resolved → State → Res Unit}
    {s t : State} (hk : k ⟨0, 0⟩ s = .ok () t) (hpc : t.pc = s.pc) :
    runInstr m .imp k s = .next { t with p := forced t.p, pc := s.pc + 1 } := by
  rw [runInstr_imp, hk, advance_eq_length hm, complete_ok, hpc]
  rfl

/-! ## Pushes -/

/-- The forcing leaves no freedom: a status byte is fixed by what was written and by the byte before. -/
theorem StatusIs.unique {p q old : Byte} {w : Flag → Option Bool} (hp : StatusIs p old w) (hq : StatusIs q old w) :
    p = q := eq_of_getFlag fun f => (hp f).trans (hq f).symm

/-- An instruction whose handler pushes a byte of the state (R270): one bus write at the slot S designates, then S
falls by 1. -/
theorem runInstr_push {m : Mnemonic} (hm : m.setsPc = false) {s : State} (hs : s.Wf) (source : State → Byte) :
    ∃ b' p, Bus.Stores s.cfg (stackAddr s.sp) (source s) s.bus b' ∧
      Bus.MemoryIs s.bus b'
        (fun g off => if s.bus.stackSlot s.sp g off then source s else (s.bus.mem g).read off) ∧
      StatusIs p s.p noFlags ∧
      runInstr m .imp (fun _ t => t.push (source t)) s =
        .next { s with bus := b', sp := s.sp - 1, p := p, pc := s.pc + 1 } := by
  have hrun := runInstr_imp_of_handler hm (k := fun _ t => t.push (source t)) (State.push_eq hs.size (source s)) rfl
  exact ⟨_, _, State.push_stores hs (source s), Bus.pushed_memoryIs hs.bus s.sp (source s), .none s.p, hrun⟩

/-- Settles O30: each is `runInstr_push` of its register, PHP of P with B and U forced. -/
theorem pushesWriteAtTheStackPointer : Obligations.PushesWriteAtTheStackPointer := by
  refine ⟨by decide, by decide, by decide, by decide, fun i v s hs hi => ?_⟩
  rcases hi with ⟨rfl, rfl⟩ | ⟨rfl, hv⟩ | ⟨rfl, rfl⟩ | ⟨rfl, rfl⟩
  · exact runInstr_push (m := .pha) rfl hs State.a
  · obtain rfl : v = forced s.p := hv.unique (.none s.p)
    exact runInstr_push (m := .php) rfl hs fun t => forced t.p
  · exact runInstr_push (m := .phx) rfl hs State.x
  · exact runInstr_push (m := .phy) rfl hs State.y

/-! ## Pulls -/

/-- An instruction whose handler pulls a byte (R271) and updates registers other than PC with it, from the state in
which S has risen by 1; the flags it writes are those that `w` names, over `old`. -/
theorem runInstr_pull {m : Mnemonic} (hm : m.setsPc = false) {s : State} (hs : s.Wf) (f : Byte → State → State)
    {old : Byte} {w : Flag → Option Bool} (hpc : ∀ v t, (f v t).pc = t.pc)
    (hp : StatusIs (forced (f (s.bus.stackByte (s.sp + 1)) { s with sp := s.sp + 1 }).p) old w) :
    ∃ p, StatusIs p old w ∧
      runInstr m .imp (fun _ t => t.pop.bind fun v t => .ok () (f v t)) s =
        .next { f (s.bus.stackByte (s.sp + 1)) { s with sp := s.sp + 1 } with p := p, pc := s.pc + 1 } :=
  ⟨_, hp, runInstr_imp_of_handler hm (by rw [State.pop_stackByte hs.size, Res.bind_ok]) (hpc _ _)⟩

/-- Settles O31: PLA, PLX and PLY load their register with the byte pulled, and PLP puts it in P before the forcing. -/
theorem pullsReadAboveTheStackPointer : Obligations.PullsReadAboveTheStackPointer := by
  refine ⟨by decide, by decide, by decide, by decide, ?_⟩
  rintro s hs v rfl
  refine ⟨?pla, ?plp, ?plx, ?ply⟩
  case pla => exact runInstr_pull (m := .pla) rfl hs (fun v t => t.loadA v) (fun v t => State.loadA_pc t v) (.nz s.p _)
  case plp => exact runInstr_pull (m := .plp) rfl hs (fun v t => { t with p := v }) (fun _ _ => rfl) (.none _)
  case plx => exact runInstr_pull (m := .plx) rfl hs (fun v t => t.loadX v) (fun v t => State.loadX_pc t v) (.nz s.p _)
  case ply => exact runInstr_pull (m := .ply) rfl hs (fun v t => t.loadY v) (fun v t => State.loadY_pc t v) (.nz s.p _)

/-! ## Flag instructions -/

/-- The flag instructions, each with its flag and the value it writes there (R280 to R286). -/
def flagInstructions : List (Instr × Flag × Bool) :=
  [(.clc, .c, false), (.sec, .c, true), (.cli, .i, false), (.sei, .i, true), (.cld, .d, false), (.sed, .d, true),
    (.clv, .v, false)]

/-- Each flag instruction is the update of its one flag. -/
theorem exec_flagInstruction {i : Instr} {g : Flag} {on : Bool} (h : (i, g, on) ∈ flagInstructions) (s : State) :
    i.mnemonic.setsPc = false ∧ exec i s = runInstr i.mnemonic .imp (fun _ t => .ok () (t.withFlag g on)) s := by
  simp only [flagInstructions, List.mem_cons, List.not_mem_nil, or_false, Prod.mk.injEq] at h
  rcases h with ⟨rfl, rfl, rfl⟩ | ⟨rfl, rfl, rfl⟩ | ⟨rfl, rfl, rfl⟩ | ⟨rfl, rfl, rfl⟩ | ⟨rfl, rfl, rfl⟩ |
    ⟨rfl, rfl, rfl⟩ | ⟨rfl, rfl, rfl⟩ <;> exact ⟨rfl, rfl⟩

/-- Settles O32: `withFlag` writes P alone, and of P its one flag. -/
theorem flagInstructionsWriteOneFlag : Obligations.FlagInstructionsWriteOneFlag := by
  refine ⟨by decide, by decide, by decide, by decide, by decide, by decide, by decide, fun i g on s h => ?_⟩
  obtain ⟨hm, hexec⟩ := exec_flagInstruction h s
  rw [hexec]
  exact runInstr_imp_update hm (fun t => t.withFlag g on) (State.withFlag_pc ..) (.one s.p g on)

end Sys2Proof.Machine
end

section
/-! PROOFS. Control flow (45_control_flow.md): an instruction that writes PC ends its step without an advance; what
the pushes and pulls of a return address leave, and the vector of the trap behind them. -/

namespace Sys2Proof.Machine

/-! ## An instruction that writes PC -/

/-- The step of an instruction that writes PC ends with what its handler gives, and no advance (R19). -/
theorem runInstr_of_setsPc {m : Mnemonic} (hm : m.setsPc = true) {o : Operand} {k : Resolved → State → Res Unit}
    {r : Resolved} {s t : State} (hr : resolve o s = .ok r t) : runInstr m o k s = complete 0 (k r t) := by
  have hadvance : advance m o = 0 := if_pos hm
  rw [runInstr_of_resolve hr, hadvance]

theorem complete_zero (s : State) : complete 0 (.ok () s) = .next { s with p := forced s.p } := by
  rw [complete_ok, BitVec.ofNat_eq_ofNat, BitVec.add_zero]

/-! ## Branches -/

/-- The branches of displacement `d`, each with whether it is taken where P is `p` (R301 to R309). -/
def branchesTaken (d p : Byte) : List (Instr × Bool) :=
  [(.bcc d, !getFlag p .c), (.bcs d, getFlag p .c), (.beq d, getFlag p .z), (.bne d, !getFlag p .z),
    (.bmi d, getFlag p .n), (.bpl d, !getFlag p .n), (.bvc d, !getFlag p .v), (.bvs d, getFlag p .v), (.bra d, true)]

/-- Each branch runs the branch core on its condition and the relative target, with no advance. -/
theorem exec_branch {i : Instr} {d : Byte} {taken : Bool} {s : State} (h : (i, taken) ∈ branchesTaken d s.p) :
    exec i s = complete 0 (branch (fun _ => taken) ⟨s.pc + 2 + sext8 d, 0⟩ s) := by
  simp only [branchesTaken, List.mem_cons, List.not_mem_nil, or_false, Prod.mk.injEq] at h
  rcases h with ⟨rfl, rfl⟩ | ⟨rfl, rfl⟩ | ⟨rfl, rfl⟩ | ⟨rfl, rfl⟩ | ⟨rfl, rfl⟩ | ⟨rfl, rfl⟩ | ⟨rfl, rfl⟩ |
    ⟨rfl, rfl⟩ | ⟨rfl, rfl⟩ <;> rfl

/-- A word and 2 in exact integers, narrowed. -/
theorem add_two_eq_ofInt (pc : Word) : pc + 2 = BitVec.ofInt 16 ((pc.toNat : Int) + 2) := by
  simp [BitVec.ofInt_add]

/-- The relative target in exact integers, narrowed (40_addressing_modes.md R167). -/
theorem relativeTarget_eq_ofInt (pc : Word) (d : Byte) :
    pc + 2 + sext8 d = BitVec.ofInt 16 ((pc.toNat : Int) + 2 + d.toInt) := by
  rw [BitVec.ofInt_add _ d.toInt, ← add_two_eq_ofInt]
  rfl

/-- Settles O33: the branch core writes PC in either case, with the resolver's target or the next address. -/
theorem branchesGoWhereTheirFlagSays : Obligations.BranchesGoWhereTheirFlagSays := by
  refine ⟨fun _ => ⟨rfl, rfl, rfl, rfl, rfl, rfl, rfl, rfl, rfl⟩, fun i d taken s h => ⟨forced s.p, .none s.p, ?_⟩⟩
  rw [exec_branch h, branch, complete_zero]
  cases taken
  · simp only [Bool.false_eq_true, if_false, add_two_eq_ofInt, Int.add_zero]
  · simp only [if_true, relativeTarget_eq_ofInt]

/-! ## Jumps -/

/-- The absolute mode resolves to its operand. -/
theorem ResolvesTo.ea_abs {w : Word} {s t : State} {r : Resolved} (h : ResolvesTo (.abs w) s r t) : r.ea = w := by
  have hread : (s.read w).bind (fun ev u => .ok ⟨w, ev⟩ u) = .ok r t := h.result
  obtain ⟨v, u, -, hv⟩ := Res.bind_eq_ok hread
  cases hv
  rfl

/-- Settles O34: the handler of JMP writes PC alone, with the resolver's address. -/
theorem jumpGoesToTheResolvedAddress : Obligations.JumpGoesToTheResolvedAddress := by
  refine ⟨encodedAs_of_table .jmp (fun _ => rfl) (by decide +kernel), fun o s hs _ => ?_⟩
  obtain ⟨r, t, hr, rd⟩ := resolvesTo hs o
  refine ⟨r, t, forced t.p, hr, rd.p ▸ .none t.p, fun w ho => (ho ▸ hr).ea_abs, ?_⟩
  rw [exec, execJmp, runInstr_of_setsPc rfl hr.result, complete_zero]

/-! ## Bytes pushed in a row -/

/-- A byte of a segment is in one stack slot at most, so it can be looked for in two slots in either order. -/
theorem Bus.ite_stackSlot_comm (b : Bus) {sp sp' : Byte} (hne : sp' ≠ sp) (g : Segment) (off : Nat) (v w old : Byte) :
    (if b.stackSlot sp g off then v else if b.stackSlot sp' g off then w else old) =
      if b.stackSlot sp' g off then w else if b.stackSlot sp g off then v else old := by
  refine ite_ite_comm _ _ v w fun h h' => ?_
  simp only [Bus.stackSlot, Bool.and_eq_true, decide_eq_true_eq] at h h'
  exact hne (BitVec.eq_of_toNat_eq (by omega))

theorem Bus.MemoryIs.congr {b b' : Bus} {f f' : Segment → Nat → Byte} (h : b.MemoryIs b' f)
    (hf : ∀ g off, f' g off = f g off) : b.MemoryIs b' f' :=
  (funext₂ hf : f' = f) ▸ h

/-- One more byte pushed: it lies in its slot, over what the pushes before it left. -/
theorem Bus.MemoryIs.pushed {c : Cfg} {b b' : Bus} {f : Segment → Nat → Byte} (h : b.MemoryIs b' f) (hb : b'.Wf c)
    (sp v : Byte) :
    b.MemoryIs (b'.pushed sp v) fun g off => if b.stackSlot sp g off then v else f g off := by
  have hpush := Bus.pushed_memoryIs hb sp v
  refine ⟨fun g off => ?_, hpush.ms.trans h.ms, hpush.drive1.trans h.drive1, hpush.drive2.trans h.drive2,
    hpush.selected.trans h.selected, hpush.draws.trans h.draws⟩
  rw [hpush.bytes, h.bytes, Bus.stackSlot, h.ms]
  rfl

/-- The bus after a return address was pushed, high byte first (R313, R315). -/
def Bus.pushedReturn (b : Bus) (sp : Byte) (ret : Word) : Bus := (b.pushed sp (hi ret)).pushed (sp - 1) (lo ret)

theorem Bus.Wf.pushedReturn {c : Cfg} (hc : fullSize c = true) {b : Bus} (hb : b.Wf c) (sp : Byte) (ret : Word) :
    (b.pushedReturn sp ret).Wf c := (hb.pushed hc _ _).pushed hc _ _

/-- The high byte of a pushed return address lies in the upper slot, the low byte in the slot below it. -/
theorem Bus.pushedReturn_memoryIs {c : Cfg} (hc : fullSize c = true) {b : Bus} (hb : b.Wf c) (sp : Byte) (ret : Word) :
    b.MemoryIs (b.pushedReturn sp ret) fun g off =>
      if b.stackSlot sp g off then BitVec.ofNat 8 (ret.toNat / 256)
      else if b.stackSlot (sp - 1) g off then BitVec.ofNat 8 (ret.toNat % 256)
      else (b.mem g).read off := by
  have hslots : sp - 1 ≠ sp := by bv_omega
  have hpushed := (Bus.pushed_memoryIs hb sp (hi ret)).pushed (hb.pushed hc _ _) (sp - 1) (lo ret)
  rw [← hi_eq, ← lo_eq]
  exact hpushed.congr fun g off => b.ite_stackSlot_comm hslots g off (hi ret) (lo ret) _

/-- Pushing the return address moves S down by 2 and changes nothing but its two slots. -/
theorem State.pushReturn_eq {s : State} (h : fullSize s.cfg = true) :
    s.pushReturn = .ok () { s with bus := s.bus.pushedReturn s.sp (s.pc + 2), sp := s.sp - 2 } := by
  have hsp : s.sp - 1 - 1 = s.sp - 2 := by bv_omega
  simp only [State.pushReturn, State.push_eq, h, Res.bind_ok, hsp, Bus.pushedReturn]

/-! ## JSR and RTS -/

/-- Settles O35: after its resolver JSR pushes the return address and writes PC with its operand. -/
theorem jsrPushesTheReturnAddress : Obligations.JsrPushesTheReturnAddress := by
  refine ⟨fun _ => rfl, fun w s hs => ?_⟩
  obtain ⟨r, t, hr, rd⟩ := resolvesTo hs (.abs w)
  refine ⟨r, t, t.bus.pushedReturn s.sp (s.pc + 2), forced s.p, hr, .none s.p,
    Bus.pushedReturn_memoryIs hs.size (rd.cfg ▸ (rd.wf hs).bus) s.sp (s.pc + 2), ?_⟩
  rw [exec, execJsr, runInstr_of_setsPc rfl hr.result, State.pushReturn_eq (rd.fullSize hs), Res.bind_ok, complete_zero,
    hr.ea_abs, rd.sp, rd.pc, rd.p]

/-- The stack part of RTS: two bytes pulled, low byte first, and one added. -/
theorem State.returnFromSubroutine_eq {s : State} (h : fullSize s.cfg = true) :
    s.returnFromSubroutine = .ok () { s with
      sp := s.sp + 2
      pc := word (s.bus.stackByte (s.sp + 2)) (s.bus.stackByte (s.sp + 1)) + 1 } := by
  have hsp : s.sp + 1 + 1 = s.sp + 2 := by bv_omega
  simp only [State.returnFromSubroutine, State.pop_stackByte, h, Res.bind_ok, hsp]

/-- Settles O36: RTS resolves nothing and runs `returnFromSubroutine`, which keeps P. -/
theorem rtsReturnsPastThePulledAddress : Obligations.RtsReturnsPastThePulledAddress := by
  refine ⟨rfl, fun s hs => ⟨forced s.p, .none s.p, ?_⟩⟩
  rw [exec, execRts, runInstr_of_setsPc rfl (resolve_imp s), State.returnFromSubroutine_eq hs.size, complete_zero]
  rfl

/-! ## BRK and RTI -/

/-- From $E000 up a read reaches ROM or bank RAM, never the zero page or the stack page (22_soft_switches.md R81). -/
theorem Bus.readTarget_vectors (c : Cfg) (b : Bus) {a : Word} (h : 0xE000 ≤ a.toNat) :
    ∃ g off, 0x200 ≤ off ∧ ∀ b' : Bus, b'.ms = b.ms → b'.readTarget c a = .cell g off := by
  have hbank : ¬ (a.toNat ≤ 0xDFFF ∧ b.ms.bankSel = .two) := by omega
  by_cases hrom : b.ms.bankRead = .rom
  · exact ⟨.rom, a.toNat - 0xC000, by omega, fun b' hms => by
      rw [Bus.readTarget_banked c b' (by omega), hms, if_pos hrom]⟩
  · exact ⟨ramSegment b.ms.sysBlockAux, a.toNat, by omega, fun b' hms => by
      rw [Bus.readTarget_banked c b' (by omega), hms, if_neg hrom, bankRAM, if_neg hbank]⟩

/-- A push changes no byte behind a vector. -/
theorem Bus.peek_pushed {c : Cfg} {b : Bus} (hb : b.Wf c) (sp v : Byte) {a : Word} (h : 0xE000 ≤ a.toNat) :
    (b.pushed sp v).peek c a = b.peek c a := by
  obtain ⟨g, off, hoff, htarget⟩ := Bus.readTarget_vectors c b h
  have hsp := sp.isLt
  have hslot : ¬ (g = ramSegment b.ms.sysBlockAux ∧ off = 0x100 + sp.toNat) := by omega
  simp only [Bus.peek, htarget _ (Bus.pushed_ms b sp v), htarget b rfl, Bus.pushed_read hb, if_neg hslot]

/-- The bus after the trap pushed the return address and the status (R413). -/
def Bus.pushedTrap (b : Bus) (sp : Byte) (ret : Word) (p : Byte) : Bus := (b.pushedReturn sp ret).pushed (sp - 2) p

/-- The three slots of a trap, from the highest: high byte and low byte of the return address, status. -/
theorem Bus.pushedTrap_memoryIs {c : Cfg} (hc : fullSize c = true) {b : Bus} (hb : b.Wf c) (sp : Byte) (ret : Word)
    (p : Byte) :
    b.MemoryIs (b.pushedTrap sp ret p) fun g off =>
      if b.stackSlot sp g off then BitVec.ofNat 8 (ret.toNat / 256)
      else if b.stackSlot (sp - 1) g off then BitVec.ofNat 8 (ret.toNat % 256)
      else if b.stackSlot (sp - 2) g off then p
      else (b.mem g).read off := by
  have hhigh : sp - 2 ≠ sp := by bv_omega
  have hlow : sp - 2 ≠ sp - 1 := by bv_omega
  have hpushed := (Bus.pushedReturn_memoryIs hc hb sp ret).pushed (hb.pushedReturn hc _ _) (sp - 2) p
  exact hpushed.congr fun g off => by
    rw [b.ite_stackSlot_comm hlow, b.ite_stackSlot_comm hhigh]

theorem Bus.peek_pushedTrap {c : Cfg} (hc : fullSize c = true) {b : Bus} (hb : b.Wf c) (sp : Byte) (ret : Word)
    (p : Byte) {a : Word} (h : 0xE000 ≤ a.toNat) : (b.pushedTrap sp ret p).peek c a = b.peek c a := by
  rw [Bus.pushedTrap, Bus.peek_pushed (hb.pushedReturn hc _ _) _ _ h, Bus.pushedReturn,
    Bus.peek_pushed (hb.pushed hc _ _) _ _ h, Bus.peek_pushed hb _ _ h]

/-- Taking the trap: the pushes do not reach the vector, so PC is the word behind it before the instruction. -/
theorem State.enterTrap_eq {s : State} (hs : s.Wf) {l h : Byte} (hl : s.bus.peek s.cfg 0xFFFE = some l)
    (hh : s.bus.peek s.cfg 0xFFFF = some h) :
    s.enterTrap = .ok () { s with
      bus := s.bus.pushedTrap s.sp (s.pc + 2) (forced s.p)
      sp := s.sp - 3
      p := setFlag (setFlag s.p .i true) .d false
      pc := word h l } := by
  have hsp : s.sp - 2 - 1 = s.sp - 3 := by bv_omega
  have hpushed := State.push_eq (s := { s with bus := s.bus.pushedReturn s.sp (s.pc + 2), sp := s.sp - 2 }) hs.size
    (forced s.p)
  have hread := State.read16_of_peek (s := { s with
      bus := s.bus.pushedTrap s.sp (s.pc + 2) (forced s.p)
      sp := s.sp - 2 - 1
      p := setFlag (setFlag s.p .i true) .d false }) hs.size
    ((Bus.peek_pushedTrap hs.size hs.bus _ _ _ (by decide)).trans hl)
    ((Bus.peek_pushedTrap hs.size hs.bus _ _ _ (by decide)).trans hh)
  rw [State.enterTrap, State.pushReturn_eq hs.size, Res.bind_ok, hpushed, Res.bind_ok, ← hsp]
  exact congrArg (Res.bind · _) hread

/-- The flags that the trap writes: I is set and D cleared. -/
def trapFlags (f : Flag) : Option Bool := if f = .i then some true else if f = .d then some false else none

theorem StatusIs.trap (p : Byte) : StatusIs (forced (setFlag (setFlag p .i true) .d false)) p trapFlags :=
  .of_forced fun f _ _ => by cases f <;> simp [trapFlags]

/-- Settles O37: BRK resolves nothing and takes the trap; the vector is behind no read handler. -/
theorem brkTakesTheTrap : Obligations.BrkTakesTheTrap := by
  refine ⟨rfl, fun s hs => ?_⟩
  obtain ⟨gl, ol, -, hl⟩ := Bus.peek_high s.cfg s.bus (a := 0xFFFE) (by decide)
  obtain ⟨gh, oh, -, hh⟩ := Bus.peek_high s.cfg s.bus (a := 0xFFFF) (by decide)
  refine ⟨_, _, forced s.p, s.bus.pushedTrap s.sp (s.pc + 2) (forced s.p), _, hl, hh, .none s.p, .trap s.p,
    Bus.pushedTrap_memoryIs hs.size hs.bus s.sp (s.pc + 2) (forced s.p), ?_⟩
  rw [exec, execBrk, runInstr_of_setsPc rfl (resolve_imp s), State.enterTrap_eq hs hl hh, complete_zero]
  rfl

/-- Returning from the trap: three bytes pulled, status first, then the low byte of PC. -/
theorem State.returnFromTrap_eq {s : State} (h : fullSize s.cfg = true) :
    s.returnFromTrap = .ok () { s with
      sp := s.sp + 3
      p := s.bus.stackByte (s.sp + 1)
      pc := word (s.bus.stackByte (s.sp + 3)) (s.bus.stackByte (s.sp + 2)) } := by
  have hsp : s.sp + 1 + 1 = s.sp + 2 := by bv_omega
  have hsp' : s.sp + 2 + 1 = s.sp + 3 := by bv_omega
  simp only [State.returnFromTrap, State.pop_stackByte, h, Res.bind_ok, hsp, hsp']

/-- Settles O38: RTI resolves nothing and runs `returnFromTrap`; the step then forces B and U. -/
theorem rtiRestoresStatusAndCounter : Obligations.RtiRestoresStatusAndCounter := by
  refine ⟨rfl, fun s hs => ⟨forced (s.bus.stackByte (s.sp + 1)), .none _, ?_⟩⟩
  rw [exec, execRti, runInstr_of_setsPc rfl (resolve_imp s), State.returnFromTrap_eq hs.size, complete_zero]
  rfl

/-! ## No-ops -/

/-- An instruction whose operand resolves to nothing and whose handler changes nothing: the step forces B and U and
advances PC by the length. -/
theorem runInstr_noOp {m : Mnemonic} (hm : m.setsPc = false) (o : Operand) {s : State}
    (ho : resolve o s = .ok ⟨0, 0⟩ s) :
    runInstr m o (fun _ t => .ok () t) s = .next { s with p := forced s.p, pc := s.pc + BitVec.ofNat 16 o.length } := by
  rw [runInstr_of_resolve ho, advance_eq_length hm, complete_ok]

/-- Settles O40: the four are `runInstr_noOp`; the operand bytes of NOP2 and NOP3 enter only its length. -/
theorem noOpsOnlyAdvance : Obligations.NoOpsOnlyAdvance := by
  refine ⟨rfl, fun i n s h => ⟨forced s.p, .none s.p, ?_⟩⟩
  rcases h with ⟨rfl, rfl⟩ | ⟨op, rfl, rfl⟩ | ⟨op, b, rfl, rfl⟩ | ⟨op, w, rfl, rfl⟩
  · exact runInstr_noOp (m := .nop) rfl .imp rfl
  · exact runInstr_noOp (m := .nop1) rfl .imp rfl
  · exact runInstr_noOp (m := .nop2) rfl (.by2 b) rfl
  · exact runInstr_noOp (m := .nop3) rfl (.by3 w) rfl

end Sys2Proof.Machine
end

section
/-! PROOFS. The drive (51_drive.md): the head's move by the phase table, and the strobe, which moves one byte at the
head and advances around the track. -/

namespace Sys2Proof.Machine

/-! ## The head (R383, R384) -/

theorem headDelta_eq (step : HeadStep) :
    headDelta step = if step = .inward then 1 else if step = .outward then -1 else 0 := by
  cases step <;> rfl

theorem Drive.stepPhase_of_none (c : Cfg) (d : Drive) {n : Nat} (h : phaseOf n = none) : d.stepPhase c n = d := by
  rw [Drive.stepPhase, h]

/-- A phase-on switch: the phase is the switch's, and where the table commands a step, the head moves by it within the
disk and the offset is reset, also when the clamp holds the head where it was. -/
theorem Drive.stepPhase_of_some (c : Cfg) (d : Drive) {n : Nat} {new : Fin 5} (h : phaseOf n = some new) :
    d.stepPhase c n =
      (let delta := headDelta (c.phaseTable[d.phase])[new]
       { d with
         phase := new
         trackPos := if delta = 0 then d.trackPos else (min 69 (max 0 ((d.trackPos : Int) + delta))).toNat
         sectorPos := if delta = 0 then d.sectorPos else 0 }) := by
  rw [Drive.stepPhase, h]
  dsimp only
  generalize (c.phaseTable[d.phase])[new] = step
  cases step <;> rfl

/-- Settles O49: an even low nibble selects no phase, and each odd one selects its own. -/
theorem headStepsByThePhaseTable : Obligations.HeadStepsByThePhaseTable := by
  intro c d
  have heven : ∀ n ∈ [0, 2, 4, 6], phaseOf n = none := by decide
  have hodd : ∀ e ∈ ([(1, 1), (3, 2), (5, 3), (7, 4)] : List (Nat × Fin 5)), phaseOf e.1 = some e.2 := by decide
  refine ⟨fun n hn => Drive.stepPhase_of_none c d (heven n hn), fun e he => ?_⟩
  rw [Drive.stepPhase_of_some c d (hodd e he), headDelta_eq]

/-! ## One byte at the head (R387, R390 to R393) -/

/-- The offset after one advance around the track; a locked drive stays. -/
def Drive.nextOffset (d : Drive) : Nat :=
  if d.locked then d.sectorPos else if d.sectorPos + 1 = 6656 then 0 else d.sectorPos + 1

theorem Drive.shift_one {d : Drive} (h : d.sectorPos < physTrackLen) :
    d.shift 1 = { d with sectorPos := d.nextOffset } := by
  rw [physTrackLen] at h
  unfold Drive.shift Drive.nextOffset physTrackLen
  by_cases hlocked : d.locked = true
  · rw [if_pos hlocked, if_pos hlocked]
  · have hend : ((d.sectorPos : Int) + 1 < 0 ∨ ((6656 : Nat) : Int) ≤ d.sectorPos + 1) ↔ d.sectorPos + 1 = 6656 := by
      omega
    simp only [if_neg hlocked, hend]
    rfl

/-- The buffer after a write at the head (R393): the latch goes in only with bit 7 set, on an unprotected disk. -/
def Drive.committed (d : Drive) (bytes : List Byte) : List Byte :=
  if d.latch.getLsbD 7 = true ∧ d.writeProtect = false then bytes.set d.pos d.latch else bytes

theorem Bus.Wf.pos_lt_length {c : Cfg} {b : Bus} (hb : b.Wf c) {bytes : List Byte} (hdata : b.drive.data = some bytes) :
    b.drive.pos < bytes.length :=
  hb.drive.data bytes hdata ▸ Drive.pos_lt hb.drive

theorem Bus.driveRead_disk {c : Cfg} {b : Bus} (hb : b.Wf c) {bytes : List Byte} (hdata : b.drive.data = some bytes) :
    b.driveRead = .ok ()
      (b.setDrive { b.drive with latch := bytes.getD b.drive.pos 0, sectorPos := b.drive.nextOffset }) := by
  have hpos := hb.pos_lt_length hdata
  rw [Bus.driveRead, hdata, ← List.getElem_eq_getD (h := hpos)]
  simp only [List.getElem?_eq_getElem hpos]
  rw [Drive.shift_one]
  · rfl
  · exact hb.drive.sector

theorem Bus.setDrive_withDraws (b : Bus) (d : Drive) (k : Nat) :
    { b with draws := k }.setDrive d = { b.setDrive d with draws := k } := by
  unfold Bus.setDrive
  cases b.selected <;> rfl

theorem Bus.driveRead_empty {c : Cfg} {b : Bus} (hb : b.Wf c) (hdata : b.drive.data = none) :
    b.driveRead = .ok ()
      { b.setDrive { b.drive with latch := Config.freeByte b.draws, sectorPos := b.drive.nextOffset } with
        draws := b.draws + 1 } := by
  rw [Bus.driveRead, hdata]
  simp only [Bus.draw_eq, BusRes.bind, Bus.drive_withDraws]
  rw [Drive.shift_one, Bus.setDrive_withDraws]
  · rfl
  · exact hb.drive.sector

theorem Bus.driveWrite_disk {c : Cfg} {b : Bus} (hb : b.Wf c) {bytes : List Byte} (hdata : b.drive.data = some bytes) :
    b.driveWrite = .ok ()
      (b.setDrive { b.drive with data := some (b.drive.committed bytes), sectorPos := b.drive.nextOffset }) := by
  have hcommit : (b.drive.latch.msb && !b.drive.writeProtect) = true ↔
      b.drive.latch.getLsbD 7 = true ∧ b.drive.writeProtect = false := by
    simp [BitVec.msb_eq_getLsbD_last]
  have hsame : { b.drive with data := some bytes, sectorPos := b.drive.nextOffset } =
      { b.drive with sectorPos := b.drive.nextOffset } := by rw [← hdata]
  rw [Bus.driveWrite, hdata, Drive.committed]
  simp only [hcommit, hb.pos_lt_length hdata, if_true]
  split
  · rw [Drive.shift_one]
    · rfl
    · exact hb.drive.sector
  · rw [Drive.shift_one hb.drive.sector, hsame]

theorem Bus.driveWrite_empty {c : Cfg} {b : Bus} (hb : b.Wf c) (hdata : b.drive.data = none) :
    b.driveWrite = .ok () (b.setDrive { b.drive with sectorPos := b.drive.nextOffset }) := by
  rw [Bus.driveWrite, hdata, Drive.shift_one hb.drive.sector]

/-! ## Accesses of the drive's addresses -/

/-- The row of the drives in the default table. -/
theorem driveRow_mem : (⟨0xC0E0, 0xC0FF, some .drive, some .drive⟩ : SwitchRow) ∈ switchMap := by decide

theorem Bus.read_drive {c : Cfg} (hc : defaultMap c) (b : Bus) {a : Word} (h1 : 0xC0E0 ≤ a.toNat)
    (h2 : a.toNat ≤ 0xC0FF) : b.read c a = b.driveReadAccess c a :=
  Bus.read_of_row hc b driveRow_mem h1 h2 rfl

theorem Bus.write_drive {c : Cfg} (hc : defaultMap c) (b : Bus) {a : Word} (h1 : 0xC0E0 ≤ a.toNat)
    (h2 : a.toNat ≤ 0xC0FF) (v : Byte) : b.write c a v = b.driveWriteAccess c a v :=
  Bus.write_of_row hc b driveRow_mem h1 h2 rfl v

/-- The strobe runs `Read` or `Write` by the mode, for a read and for a write access; a read then returns the latch. -/
theorem Bus.strobe_access {c : Cfg} (hc : defaultMap c) {b b' : Bus} {a : Word} (ha : a = 0xC0EC ∨ a = 0xC0FC)
    {mode : DriveMode} (hmode : b.drive.mode = mode)
    (hstrobe : (if mode = .read then b.driveRead else b.driveWrite) = .ok () b') (v : Byte) :
    b.read c a = .ok b'.drive.latch b' ∧ b.write c a v = .ok () b' := by
  have hnibble : 0xC0E0 ≤ a.toNat ∧ a.toNat ≤ 0xC0FF ∧ a.toNat % 16 = 0xC := by
    rcases ha with rfl | rfl <;> decide
  obtain ⟨hlow, hhigh, hmod⟩ := hnibble
  have heffect : ∀ w, b.driveEffect c 0xC w = .ok () b' := fun w => by
    rw [← hstrobe, Bus.driveEffect, hmode]
    cases mode <;> rfl
  rw [Bus.read_drive hc b hlow hhigh, Bus.write_drive hc b hlow hhigh, Bus.driveReadAccess, Bus.driveWriteAccess, hmod,
    heffect, heffect]
  exact ⟨rfl, rfl⟩

/-- Settles O50: by `strobe_access` each case is the `Read` or the `Write` of the drive, with a disk or without. -/
theorem strobeMovesOneByteAndAdvances : Obligations.StrobeMovesOneByteAndAdvances := by
  intro c b a v hc hb ha
  refine ⟨fun bytes hdata hmode => ?_, fun bytes hdata hmode => ?_, fun hdata hmode => ?_, fun hdata hmode => ?_⟩
  · have haccess := Bus.strobe_access hc ha hmode (Bus.driveRead_disk hb hdata) v
    rwa [Bus.drive_setDrive] at haccess
  · have haccess := Bus.strobe_access hc ha hmode (Bus.driveWrite_disk hb hdata) v
    rwa [Bus.drive_setDrive] at haccess
  · have haccess := Bus.strobe_access hc ha hmode (Bus.driveRead_empty hb hdata) v
    rw [Bus.drive_withDraws, Bus.drive_setDrive] at haccess
    exact ⟨_, _, haccess⟩
  · have haccess := Bus.strobe_access hc ha hmode (Bus.driveWrite_empty hb hdata) v
    rwa [Bus.drive_setDrive] at haccess

end Sys2Proof.Machine
end

section
/-! PROOFS. Boot (70_reset_and_hazards.md R430): an image of the right length is copied whole into its segment, and
what Boot does depends on the two copies alone. -/

namespace Sys2Proof.Machine

/-- An image is copied whole, or it is missing or of another length and there is no copy. -/
theorem imageCopy_cases {size len : Nat} (hsize : len ≤ size) (m : Memory) (image : Option (List Byte)) :
    (∃ bytes, image = some bytes ∧ bytes.length = len ∧ imageCopy size len m image = some (m.writeList 0 bytes)) ∨
    ((image = none ∨ ∃ bytes, image = some bytes ∧ bytes.length ≠ len) ∧ imageCopy size len m image = none) := by
  cases image with
  | none => exact .inr ⟨.inl rfl, rfl⟩
  | some bytes =>
    by_cases hlen : bytes.length = len
    · have hfits : 0 + bytes.length ≤ size := by omega
      exact .inl ⟨bytes, rfl, hlen, by simp only [imageCopy, Memory.copyIn, if_pos hlen, if_pos hfits, Option.map_some]⟩
    · exact .inr ⟨.inr ⟨bytes, rfl, hlen⟩, if_neg hlen⟩

/-- The segment behind a whole copy holds the image. -/
theorem Memory.read_writeList_zero {m : Memory} (hm : m.wf = true) {bytes : List Byte} {k : Nat}
    (hk : k < bytes.length) : (m.writeList 0 bytes).read k = bytes.getD k 0 := by
  rw [Memory.read_writeList hm, if_pos ⟨Nat.zero_le k, by omega⟩, Nat.sub_zero]

/-- A configured boot vector replaces the bytes at 0x3FFC and 0x3FFD, low byte first. -/
theorem read_setBootVector_some {m : Memory} (hm : m.wf = true) (w : Word) (k : Nat) :
    (setBootVector m (some w)).read k =
      if k = 0x3FFC then BitVec.ofNat 8 (w.toNat % 256)
      else if k = 0x3FFD then BitVec.ofNat 8 (w.toNat / 256) else m.read k := by
  rw [setBootVector, Memory.read_write (Memory.wf_write hm ..), Memory.read_write hm, hi_eq, lo_eq]
  by_cases hlow : k = 0x3FFC
  · rw [if_neg (by omega), if_pos hlow, if_pos hlow]
  · rw [if_neg hlow, if_neg hlow]

/-- Two copies make Boot a Reset of the machine that holds them. -/
theorem State.boot_of_copies {s : State} {rom slot : Option (List Byte)} {r sl : Memory}
    (hrom : imageCopy s.cfg.romSize romImageLen s.bus.rom rom = some r)
    (hslot : imageCopy s.cfg.slotROMSize slotImageLen s.bus.slotROM slot = some sl) :
    s.boot rom slot =
      ({ s with bus := { s.bus with rom := setBootVector r s.cfg.bootVector, slotROM := sl } } : State).resetMachine := by
  simp only [State.boot, hrom, hslot]

/-- Without one of the two copies Boot fails and modifies nothing. -/
theorem State.boot_of_no_copy {s : State} {rom slot : Option (List Byte)}
    (h : imageCopy s.cfg.romSize romImageLen s.bus.rom rom = none ∨
      imageCopy s.cfg.slotROMSize slotImageLen s.bus.slotROM slot = none) :
    s.boot rom slot = (.error .ioError, s) := by
  rcases h with hrom | hslot
  · simp only [State.boot, hrom]
  · cases hrom : imageCopy s.cfg.romSize romImageLen s.bus.rom rom <;> simp only [State.boot, hrom, hslot]

theorem State.resetMachine_completes {s : State} (hc : fullSize s.cfg = true) : s.resetMachine.1 = .ok () := by
  rw [State.resetMachine_eq hc]

/-- Settles O56: each image is copied or is not; with both copies Boot is `resetMachine`, which completes. -/
theorem bootLoadsTheRomsAndResets : Obligations.BootLoadsTheRomsAndResets := by
  intro s rom slot hs
  obtain ⟨-, -, -, hromSize, hslotSize⟩ := (fullSize_iff s.cfg).1 hs.size
  have hromWf : s.bus.rom.wf = true := hs.bus.canonical .rom
  have hslotWf : s.bus.slotROM.wf = true := hs.bus.canonical .slotROM
  obtain ⟨r, hr, hrLen, hrCopy⟩ | ⟨hbad, hnone⟩ := imageCopy_cases (len := romImageLen) hromSize s.bus.rom rom
  · obtain ⟨sl, hsl, hslLen, hslCopy⟩ | ⟨hbad, hnone⟩ :=
      imageCopy_cases (len := slotImageLen) hslotSize s.bus.slotROM slot
    · have hboot := State.boot_of_copies hrCopy hslCopy
      refine .inl ⟨r, sl, hr, hsl, hrLen, hslLen, _, _, fun k hk => ?_, fun k hk => ?_, hboot, ?_⟩
      · have hread := Memory.read_writeList_zero hromWf (hrLen.symm ▸ hk : k < r.length)
        cases s.cfg.bootVector with
        | none => exact hread
        | some w => rw [read_setBootVector_some (Memory.wf_writeList hromWf ..), hread]
      · exact Memory.read_writeList_zero hslotWf (hslLen.symm ▸ hk : k < sl.length)
      · rw [hboot]
        exact State.resetMachine_completes hs.size
    · exact .inr ⟨hbad.elim (.inr ∘ .inl) (.inr ∘ .inr ∘ .inr), State.boot_of_no_copy (.inr hnone)⟩
  · exact .inr ⟨hbad.elim .inl (.inr ∘ .inr ∘ .inl), State.boot_of_no_copy (.inl hnone)⟩

end Sys2Proof.Machine
end

section
/-! PROOFS. Encoding and decoding undo each other (30_encoding.md R131 to R138): an instruction is its opcode byte,
which names its mnemonic and mode, and its operand bytes. -/

namespace Sys2Proof

/-! ## Decoding the bytes of an instruction -/

/-- A decode takes as many bytes after the opcode as the mode the opcode map names has operand bytes. -/
theorem decode_operandBytes {op : Byte} {o : Operand} (h : (opcodeEntry op).2 = o.mode) (rest : List Byte) :
    decode (op :: (o.bytes ++ rest)) = .ok (decodeBytes op (o.bytes.getD 0 0) (o.bytes.getD 1 0), rest) := by
  cases o <;> simp [decode, h, Operand.mode, Mode.length, Operand.bytes]

/-- An instruction is its mnemonic, its opcode byte and its operand with the operand's bytes. -/
theorem instrOf_self {i : Instr} {op : Byte} (h : i.opcode = some op) :
    instrOf i.mnemonic op i.operand (i.operand.bytes.getD 0 0) (i.operand.bytes.getD 1 0) = i := by
  cases i with
  | jsr w => exact congrArg Instr.jsr (word_hi_lo w)
  | nop1 op' => cases h; rfl
  | nop2 op' b => cases h; rfl
  | nop3 op' w => cases h; exact congrArg (Instr.nop3 op) (word_hi_lo w)
  | _ => rfl

/-- Settles O1: the opcode byte names the instruction's mnemonic and mode in the opcode map, so the decode takes the
operand's bytes and no more, and puts the operand together again. -/
theorem decodeOfEncodeIsTheInstruction : Obligations.DecodeOfEncodeIsTheInstruction := by
  intro i rest hwf
  obtain ⟨op, hop, hentry⟩ := Laws.OpcodeMap.all i hwf
  have hmode : (opcodeEntry op).2 = i.operand.mode := by rw [hentry]
  have hinstr : decodeBytes op (i.operand.bytes.getD 0 0) (i.operand.bytes.getD 1 0) = i := by
    rw [decodeBytes, hentry, operandOf_bytes, instrOf_self hop]
  rw [encode, hop, List.cons_append, decode_operandBytes hmode, hinstr]

/-! ## Encoding the instruction of a byte -/

/-- The reserved bytes are those of the reserved no-ops in the map, and every other byte is the table's for the entry
the map has there. -/
theorem opcodeTable_lookup_entry : ∀ op : Byte,
    (opcodeEntry op).1.reserved = true ∨ opcodeTable.lookup (opcodeEntry op) = some op :=
  forall_byte (by decide +kernel)

theorem opcodeEntry_reservedByteOk : ∀ op : Byte, (instrOf (opcodeEntry op).1 op .imp 0 0).reservedByteOk = true :=
  forall_byte (by decide +kernel)

/-- Whether a no-op's byte is a reserved one does not depend on its operand. -/
theorem instrOf_reservedByteOk (m : Mnemonic) (op : Byte) (o : Operand) (b1 b2 : Byte) :
    (instrOf m op o b1 b2).reservedByteOk = (instrOf m op .imp 0 0).reservedByteOk := by
  cases m <;> rfl

theorem instrOf_opcode_of_reserved {m : Mnemonic} (hm : m.reserved = true) (op : Byte) (o : Operand) (b1 b2 : Byte) :
    (instrOf m op o b1 b2).opcode = some op := by
  cases m with
  | nop1 | nop2 | nop3 => rfl
  | _ => cases hm

theorem Instr.opcode_of_not_reserved {i : Instr} (h : i.mnemonic.reserved = false) :
    i.opcode = opcodeTable.lookup (i.mnemonic, i.operand.mode) := by
  cases i with
  | nop1 | nop2 | nop3 => cases h
  | _ => rfl

theorem decodeBytes_wf (op b1 b2 : Byte) : (decodeBytes op b1 b2).wf = true := by
  have hmode : (opcodeEntry op).1.modes.contains (opcodeEntry op).2 = true :=
    List.contains_iff_mem.2 (opcodeEntry_mode_mem op)
  have hbyte : (decodeBytes op b1 b2).reservedByteOk = true :=
    (instrOf_reservedByteOk ..).trans (opcodeEntry_reservedByteOk op)
  rw [Instr.wf, decodeBytes_mnemonic, decodeBytes_operand, operandOf_mode, hmode, hbyte, Bool.and_true]

/-- The instruction of an opcode byte has that opcode byte. -/
theorem decodeBytes_opcode (op b1 b2 : Byte) : (decodeBytes op b1 b2).opcode = some op := by
  cases hreserved : (opcodeEntry op).1.reserved with
  | true => exact instrOf_opcode_of_reserved hreserved ..
  | false =>
    rw [Instr.opcode_of_not_reserved (by rwa [decodeBytes_mnemonic]), decodeBytes_mnemonic, decodeBytes_operand,
      operandOf_mode]
    exact (opcodeTable_lookup_entry op).resolve_left (by simp [hreserved])

/-- The opcode byte and the bytes of an assembled operand are the bytes it was assembled from. -/
theorem cons_operandOf_bytes (md : Mode) (op b1 b2 : Byte) :
    op :: (operandOf md b1 b2).bytes = [op, b1, b2].take md.length := by
  cases md <;> simp [operandOf, Operand.bytes, Mode.length]

/-- Settles O2: the map's entry is a mode of its mnemonic, and the encoder's table has the same byte for it. -/
theorem everyByteDecodesToItsInstruction : Obligations.EveryByteDecodesToItsInstruction := by
  intro op b1 b2
  refine ⟨decodeBytes_wf op b1 b2, by rw [decodeBytes_mnemonic, decodeBytes_operand, operandOf_mode], ?_⟩
  rw [encode, decodeBytes_opcode, decodeBytes_length, decodeBytes_operand]
  exact cons_operandOf_bytes (opcodeEntry op).2 op b1 b2

/-- Settles O4: closed words, which the decoder evaluates. -/
theorem sampleWordsDecodeAsTheTableSays : Obligations.SampleWordsDecodeAsTheTableSays :=
  ⟨rfl, rfl, rfl, rfl, rfl, rfl, rfl, rfl, rfl, rfl, rfl, rfl⟩

end Sys2Proof
end

section
/-! PROOFS. The step (40_addressing_modes.md R150): a step is the instruction its fetch decodes, so what every
instruction keeps every step keeps. -/

namespace Sys2Proof.Machine

/-! ## A step is its fetch and its instruction -/

theorem step_of_faulted {s : State} {site : FaultSite} {off : Nat} (h : s.status = .faulted site off) :
    step s = .fault (.stuck site off) := by
  rw [step, h]

theorem step_of_canStep {s : State} (h : s.canStep = true) : step s = runStep s := by
  obtain ⟨hrunning, hbooted⟩ : s.status = .running ∧ s.booted = true := by simpa [State.canStep] using h
  rw [step, hrunning]
  exact if_pos hbooted

theorem step_of_fetch {s t : State} {i : Instr} (h : s.canStep = true) (hfetch : s.fetch = .ok i t) :
    step s = exec i t := by
  rw [step_of_canStep h, runStep, hfetch]

theorem step_of_not_booted {s : State} (hrunning : s.status = .running) (hbooted : s.booted = false) :
    step s = .refused .notBooted := by
  rw [step, hrunning, hbooted]
  rfl

/-- Only a machine that can take a step completes one. -/
theorem canStep_of_step_next {s t : State} (h : step s = .next t) : s.canStep = true := by
  cases hstatus : s.status with
  | faulted site off => rw [step_of_faulted hstatus] at h; cases h
  | running =>
    cases hbooted : s.booted with
    | false => rw [step_of_not_booted hstatus hbooted] at h; cases h
    | true => simp [State.canStep, hstatus, hbooted]

/-- A step that completes ran the instruction its fetch decoded. -/
theorem step_eq_next {s t : State} (h : step s = .next t) : ∃ i u, s.fetch = .ok i u ∧ exec i u = .next t := by
  rw [step_of_canStep (canStep_of_step_next h), runStep] at h
  cases hfetch : s.fetch with
  | ok i u => exact ⟨i, u, rfl, by rwa [hfetch] at h⟩
  | fault => rw [hfetch] at h; cases h
  | refused => rw [hfetch] at h; cases h

/-- A completed step is a run: register updates and bus accesses. -/
theorem step_run {s t : State} (hs : s.Wf) (h : step s = .next t) : s.Run t := by
  obtain ⟨i, u, hfetch, hexec⟩ := step_eq_next h
  obtain ⟨j, v, hfetch', hreads⟩ := State.fetch_spec hs
  cases hfetch.symm.trans hfetch'
  obtain ⟨w, hexec', hrun⟩ | ⟨-, -, hrefused⟩ := exec_spec (hreads.wf hs) i
  · cases hexec.symm.trans hexec'
    exact hreads.toRun.trans hrun
  · cases hexec.symm.trans hrefused

/-! ## The fetch of plain bytes -/

/-- The bytes of one instruction are an opcode byte and the operand bytes that the mode the map names asks for. -/
theorem decode_eq_ok_nil {bytes : List Byte} {i : Instr} (h : decode bytes = .ok (i, [])) :
    (∃ op, bytes = [op] ∧ (opcodeEntry op).2.length = 1 ∧ i = decodeBytes op 0 0) ∨
    (∃ op b1, bytes = [op, b1] ∧ (opcodeEntry op).2.length = 2 ∧ i = decodeBytes op b1 0) ∨
    ∃ op b1 b2, bytes = [op, b1, b2] ∧ (opcodeEntry op).2.length = 3 ∧ i = decodeBytes op b1 b2 := by
  cases bytes with
  | nil => cases h
  | cons op rest =>
    unfold decode at h
    dsimp only at h
    split at h
    case h_1 hlen => cases h; exact .inl ⟨op, rfl, hlen, rfl⟩
    case h_2 b1 rest hlen => cases h; exact .inr (.inl ⟨op, b1, rfl, hlen, rfl⟩)
    case h_3 b1 b2 rest hlen => cases h; exact .inr (.inr ⟨op, b1, b2, rfl, hlen, rfl⟩)
    case h_4 => cases h

/-- A fetch of bytes behind no read handler decodes them and leaves the state. -/
theorem State.fetch_of_peek {s : State} {i : Instr} {bytes : List Byte} (hsize : fullSize s.cfg = true)
    (hdecode : decode bytes = .ok (i, []))
    (hpeek : ∀ k (h : k < bytes.length), s.bus.peek s.cfg (s.pc + BitVec.ofNat 16 k) = some bytes[k]) :
    s.fetch = .ok i s := by
  have hread : ∀ k (h : k < bytes.length), s.read (s.pc + BitVec.ofNat 16 k) = .ok bytes[k] s :=
    fun k h => State.read_of_peek hsize (hpeek k h)
  obtain ⟨op, rfl, hlen, rfl⟩ | ⟨op, b1, rfl, hlen, rfl⟩ | ⟨op, b1, b2, rfl, hlen, rfl⟩ := decode_eq_ok_nil hdecode
  all_goals
    have hop : s.read s.pc = .ok op s := by simpa using hread 0 (by simp)
    simp only [State.fetch, hop, Res.bind_ok, hlen]
  · have hb1 : s.read (s.pc + 1) = .ok b1 s := hread 1 (by simp)
    simp only [hb1, Res.bind_ok]
  · have hb1 : s.read (s.pc + 1) = .ok b1 s := hread 1 (by simp)
    have hb2 : s.read (s.pc + 2) = .ok b2 s := hread 2 (by simp)
    simp only [hb1, hb2, Res.bind_ok]

/-! ## The statements -/

/-- Settles O5: a step is its fetch and its instruction, and a fetch of plain bytes decodes them in place. -/
theorem stepRunsTheDecodedInstruction : Obligations.StepRunsTheDecodedInstruction :=
  ⟨fun _ _ _ hcan hfetch => step_of_fetch hcan hfetch,
    fun _ _ _ hcan hsize hdecode hpeek => step_of_fetch hcan (State.fetch_of_peek hsize hdecode hpeek)⟩

/-- Events after a sequence that leaves a machine act on that machine. -/
theorem State.events_append {s t : State} {before : List HostEvent} (h : s.events before = .ok t)
    (after : List HostEvent) : s.events (before ++ after) = t.events after := by
  induction before generalizing s with
  | nil => cases h; rfl
  | cons e es ih =>
    rw [State.events] at h
    rw [List.cons_append, State.events]
    cases hevent : s.event e with
    | ok u => rw [hevent] at h; exact ih h
    | error r => rw [hevent] at h; cases h

/-- Settles O6: `step` looks at the status and the boot flag first, and a refusal of the step passes through Process
and ends a sequence of events. -/
theorem stoppedMachineTakesNoStep : Obligations.StoppedMachineTakesNoStep := by
  refine ⟨fun _ _ _ h => step_of_faulted h, fun _ => step_of_not_booted, ?_⟩
  intro s t r before after hbefore hstep
  have hprocess : t.process = .error r := by rw [State.process, hstep]
  refine ⟨hprocess, ?_⟩
  rw [State.events_append hbefore, State.events, State.event, hprocess]
  rfl

/-- Settles O7: a completed step is a run, and a run keeps the invariant. -/
theorem stepKeepsTheInvariant : Obligations.StepKeepsTheInvariant :=
  fun _ _ hs h => (step_run hs h).wf hs

theorem MachineState.reset_wf (bank : Bank) : (MachineState.reset bank).Wf where
  count := Nat.zero_le 1
  addr := by simp [MachineState.reset]
  key := show (0 : Byte).msb = false by decide

theorem Drive.empty_wf : Drive.empty.Wf := ⟨by decide, by decide, fun _ h => by cases h⟩

/-- Settles O8: no segment lists a byte, no drive holds a disk, and the switches are at their reset values. -/
theorem resetMeetsTheInvariant : Obligations.ResetMeetsTheInvariant where
  size := by decide
  resetP := by decide
  bus :=
    { ms := MachineState.reset_wf _
      drive1 := Drive.empty_wf
      drive2 := Drive.empty_wf
      canonical := fun g => by cases g <;> rfl
      inside := fun g => by cases g <;> rfl }

/-- Settles O9: the last action of every instruction on P is the forcing. -/
theorem stepForcesBreakAndUnused : Obligations.StepForcesBreakAndUnused := by
  intro s t h
  obtain ⟨i, u, -, hexec⟩ := step_eq_next h
  obtain ⟨p, hp⟩ := exec_forced hexec
  simp [hp]

/-- Settles O10: the fetch completes, and the instruction completes or is the decimal refusal. -/
theorem stepCompletesOrRefusesDecimal : Obligations.StepCompletesOrRefusesDecimal := by
  intro s hs hcan
  obtain ⟨i, u, hfetch, hreads⟩ := State.fetch_spec hs
  rw [step_of_fetch hcan hfetch, ← hreads.cfg, ← hreads.p]
  exact (exec_spec (hreads.wf hs) i).imp_left fun ⟨t, hexec, _⟩ => ⟨t, hexec⟩

/-- Settles O11: a completed step is a run, which changes nothing of these. -/
theorem stepKeepsWhatOnlyTheHostSets : Obligations.StepKeepsWhatOnlyTheHostSets := by
  intro s t hs h
  obtain ⟨hcfg, hstatus, hbooted, hbus⟩ := step_run hs h
  have hk := hbus.keeps
  exact ⟨hcfg, hstatus, hbooted, hk.rom, hk.slotROM, hk.keys.1, hk.keys.2,
    fun i => ⟨hk.locked i, hk.writeProtect i, hk.image i, hk.imageType i⟩⟩

end Sys2Proof.Machine
end

section
/-! PROOFS. Which flags an instruction can write (10_state.md R16): the handler of each leaves every flag that its
rule does not name, and B and U apart nothing else of the step writes P. -/

namespace Sys2Proof.Machine

/-! ## What the operations leave of P -/

theorem State.onBus_p {α : Type} {s t : State} {r : BusRes α} {v : α} (h : s.onBus r = .ok v t) : t.p = s.p := by
  cases r with
  | ok w b => cases h; rfl
  | fault site off b => cases h

theorem State.write_p {s t : State} {a : Word} {v : Byte} (h : s.write a v = .ok () t) : t.p = s.p :=
  State.onBus_p h

theorem State.push_p {s t : State} {v : Byte} (h : s.push v = .ok () t) : t.p = s.p := by
  obtain ⟨⟨⟩, u, hwrite, hu⟩ := Res.bind_eq_ok h
  cases hu
  exact (State.write_p hwrite :)

theorem State.pop_p {s t : State} {v : Byte} (h : s.pop = .ok v t) : t.p = s.p :=
  State.onBus_p (s := { s with sp := s.sp + 1 }) h

theorem State.pushReturn_p {s t : State} (h : s.pushReturn = .ok () t) : t.p = s.p := by
  obtain ⟨_, u, hhigh, hlow⟩ := Res.bind_eq_ok h
  exact (State.push_p hlow).trans (State.push_p hhigh)

theorem State.returnFromSubroutine_p {s t : State} (h : s.returnFromSubroutine = .ok () t) : t.p = s.p := by
  obtain ⟨l, u, hlow, hrest⟩ := Res.bind_eq_ok h
  obtain ⟨m, w, hhigh, hw⟩ := Res.bind_eq_ok hrest
  cases hw
  exact (State.pop_p hhigh).trans (State.pop_p hlow)

theorem State.read16_p {s t : State} {a w : Word} (h : s.read16 a = .ok w t) : t.p = s.p :=
  State.onBus_p h

theorem writeBack_p {o : Operand} {ea : Word} {v : Byte} {s t : State} (h : writeBack o ea v s = .ok () t) :
    t.p = s.p := by
  cases o with
  | acc => cases h; rfl
  | _ => exact State.write_p h

/-- The trap writes I and D alone. -/
theorem State.enterTrap_p {s t : State} (h : s.enterTrap = .ok () t) :
    t.p = setFlag (setFlag s.p .i true) .d false := by
  obtain ⟨_, u, hreturn, hrest⟩ := Res.bind_eq_ok h
  obtain ⟨_, w, hpush, hrest⟩ := Res.bind_eq_ok hrest
  obtain ⟨target, x, hread, hx⟩ := Res.bind_eq_ok hrest
  cases hx
  rw [← State.pushReturn_p hreturn, ← State.push_p hpush]
  exact State.read16_p hread

/-! ## Handlers that leave a flag -/

/-- A handler that, where it completes, leaves the flag `f` as it was. -/
def KeepsFlag (f : Flag) (k : Resolved → State → Res Unit) : Prop :=
  ∀ r s t, k r s = .ok () t → getFlag t.p f = getFlag s.p f

section
variable {f : Flag}

theorem KeepsFlag.of_p {k : Resolved → State → Res Unit} (h : ∀ {r s t}, k r s = .ok () t → t.p = s.p) :
    KeepsFlag f k := fun _ _ _ hk => by rw [h hk]

theorem KeepsFlag.of_update {g : Resolved → State → State} (h : ∀ r s, getFlag (g r s).p f = getFlag s.p f) :
    KeepsFlag f fun r s => .ok () (g r s) := by
  rintro r s t hk
  cases hk
  exact h r s

theorem KeepsFlag.of_writeBack {o : Operand} {v p : Resolved → State → Byte}
    (h : ∀ r s, getFlag (p r s) f = getFlag s.p f) :
    KeepsFlag f fun r s => writeBack o r.ea (v r s) { s with p := p r s } := fun r s t hk => by
  rw [writeBack_p hk]
  exact h r s

theorem KeepsFlag.of_pull {g : Byte → State → State} (h : ∀ v s, getFlag (g v s).p f = getFlag s.p f) :
    KeepsFlag f fun _ s => s.pop.bind fun v s => .ok () (g v s) := fun r s t hk => by
  obtain ⟨v, u, hpop, hu⟩ := Res.bind_eq_ok hk
  cases hu
  rw [h, State.pop_p hpop]

/-- ADC and SBC write N, Z, C and V, in every mode. -/
theorem addHandler_keepsFlag {s t : State} {m n : Byte} {digits : Byte → Byte → Bool → Byte × Bool}
    (hf : f ∉ [Flag.n, .z, .c, .v]) (h : addHandler m n digits s = .ok () t) : getFlag t.p f = getFlag s.p f := by
  simp only [List.mem_cons, List.not_mem_nil, or_false, not_or] at hf
  obtain ⟨hn, hz, hc, hv⟩ := hf
  have hbinary : getFlag (s.addToA n).p f = getFlag s.p f := by simp [getFlag_sumFlags, hn, hz, hc, hv]
  unfold addHandler at h
  split at h
  case isTrue =>
    split at h
    case h_1 => cases h
    case h_2 => cases h; exact hbinary
    case h_3 =>
      cases h
      unfold State.decimal
      split
      · simp [State.decimalResult, hn, hz, hc, hv]
      · simp [State.decimalUnspecified, hn, hz, hc, hv]
  case isFalse => cases h; exact hbinary

end

/-! ## Every instruction -/

/-- The flags that the rule of a mnemonic names (10_state.md R16), but for the forcing of B and U. -/
def writtenFlags : Mnemonic → List Flag
  | .adc | .sbc => [.n, .z, .c, .v]
  | .cmp | .cpx | .cpy | .asl | .lsr | .rol | .ror => [.n, .z, .c]
  | .bit => [.n, .z, .v]
  | .and | .ora | .eor | .lda | .ldx | .ldy | .tax | .tay | .txa | .tya | .tsx | .inc | .dec | .inx | .iny
  | .dex | .dey | .pla | .plx | .ply => [.n, .z]
  | .trb | .tsb => [.z]
  | .clc | .sec => [.c]
  | .cli | .sei => [.i]
  | .cld | .sed => [.d]
  | .clv => [.v]
  | .brk => [.i, .d]
  | .plp | .rti => [.n, .z, .c, .v, .i, .d, .b, .u]
  | .bcc | .bcs | .beq | .bmi | .bne | .bpl | .bra | .bvc | .bvs | .jmp | .jsr | .rts | .nop | .nop1 | .nop2 | .nop3
  | .pha | .php | .phx | .phy | .sta | .stx | .sty | .stz | .txs => []

theorem getFlag_setNZ_of_not_mem {f : Flag} (hf : f ∉ [Flag.n, .z]) (p v : Byte) :
    getFlag (setNZ p v) f = getFlag p f := by
  simp only [List.mem_cons, List.not_mem_nil, or_false, not_or] at hf
  rw [getFlag_setNZ, if_neg hf.2, if_neg hf.1]

theorem getFlag_compareFlags_of_not_mem {f : Flag} (hf : f ∉ [Flag.n, .z, .c]) (p r m : Byte) :
    getFlag (compareFlags p r m) f = getFlag p f := by
  simp only [List.mem_cons, List.not_mem_nil, or_false, not_or] at hf
  rw [getFlag_compareFlags, if_neg hf.1, if_neg hf.2.1, if_neg hf.2.2]

theorem getFlag_shiftFlags_of_not_mem {f : Flag} (hf : f ∉ [Flag.n, .z, .c]) (p v : Byte) (out : Bool) :
    getFlag (shiftFlags p out v) f = getFlag p f := by
  simp only [List.mem_cons, List.not_mem_nil, or_false, not_or] at hf
  rw [getFlag_shiftFlags, if_neg hf.2.1, if_neg hf.1, if_neg hf.2.2]

theorem getFlag_setFlag_of_not_mem {f g : Flag} (hf : f ∉ [g]) (p : Byte) (on : Bool) :
    getFlag (setFlag p g on) f = getFlag p f := by
  rw [getFlag_setFlag, if_neg (List.mem_singleton.not.1 hf)]

theorem getFlag_bitTest_of_not_mem {f : Flag} (hf : f ∉ [Flag.n, .z, .v]) (o : Operand) (p a m : Byte) :
    getFlag (bitTest o p a m) f = getFlag p f := by
  simp only [List.mem_cons, List.not_mem_nil, or_false, not_or] at hf
  cases o with
  | imm b => exact getFlag_setFlag_of_not_mem (List.mem_singleton.not.2 hf.2.1) p _
  | _ => exact (getFlag_bitFlags ..).trans (by rw [if_neg hf.2.2, if_neg hf.1, if_neg hf.2.1])

/-- Every instruction is its resolver, a handler that leaves the flags its rule does not name, and the end of the
step. -/
theorem exec_keepsFlag {f : Flag} (i : Instr) (hf : f ∉ writtenFlags i.mnemonic) (s : State) :
    ∃ k, exec i s = runInstr i.mnemonic i.operand k s ∧ KeepsFlag f k := by
  cases i with
  | adc | sbc => exact ⟨_, rfl, fun _ _ _ => addHandler_keepsFlag hf⟩
  | cmp | cpx | cpy => exact ⟨_, rfl, .of_update fun _ _ => getFlag_compareFlags_of_not_mem hf ..⟩
  | asl | lsr | rol | ror => exact ⟨_, rfl, .of_writeBack fun _ _ => getFlag_shiftFlags_of_not_mem hf ..⟩
  | bit => exact ⟨_, rfl, .of_update fun _ _ => getFlag_bitTest_of_not_mem hf ..⟩
  | trb | tsb => exact ⟨_, rfl, .of_writeBack fun _ _ => getFlag_setFlag_of_not_mem hf ..⟩
  | inc | dec => exact ⟨_, rfl, .of_writeBack fun _ _ => getFlag_setNZ_of_not_mem hf ..⟩
  | and | ora | eor | lda | ldx | ldy => exact ⟨_, rfl, .of_update fun _ _ => getFlag_setNZ_of_not_mem hf ..⟩
  | tax | tay | txa | tya | tsx | inx | iny | dex | dey =>
    simp only [exec, execTax, execTay, execTxa, execTya, execTsx, execInx, execIny, execDex, execDey]
    exact ⟨_, rfl, .of_update fun _ _ => getFlag_setNZ_of_not_mem hf ..⟩
  | pla | plx | ply =>
    simp only [exec, execPla, execPlx, execPly]
    exact ⟨_, rfl, .of_pull fun _ _ => getFlag_setNZ_of_not_mem hf ..⟩
  | clc | sec | cli | sei | cld | sed | clv =>
    simp only [exec, execClc, execSec, execCli, execSei, execCld, execSed, execClv]
    exact ⟨_, rfl, .of_update fun _ _ => getFlag_setFlag_of_not_mem hf ..⟩
  | brk =>
    simp only [writtenFlags, Instr.mnemonic, List.mem_cons, List.not_mem_nil, or_false, not_or] at hf
    exact ⟨_, execBrk.eq_1 s, fun _ _ _ h => by simp [State.enterTrap_p h, hf.1, hf.2]⟩
  | plp | rti => exact absurd (by cases f <;> decide) hf
  | bcc | bcs | beq | bne | bmi | bpl | bvc | bvs | bra =>
    simp only [exec, execBcc, execBcs, execBeq, execBne, execBmi, execBpl, execBvc, execBvs, execBra]
    exact ⟨_, rfl, .of_update fun _ _ => rfl⟩
  | nop | nop1 | nop2 | nop3 | jmp | txs =>
    simp only [exec, execNop, execNop1, execNop2, execNop3, execJmp, execTxs]
    exact ⟨_, rfl, .of_update fun _ _ => rfl⟩
  | sta | stx | sty | stz => exact ⟨_, rfl, .of_p State.write_p⟩
  | pha | php | phx | phy =>
    simp only [exec, execPha, execPhp, execPhx, execPhy]
    exact ⟨_, rfl, .of_p State.push_p⟩
  | jsr target => exact ⟨_, rfl, .of_p fun h => by
      obtain ⟨_, u, hreturn, hu⟩ := Res.bind_eq_ok h
      cases hu
      exact (State.pushReturn_p hreturn :)⟩
  | rts => exact ⟨_, execRts.eq_1 s, .of_p State.returnFromSubroutine_p⟩

/-- A completed instruction leaves a flag that its rule does not name. -/
theorem exec_flag {i : Instr} {s t : State} (hs : s.Wf) (h : exec i s = .next t) {f : Flag} (hb : f ≠ .b) (hu : f ≠ .u)
    (hf : f ∉ writtenFlags i.mnemonic) : getFlag t.p f = getFlag s.p f := by
  obtain ⟨k, hexec, hk⟩ := exec_keepsFlag i hf s
  obtain ⟨r, u, hresolve, hreads⟩ := resolve_spec hs i.operand
  rw [hexec, runInstr_of_resolve hresolve] at h
  cases hhandler : k r u with
  | ok _ w =>
    rw [hhandler] at h
    cases h
    simp [hb, hu, hk r u w hhandler, hreads.p]
  | fault => rw [hhandler] at h; cases h
  | refused => rw [hhandler] at h; cases h

theorem mnemonics_writing_v : ∀ m ∈ allMnemonics, Flag.v ∈ writtenFlags m →
    m ∈ ([.adc, .sbc, .bit, .clv, .plp, .rti] : List Mnemonic) := by decide

theorem mnemonics_writing_i : ∀ m ∈ allMnemonics, Flag.i ∈ writtenFlags m →
    m ∈ ([.cli, .sei, .brk, .plp, .rti] : List Mnemonic) := by decide

theorem mnemonics_writing_d : ∀ m ∈ allMnemonics, Flag.d ∈ writtenFlags m →
    m ∈ ([.cld, .sed, .brk, .plp, .rti] : List Mnemonic) := by decide

/-- Settles O60: V, I and D are among the flags named by a rule for these mnemonics only. -/
theorem overflowInterruptDecimalHaveFewWriters : Obligations.OverflowInterruptDecimalHaveFewWriters := by
  intro i s t hs h
  have hmem := mem_allMnemonics i.mnemonic
  exact ⟨fun hm => exec_flag hs h (by decide) (by decide) fun hv => hm (mnemonics_writing_v _ hmem hv),
    fun hm => exec_flag hs h (by decide) (by decide) fun hi => hm (mnemonics_writing_i _ hmem hi),
    fun hm => exec_flag hs h (by decide) (by decide) fun hd => hm (mnemonics_writing_d _ hmem hd)⟩

end Sys2Proof.Machine
end

section
/-! PROOFS. The resolvers (40_addressing_modes.md): the address each mode computes, and that the data modes read it
once. -/

namespace Sys2Proof.Machine

/-- Settles O12: these modes compute from the registers and the operand alone; the relative target is the branch's. -/
theorem resolversWithoutBusAccess : Obligations.ResolversWithoutBusAccess :=
  fun s => ⟨rfl, rfl, fun _ => rfl, fun _ => rfl, fun _ => rfl, fun b => by rw [← relativeTarget_eq_ofInt]; rfl⟩

/-! ## Modes that read their target -/

/-- A resolver whose address takes no bus access with an effect, and whose value is the byte there, is one bus read. -/
theorem resolve_reads_target {o : Operand} {s : State} {ea : Word} (haddress : effectiveAddress o s = .ok ea s)
    (hvalue : effectiveValue o ea s = s.read ea) :
    resolve o s = (s.read ea).bind (fun v t => .ok ⟨ea, v⟩ t) ∧
      ∀ v, fullSize s.cfg = true → s.bus.peek s.cfg ea = some v → resolve o s = .ok ⟨ea, v⟩ s := by
  have hread : resolve o s = (s.read ea).bind fun v t => .ok ⟨ea, v⟩ t := by
    rw [resolve, haddress, Res.bind_ok, hvalue]
  exact ⟨hread, fun v hsize hpeek => by rw [hread, State.read_of_peek hsize hpeek, Res.bind_ok]⟩

/-- Zero-page indexing wraps at 256. -/
theorem eq_zext_add {ea : Word} {b i : Byte} (h : ea.toNat = (b.toNat + i.toNat) % 256) : ea = zext (b + i) :=
  BitVec.eq_of_toNat_eq (by rw [h, toNat_zext, BitVec.toNat_add])

/-- Absolute indexing wraps at 65536. -/
theorem eq_add_zext {ea w : Word} {i : Byte} (h : ea.toNat = (w.toNat + i.toNat) % 65536) : ea = w + zext i :=
  BitVec.eq_of_toNat_eq (by rw [h, BitVec.toNat_add, toNat_zext])

/-- Settles O13: in each direct mode the address is the one the rule gives, in integers, and the value is the byte
there. -/
theorem directResolversReadTheirTargetOnce : Obligations.DirectResolversReadTheirTargetOnce := by
  rintro s o ea (⟨b, rfl, h⟩ | ⟨b, rfl, h⟩ | ⟨b, rfl, h⟩ | ⟨w, rfl, rfl⟩ | ⟨w, rfl, h⟩ | ⟨w, rfl, h⟩)
  · obtain rfl : ea = zext b := BitVec.eq_of_toNat_eq (by rw [h, toNat_zext])
    exact resolve_reads_target rfl rfl
  · exact eq_zext_add h ▸ resolve_reads_target rfl rfl
  · exact eq_zext_add h ▸ resolve_reads_target rfl rfl
  · exact resolve_reads_target rfl rfl
  · exact eq_add_zext h ▸ resolve_reads_target rfl rfl
  · exact eq_add_zext h ▸ resolve_reads_target rfl rfl

/-! ## Pointers -/

/-- Settles O14: the pointer is read from RAM, which has no effect, and then the target once. -/
theorem zeroPagePointerResolvers : Obligations.ZeroPagePointerResolvers := by
  intro s o z ea hsize hmode
  have hpointer := State.read16zp_eq hsize z
  have hnext : (z + 1).toNat = (z.toNat + 1) % 256 := BitVec.toNat_add ..
  rw [hnext] at hpointer
  suffices haddress : effectiveAddress o s = .ok ea s ∧ effectiveValue o ea s = s.read ea by
    obtain ⟨hread, hpeek⟩ := resolve_reads_target haddress.1 haddress.2
    exact ⟨hread, fun v => hpeek v hsize⟩
  obtain ⟨b, rfl, hz, rfl⟩ | ⟨rfl, rfl⟩ | ⟨rfl, h⟩ := hmode
  · obtain rfl : z = b + s.x := BitVec.eq_of_toNat_eq (by rw [hz, BitVec.toNat_add])
    exact ⟨hpointer, rfl⟩
  · exact ⟨hpointer, rfl⟩
  · refine ⟨?_, rfl⟩
    rw [effectiveAddress, hpointer, Res.bind_ok, eq_add_zext h]
    rfl

theorem Res.bind_assoc {α β γ : Type} (r : Res α) (k : α → State → Res β) (l : β → State → Res γ) :
    (r.bind k).bind l = r.bind fun v s => (k v s).bind l := by
  cases r <;> rfl

/-- Settles O15: the address is a 16-bit read through the bus, and these modes read nothing at it. -/
theorem absolutePointerResolvers : Obligations.AbsolutePointerResolvers := by
  intro s o ptr hmode
  have hresolve : resolve o s = (s.read16 ptr).bind fun ea t => .ok ⟨ea, 0⟩ t := by
    obtain rfl | ⟨w, rfl, h⟩ := hmode
    · rfl
    · rw [eq_add_zext h]; rfl
  refine ⟨?_, fun l h hsize hl hh => ?_⟩
  · simp only [hresolve, State.read16_eq, Res.bind_assoc, Res.bind_ok]
    rfl
  · rw [hresolve, State.read16_of_peek hsize hl hh]; rfl

end Sys2Proof.Machine
end

section
/-! PROOFS. Overflow and decimal arithmetic (42_arithmetic.md): the carry and overflow of the addition core in exact
integers, and ADC and SBC with D set. -/

namespace Sys2Proof.Machine

/-! ## V and C in exact integers (R210, R213) -/

theorem toInt_byte (b : Byte) : b.toInt = if b.toNat < 128 then (b.toNat : Int) else b.toNat - 256 := by
  rw [BitVec.toInt_eq_toNat_cond]
  omega

theorem getLsbD_seven (b : Byte) : b.getLsbD 7 = decide (128 ≤ b.toNat) := by
  rw [← show b.msb = b.getLsbD 7 from BitVec.msb_eq_getLsbD_last b, BitVec.msb_eq_decide]

/-- The exact signed sum leaves -128..127 exactly where V is set; else it is the result. -/
theorem addCore_signed (a m : Byte) (c : Bool) :
    ((addCore a m c).overflow = true ↔
      a.toInt + m.toInt + (if c then 1 else 0) < -128 ∨ 127 < a.toInt + m.toInt + (if c then 1 else 0)) ∧
    ((addCore a m c).overflow = false → (addCore a m c).value.toInt = a.toInt + m.toInt + (if c then 1 else 0)) := by
  have ha := a.isLt
  have hm := m.isLt
  have hvalue := toNat_addCore_value a m c
  rw [addCore_overflow, getLsbD_seven, getLsbD_seven, getLsbD_seven, toInt_byte, toInt_byte, toInt_byte]
  have hcarry : (if c then 1 else 0 : Int) = ((if c then 1 else 0 : Nat) : Int) := by cases c <;> rfl
  have hbit : (if c then 1 else 0 : Nat) ≤ 1 := by cases c <;> decide
  rw [hcarry]
  generalize (if c then 1 else 0 : Nat) = k at *
  simp only [Bool.and_eq_true, Bool.and_eq_false_iff, beq_iff_eq, beq_eq_false_iff_ne, bne_iff_ne, bne_eq_false_iff_eq,
    ne_eq, decide_eq_decide]
  constructor <;> omega

/-- The complement of the operand is its negative, less 1. -/
theorem toNat_xor_ones (m : Byte) : (m ^^^ 0xFF).toNat = 255 - m.toNat := by
  have hcomplement : m ^^^ 0xFF = ~~~m := BitVec.xor_allOnes
  rw [hcomplement, BitVec.toNat_not]

theorem toInt_xor_ones (m : Byte) : (m ^^^ 0xFF).toInt = -1 - m.toInt := by
  have hm := m.isLt
  rw [toInt_byte, toInt_byte, toNat_xor_ones]
  omega

/-- C of the core is the exact unsigned sum's. -/
theorem addCore_carry (a m : Byte) (c : Bool) :
    (addCore a m c).carry = decide (255 < a.toNat + m.toNat + (if c then 1 else 0)) := rfl

/-- Settles O20: the two signed clauses of the difference are those of the sum with the complement, -1 - m. -/
theorem overflowIsSignedOverflow : Obligations.OverflowIsSignedOverflow := by
  intro a m c
  have ha := a.isLt
  have hm := m.isLt
  have hdiff := (addCore_signed a (m ^^^ 0xFF) c).1
  rw [toInt_xor_ones] at hdiff
  refine ⟨(addCore_signed a m c).1, (addCore_signed a m c).2, hdiff.trans (by omega), ?_, ?_⟩
  · rw [addCore_carry, toNat_xor_ones, decide_eq_true_iff]
    cases c <;> simp <;> omega
  · rw [toNat_addCore_value, toNat_xor_ones]
    cases c <;> simp <;> omega

/-! ## ADC and SBC with D set (R212) -/

/-- ADC and SBC share their handler, each with its decimal operation. -/
theorem exec_addHandler {i : Instr} {o : Operand} {digits : Byte → Byte → Bool → Byte × Bool}
    (hi : (i = .adc o ∧ digits = bcdAdd) ∨ (i = .sbc o ∧ digits = bcdSub)) (s : State) :
    ∃ (m : Mnemonic) (binary : Resolved → Byte), m.setsPc = false ∧
      exec i s = runInstr m o (fun r t => addHandler r.ev (binary r) digits t) s := by
  rcases hi with ⟨rfl, rfl⟩ | ⟨rfl, rfl⟩
  · exact ⟨.adc, fun r => r.ev, rfl, rfl⟩
  · exact ⟨.sbc, fun r => r.ev ^^^ 0xFF, rfl, rfl⟩

theorem exists_digits {i : Instr} {o : Operand} (hi : i = .adc o ∨ i = .sbc o) :
    ∃ digits, (i = .adc o ∧ digits = bcdAdd) ∨ (i = .sbc o ∧ digits = bcdSub) :=
  hi.elim (fun h => ⟨bcdAdd, .inl ⟨h, rfl⟩⟩) fun h => ⟨bcdSub, .inr ⟨h, rfl⟩⟩

theorem State.decimal_pc (s : State) (m : Byte) (digits : Byte → Byte → Bool → Byte × Bool) :
    (s.decimal m digits).pc = s.pc := by
  unfold State.decimal
  split <;> rfl

/-- Under `bcd`, with D set, both complete with `State.decimal` of the value read. -/
theorem exec_decimal {i : Instr} {o : Operand} {digits : Byte → Byte → Bool → Byte × Bool} {s : State} (hs : s.Wf)
    (hi : (i = .adc o ∧ digits = bcdAdd) ∨ (i = .sbc o ∧ digits = bcdSub)) (hd : getFlag s.p .d = true)
    (hmode : s.cfg.decimalMode = .bcd) :
    ∃ r t, ResolvesTo o s r t ∧ s.Reads t ∧
      exec i s = .next { t.decimal r.ev digits with
        p := forced (t.decimal r.ev digits).p, pc := s.pc + BitVec.ofNat 16 o.length } := by
  obtain ⟨m, binary, hm, hexec⟩ := exec_addHandler hi s
  obtain ⟨r, t, hr, rd, hrun⟩ := runInstr_resolved hm hs o fun r t => addHandler r.ev (binary r) digits t
  have hhandler : addHandler r.ev (binary r) digits t = .ok () (t.decimal r.ev digits) := by
    rw [addHandler, State.flag, rd.p, hd, if_pos rfl, rd.cfg, hmode]
  exact ⟨r, t, hr, rd, by rw [hexec, hrun, hhandler, complete_ok, State.decimal_pc, rd.pc]⟩

/-! ### The decimal operations in exact integers -/

theorem toNat_bcdByte {u : Nat} (h : u < 100) : (bcdByte u).toNat = 16 * (u / 10) + u % 10 := by
  rw [bcdByte, BitVec.toNat_ofNat]
  omega

theorem natCast_bcdValue (b : Byte) : (bcdValue b : Int) = 10 * ((b.toNat : Int) / 16) + (b.toNat : Int) % 16 := by
  simp [bcdValue]

/-- The decimal sum of R212, modulo 100, and its carry. -/
theorem bcdAdd_eq (a m : Byte) (c : Bool) {total : Int}
    (h : total = bcdValue a + bcdValue m + (if c then 1 else 0)) :
    ((bcdAdd a m c).1.toNat : Int) = 16 * (total % 100 / 10) + total % 100 % 10 ∧
      (bcdAdd a m c).2 = decide (100 ≤ total) := by
  have htotal : total = ((bcdValue a + bcdValue m + bit c : Nat) : Int) := by
    rw [h]; cases c <;> simp [bit]
  simp only [bcdAdd, htotal, decide_eq_decide]
  rw [toNat_bcdByte (Nat.mod_lt _ (by decide))]
  omega

/-- The decimal difference of R212, modulo 100, and its carry, "no borrow". -/
theorem bcdSub_eq (a m : Byte) (c : Bool) {total : Int}
    (h : total = bcdValue a - bcdValue m - (1 - (if c then 1 else 0))) :
    ((bcdSub a m c).1.toNat : Int) = 16 * (total % 100 / 10) + total % 100 % 10 ∧
      (bcdSub a m c).2 = decide (0 ≤ total) := by
  have htotal : (bcdValue a : Int) - bcdValue m - (1 - bit c) = total := by
    rw [h]; cases c <;> rfl
  simp only [bcdSub, htotal, and_true]
  rw [toNat_bcdByte (by omega)]
  omega

/-- Both, as R212 has them: from the exact total of the operands' digits. -/
theorem decimalDigits_eq {i : Instr} {o : Operand} {digits : Byte → Byte → Bool → Byte × Bool}
    (hi : (i = .adc o ∧ digits = bcdAdd) ∨ (i = .sbc o ∧ digits = bcdSub)) (a m : Byte) (c : Bool) {total : Int}
    (h : total = if i = .adc o then (bcdValue a : Int) + bcdValue m + (if c then 1 else 0)
      else bcdValue a - bcdValue m - (1 - (if c then 1 else 0))) :
    ((digits a m c).1.toNat : Int) = 16 * (total % 100 / 10) + total % 100 % 10 ∧
      (digits a m c).2 = if i = .adc o then decide (100 ≤ total) else decide (0 ≤ total) := by
  rcases hi with ⟨rfl, rfl⟩ | ⟨rfl, rfl⟩
  · rw [if_pos rfl] at h ⊢
    exact bcdAdd_eq a m c h
  · rw [if_neg (by simp)] at h ⊢
    exact bcdSub_eq a m c h

/-! ### The statements -/

theorem validBcd_iff (a m : Byte) :
    (validBcd a && validBcd m) = true ↔
      a.toNat / 16 ≤ 9 ∧ a.toNat % 16 ≤ 9 ∧ m.toNat / 16 ≤ 9 ∧ m.toNat % 16 ≤ 9 := by
  simp [validBcd, and_assoc]

/-- Settles O21: on packed BCD the handler is `State.decimalResult`, whose flags are those of a sum with a free V. -/
theorem decimalAddAndSubtract : Obligations.DecimalAddAndSubtract := by
  intro i o s hs _ hi hd hmode
  obtain ⟨digits, hi⟩ := exists_digits hi
  obtain ⟨r, t, hr, rd, hexec⟩ := exec_decimal hs hi hd hmode
  refine ⟨r, t, hr, fun h1 h2 h3 h4 => ?_⟩
  have hvalid := (validBcd_iff s.a r.ev).2 ⟨h1, h2, h3, h4⟩
  have hdecimal : t.decimal r.ev digits = t.decimalResult (digits s.a r.ev (getFlag s.p .c)) := by
    rw [State.decimal, rd.a, hvalid, if_pos rfl, State.flag, rd.p]
  rw [hdecimal] at hexec
  obtain ⟨hvalue, hcarry⟩ := decimalDigits_eq hi s.a r.ev (getFlag s.p .c) rfl
  simp only [natCast_bcdValue] at hvalue hcarry
  have hflags := StatusIs.sum t.p ⟨(digits s.a r.ev (getFlag s.p .c)).1, (digits s.a r.ev (getFlag s.p .c)).2,
    Config.freeBit t.bus.draws⟩
  rw [rd.p, hcarry] at hflags
  exact ⟨_, _, _, _, ⟨hvalue, hflags⟩, by rw [hexec, ← hcarry, ← rd.p]; rfl⟩

/-- N, Z, V and C with a value each. -/
def nzvcFlags (n z v c : Bool) : Flag → Option Bool
  | .n => some n
  | .z => some z
  | .v => some v
  | .c => some c
  | .i | .d | .b | .u => none

theorem StatusIs.decimalUnspecified (s : State) :
    StatusIs (forced s.decimalUnspecified.p) s.p
      (nzvcFlags (Config.freeBit s.bus.draws) (Config.freeBit (s.bus.draws + 2)) (Config.freeBit (s.bus.draws + 1))
        (Config.freeBit (s.bus.draws + 3))) :=
  .of_forced fun f _ _ => by cases f <;> simp [State.decimalUnspecified, nzvcFlags]

/-- The refusal does not depend on the operand (R212). -/
theorem addHandler_refuse {s : State} (hd : getFlag s.p .d = true) (hmode : s.cfg.decimalMode = .refuse) (m n : Byte)
    (digits : Byte → Byte → Bool → Byte × Bool) : addHandler m n digits s = .refused .decimalRefused := by
  rw [addHandler, State.flag, hd, if_pos rfl, hmode]

/-- Settles O22: on another operand the handler draws A and the four flags; under `refuse` it refuses before it looks
at the operand. -/
theorem decimalCornersAndRefusal : Obligations.DecimalCornersAndRefusal := by
  intro i o s hs _ hi hd
  obtain ⟨digits, hi⟩ := exists_digits hi
  refine ⟨fun hmode => ?_, fun hmode => ?_⟩
  · obtain ⟨r, t, hr, rd, hexec⟩ := exec_decimal hs hi hd hmode
    refine ⟨r, t, hr, fun hinvalid => ?_⟩
    have hdecimal : t.decimal r.ev digits = t.decimalUnspecified := by
      rw [State.decimal, if_neg (by rwa [validBcd_iff, rd.a])]
    rw [hdecimal] at hexec
    exact ⟨_, _, _, _, _, _, _, rd.p ▸ StatusIs.decimalUnspecified t, hexec⟩
  · obtain ⟨m, binary, hm, hexec⟩ := exec_addHandler hi s
    obtain ⟨r, t, -, rd, hrun⟩ := runInstr_resolved hm hs o fun r t => addHandler r.ev (binary r) digits t
    rw [hexec, hrun, addHandler_refuse (rd.p ▸ hd) (rd.cfg ▸ hmode)]
    rfl

end Sys2Proof.Machine
end

section
/-! PROOFS. RTI in the state that BRK leaves (60_exceptions.md R413, R414): the slots hold what the trap pushed. -/

namespace Sys2Proof.Machine

/-- The slots of a trap, read back: the high byte and the low byte of the return address, and the status. -/
theorem Bus.stackByte_pushedTrap {c : Cfg} (hc : fullSize c = true) {b : Bus} (hb : b.Wf c) (sp : Byte) (ret : Word)
    (p : Byte) :
    (b.pushedTrap sp ret p).stackByte sp = hi ret ∧ (b.pushedTrap sp ret p).stackByte (sp - 1) = lo ret ∧
      (b.pushedTrap sp ret p).stackByte (sp - 2) = p := by
  have h01 : sp ≠ sp - 1 := by bv_omega
  have h02 : sp ≠ sp - 2 := by bv_omega
  have h12 : sp - 1 ≠ sp - 2 := by bv_omega
  have hhigh := hb.pushed hc sp (hi ret)
  simp only [Bus.pushedTrap, Bus.pushedReturn, Bus.pushed_stackByte (hhigh.pushed hc (sp - 1) (lo ret)),
    Bus.pushed_stackByte hhigh, Bus.pushed_stackByte hb, h01, h02, h12, if_true, if_false, and_self]

/-- The state that a completed BRK leaves. -/
theorem exec_brk_eq {s t : State} (hs : s.Wf) (h : exec .brk s = .next t) :
    ∃ pc p, t = { s with bus := s.bus.pushedTrap s.sp (s.pc + 2) (forced s.p), sp := s.sp - 3, p := p, pc := pc } := by
  obtain ⟨gl, ol, -, hlow⟩ := Bus.peek_high s.cfg s.bus (a := 0xFFFE) (by decide)
  obtain ⟨gh, oh, -, hhigh⟩ := Bus.peek_high s.cfg s.bus (a := 0xFFFF) (by decide)
  rw [exec, execBrk, runInstr_of_setsPc rfl (resolve_imp s), State.enterTrap_eq hs hlow hhigh, complete_zero] at h
  cases h
  exact ⟨_, _, rfl⟩

/-- Settles O39: RTI pulls the three bytes that the trap pushed, and puts the return address together again. -/
theorem rtiUndoesBrk : Obligations.RtiUndoesBrk := by
  intro s t hs h
  obtain ⟨pc, p, ht⟩ := exec_brk_eq hs h
  have hsize : fullSize t.cfg = true := by rw [ht]; exact hs.size
  have h1 : s.sp - 3 + 1 = s.sp - 2 := by bv_omega
  have h2 : s.sp - 3 + 2 = s.sp - 1 := by bv_omega
  have h3 : s.sp - 3 + 3 = s.sp := by bv_omega
  obtain ⟨hhigh, hlow, hstatus⟩ := Bus.stackByte_pushedTrap hs.size hs.bus s.sp (s.pc + 2) (forced s.p)
  refine ⟨_, forced s.p, .none s.p, Bus.pushedTrap_memoryIs hs.size hs.bus s.sp (s.pc + 2) (forced s.p), ?_⟩
  rw [exec, execRti, runInstr_of_setsPc rfl (resolve_imp _), State.returnFromTrap_eq hsize, complete_zero, ht]
  simp only [h1, h2, h3, hhigh, hlow, hstatus, word_hi_lo, forced_forced]

end Sys2Proof.Machine
end

section
/-! PROOFS. Bus accesses at last: a read after a write (20_memory.md R42), and the soft switches that report or command
one flag, the keyboard's among them (22_soft_switches.md section 7), under the default table. -/

namespace Sys2Proof.Machine

/-! ## Read after write -/

/-- Steering depends on the switches alone. -/
theorem Bus.readTarget_congr {c : Cfg} {b b' : Bus} (h : b'.ms = b.ms) (a : Word) :
    b'.readTarget c a = b.readTarget c a := by
  simp only [Bus.readTarget, h]

theorem Bus.read_cell {c : Cfg} (hc : fullSize c = true) {b : Bus} {a : Word} {g : Segment} {off : Nat}
    (h : b.readTarget c a = .cell g off) : b.read c a = .ok ((b.mem g).read off) b := by
  simp only [Bus.read, h, Bus.getCell, if_pos (Bus.readTarget_inside hc h)]

theorem Bus.write_cell {c : Cfg} (hc : fullSize c = true) {b : Bus} {a : Word} {g : Segment} {off : Nat}
    (h : b.writeTarget c a = .cell g off) (v : Byte) :
    b.write c a v = .ok () (b.setMem ((b.mem g).write off v) g) := by
  simp only [Bus.write, h, Bus.setCell, if_pos (Bus.writeTarget_inside hc h)]

/-- Settles O43: a write of a byte moves no switch, so reads are steered as before, and `Memory.read_write` gives the
byte they find. -/
theorem readsReturnTheLatestWrite : Obligations.ReadsReturnTheLatestWrite := by
  intro c b a v hc hb
  refine ⟨fun h => by simp only [Bus.write, h], fun g off h => ⟨_, Bus.write_cell hc h v, fun e g' off' he => ?_⟩⟩
  have he' : (b.setMem ((b.mem g).write off v) g).readTarget c e = .cell g' off' := by
    rw [Bus.readTarget_congr (Bus.setMem_ms ..), he]
  refine ⟨he', ?_, Bus.read_cell hc he⟩
  rw [Bus.read_cell hc he', Bus.mem_setMem]
  by_cases hg : g' = g
  · subst hg
    simp only [if_true, true_and, Memory.read_write (hb.canonical _)]
  · simp only [hg, if_false, false_and]

/-! ## Switches with an address of their own -/

/-- A read of an address that has a row of its own runs the row's read handler. -/
theorem Bus.read_of_own_row {c : Cfg} (hc : defaultMap c) (b : Bus) {a : Word} {h : ReadSwitch}
    (hrow : ∃ row ∈ switchMap, row.first = a.toNat ∧ row.last = a.toNat ∧ row.read = some h) :
    b.read c a = b.readHandler c a h := by
  obtain ⟨row, hm, hfirst, hlast, hread⟩ := hrow
  exact Bus.read_of_row hc b hm hfirst.le hlast.ge hread

/-- A write of an address that has a row of its own runs the row's write handler. -/
theorem Bus.write_of_own_row {c : Cfg} (hc : defaultMap c) (b : Bus) {a : Word} {h : WriteSwitch}
    (hrow : ∃ row ∈ switchMap, row.first = a.toNat ∧ row.last = a.toNat ∧ row.write = some h) (v : Byte) :
    b.write c a v = b.writeHandler c a v h := by
  obtain ⟨row, hm, hfirst, hlast, hwrite⟩ := hrow
  exact Bus.write_of_row hc b hm hfirst.le hlast.ge hwrite v

/-- The status addresses of R100 with the status each reports. -/
def statusAddresses : List (Word × StatusBit) :=
  [(0xC011, .bankSel2), (0xC012, .bankReadRAM), (0xC013, .readAux), (0xC014, .writeAux), (0xC015, .intCxROM),
    (0xC016, .sysBlockAux), (0xC017, .slotC3ROM), (0xC018, .store80), (0xC01A, .text), (0xC01B, .mixed),
    (0xC01C, .page2), (0xC01D, .hiRes), (0xC01E, .altChar), (0xC01F, .col80), (0xC07E, .iouEnable), (0xC07F, .dHiRes)]

theorem statusAddresses_rows : ∀ e ∈ statusAddresses,
    ∃ row ∈ switchMap, row.first = e.1.toNat ∧ row.last = e.1.toNat ∧ row.read = some (.status e.2) := by decide

/-- Settles O45: the row of each address has the read handler of its status, which is `flagByte` of the flag. -/
theorem statusReadsReturnTheirFlag : Obligations.StatusReadsReturnTheirFlag := by
  intro c b hc e he
  obtain ⟨⟨a, f⟩, hf, rfl⟩ : ∃ x ∈ statusAddresses, (x.1, b.ms.statusBit x.2) = e := List.mem_map.1 he
  exact Bus.read_of_own_row hc b (statusAddresses_rows _ hf)

/-- The command addresses of R92 and R95 that act on writes only, with their effects. -/
def writeCommands : List (Word × SwitchEffect) :=
  [(0xC000, .store80 false), (0xC001, .store80 true), (0xC002, .readAux false), (0xC003, .readAux true),
    (0xC004, .writeAux false), (0xC005, .writeAux true), (0xC006, .intCxROM false), (0xC007, .intCxROM true),
    (0xC00A, .slotC3ROM false), (0xC00B, .slotC3ROM true), (0xC00C, .col80 false), (0xC00D, .col80 true),
    (0xC00E, .altChar false), (0xC00F, .altChar true), (0xC07E, .iouEnable true), (0xC07F, .iouEnable false)]

/-- The command addresses of R94 and R95 that act on reads and writes alike, with their effects. -/
def toggleCommands : List (Word × SwitchEffect) :=
  [(0xC050, .text false), (0xC051, .text true), (0xC052, .mixed false), (0xC053, .mixed true), (0xC054, .page2 false),
    (0xC055, .page2 true), (0xC056, .hiRes false), (0xC057, .hiRes true), (0xC05E, .dHiRes true),
    (0xC05F, .dHiRes false)]

theorem writeCommands_rows : ∀ e ∈ writeCommands,
    ∃ row ∈ switchMap, row.first = e.1.toNat ∧ row.last = e.1.toNat ∧ row.write = some (.command e.2) := by decide

theorem toggleCommands_read_rows : ∀ e ∈ toggleCommands,
    ∃ row ∈ switchMap, row.first = e.1.toNat ∧ row.last = e.1.toNat ∧ row.read = some (.command e.2) := by decide

theorem toggleCommands_write_rows : ∀ e ∈ toggleCommands,
    ∃ row ∈ switchMap, row.first = e.1.toNat ∧ row.last = e.1.toNat ∧ row.write = some (.command e.2) := by decide

/-- Double hi-res is honoured only while the IOU is enabled (R95). -/
theorem MachineState.command_dHiRes (m : MachineState) (on : Bool) :
    (if m.iouEnable then { m with dHiRes := on } else m) = m.command (.dHiRes on) := by
  by_cases h : m.iouEnable = true
  · rw [if_pos h, MachineState.command, if_pos h]
  · rw [if_neg h, MachineState.command, if_neg h]

/-- Settles O46: the row of each address has its command, for reads too where it is a toggle. -/
theorem commandSwitchesChangeTheirFlag : Obligations.CommandSwitchesChangeTheirFlag := by
  intro c b v hc
  refine ⟨fun e he => ?_, fun e he => ?_⟩
  · obtain ⟨⟨a, f⟩, hf, rfl⟩ : ∃ x ∈ writeCommands, (x.1, b.ms.command x.2) = e := List.mem_map.1 he
    exact Bus.write_of_own_row hc b (writeCommands_rows _ hf) v
  · rw [MachineState.command_dHiRes, MachineState.command_dHiRes] at he
    obtain ⟨⟨a, f⟩, hf, rfl⟩ : ∃ x ∈ toggleCommands, (x.1, b.ms.command x.2) = e := List.mem_map.1 he
    exact ⟨Bus.write_of_own_row hc b (toggleCommands_write_rows _ hf) v, _, _,
      Bus.read_of_own_row hc b (toggleCommands_read_rows _ hf)⟩

/-! ## The keyboard (R93, R96) -/

/-- A key code below 128 stands under a bit 7 without touching it. -/
theorem toNat_keyByte (top : Bool) {latch : Byte} (h : latch.toNat < 128) :
    (keyByte top latch).toNat = (if top then 128 else 0) + latch.toNat := by
  have hor := Nat.two_pow_add_eq_or_of_lt (i := 7) h 1
  cases top with
  | false => simp [keyByte, flagByte, loByte]
  | true => exact hor.symm

theorem MachineState.Wf.keyLatch_lt {m : MachineState} (h : m.Wf) : m.keyLatch.toNat < 128 := by
  have hmsb := h.key
  rw [BitVec.msb_eq_decide] at hmsb
  simpa using hmsb

theorem switchRowsC00_read : ∀ row ∈ switchRowsC00, row.read = some .keyboard := by decide

theorem switchRowsC01_write : ∀ row ∈ switchRowsC01, row.write = some .clearStrobe := by decide

/-- A read of $C000-$C00F gives the key code under the strobe bit. -/
theorem Bus.read_keyboard {c : Cfg} (hc : defaultMap c) (b : Bus) {a : Word} (h1 : 0xC000 ≤ a.toNat)
    (h2 : a.toNat ≤ 0xC00F) : b.read c a = .ok (keyByte b.ms.keyStrobe b.ms.keyLatch) b := by
  obtain ⟨row, hm, hfirst, hlast⟩ := (switchRowsC00_cover a.toNat).2 ⟨h1, h2⟩
  exact Bus.read_of_row hc b (List.mem_append_left _ hm) hfirst hlast (switchRowsC00_read row hm)

/-- A write of $C010-$C01F clears the strobe. -/
theorem Bus.write_clearStrobe {c : Cfg} (hc : defaultMap c) (b : Bus) {a : Word} (h1 : 0xC010 ≤ a.toNat)
    (h2 : a.toNat ≤ 0xC01F) (v : Byte) : b.write c a v = .ok () { b with ms := { b.ms with keyStrobe := false } } := by
  obtain ⟨row, hm, hfirst, hlast⟩ := (switchRowsC01_cover a.toNat).2 ⟨h1, h2⟩
  exact Bus.write_of_row hc b (List.mem_append_right _ (List.mem_append_left _ hm)) hfirst hlast
    (switchRowsC01_write row hm) v

/-- Settles O47: the handlers of the two keyboard reads give the code under a flag, and every write of the page's
second row clears the strobe. -/
theorem keyboardReadsAndStrobe : Obligations.KeyboardReadsAndStrobe := by
  intro c b v hc hms
  refine ⟨fun a h1 h2 => ⟨_, Bus.read_keyboard hc b h1 h2, toNat_keyByte _ hms.keyLatch_lt⟩,
    ⟨_, Bus.read_of_own_row hc b (h := .anyKey) (by decide), toNat_keyByte _ hms.keyLatch_lt⟩,
    fun a h1 h2 => Bus.write_clearStrobe hc b h1 h2 v,
    ⟨_, _, Bus.read_of_own_row hc b (h := .unspecified) (by decide)⟩⟩

/-- Settles O59: the host's key is the low seven bits of its code, and the keyboard read gives it under the strobe it
set. -/
theorem keysArriveInTheLatch : Obligations.KeysArriveInTheLatch := by
  intro s code hc
  have hlatch : (code &&& 0x7F).toNat = code.toNat % 128 := Nat.and_two_pow_sub_one_eq_mod code.toNat 7
  refine ⟨⟨_, hlatch, rfl, _, Bus.read_keyboard hc _ (by decide) (by decide), ?_⟩, rfl⟩
  rw [← hlatch]
  exact toNat_keyByte true (hlatch.trans_lt (Nat.mod_lt _ (by decide)))

end Sys2Proof.Machine
end

section
/-! PROOFS. The discrete drive switches (51_drive.md R380, R395, R396): an access runs the effect of its low nibble on
the selected drive, and a read then returns the byte of that nibble. -/

namespace Sys2Proof.Machine

/-! ## An access by its low nibble -/

theorem driveBase_toNat {base : Word} (h : base = 0xC0E0 ∨ base = 0xC0F0) :
    base.toNat = 0xC0E0 ∨ base.toNat = 0xC0F0 :=
  h.imp (congrArg BitVec.toNat) (congrArg BitVec.toNat)

/-- The address `n` above either base of the drives lies in their row, and its low nibble is `n` (R99). -/
theorem driveSwitch_address {base n : Word} (hbase : base = 0xC0E0 ∨ base = 0xC0F0) (hn : n.toNat < 16) :
    0xC0E0 ≤ (base + n).toNat ∧ (base + n).toNat ≤ 0xC0FF ∧ (base + n).toNat % 16 = n.toNat := by
  have hbase' := driveBase_toNat hbase
  rw [BitVec.toNat_add]
  omega

/-- The low nibbles 0..7 are the phase switches. -/
theorem Bus.driveEffect_phase (c : Cfg) (b : Bus) {n : Nat} (hn : n < 8) (v : Option Byte) :
    b.driveEffect c n v = .ok () (b.setDrive (b.drive.stepPhase c n)) := by
  unfold Bus.driveEffect
  split
  case h_9 => rfl
  all_goals omega

/-- An even low nibble selects no phase (R383). -/
theorem phaseOf_even {n : Nat} (h : n % 2 = 0) : phaseOf n = none := by
  unfold phaseOf
  split
  case h_5 => rfl
  all_goals omega

theorem Bus.setDrive_drive (b : Bus) : b.setDrive b.drive = b := by
  rcases b with ⟨ms, drive1, drive2, selected⟩
  cases selected <;> rfl

section
variable {c : Cfg} (hc : defaultMap c) (b : Bus) {base n : Word} (hbase : base = 0xC0E0 ∨ base = 0xC0F0)
  (hn : n.toNat < 16)
include hc hbase hn

theorem Bus.write_driveSwitch (v : Byte) : b.write c (base + n) v = b.driveEffect c n.toNat (some v) := by
  obtain ⟨hlow, hhigh, hmod⟩ := driveSwitch_address hbase hn
  rw [Bus.write_drive hc b hlow hhigh, Bus.driveWriteAccess, hmod]

theorem Bus.read_driveSwitch {b' : Bus} (heffect : b.driveEffect c n.toNat none = .ok () b') :
    b.read c (base + n) = b'.driveValue n.toNat := by
  obtain ⟨hlow, hhigh, hmod⟩ := driveSwitch_address hbase hn
  rw [Bus.read_drive hc b hlow hhigh, Bus.driveReadAccess, hmod, heffect]
  rfl

/-- A read of an even switch returns the latch that its effect leaves, but for the write-protect sense (R396). -/
theorem Bus.read_driveSwitch_even {b' : Bus} (heffect : b.driveEffect c n.toNat none = .ok () b')
    (heven : n.toNat % 2 = 0) (hsense : n.toNat ≠ 0xE) : b.read c (base + n) = .ok b'.drive.latch b' := by
  rw [Bus.read_driveSwitch hc b hbase hn heffect, Bus.driveValue, if_neg hsense, if_pos heven]

/-- A read of an odd switch returns a free value. -/
theorem Bus.read_driveSwitch_odd {b' : Bus} (heffect : b.driveEffect c n.toNat none = .ok () b')
    (hodd : n.toNat % 2 = 1) : ∃ w k, b.read c (base + n) = .ok w { b' with draws := k } := by
  rw [Bus.read_driveSwitch hc b hbase hn heffect, Bus.driveValue, if_neg (by omega), if_neg (by omega)]
  exact ⟨_, _, rfl⟩

/-- A read of a phase switch: an odd one returns a free value, an even one moves nothing and returns the latch. -/
theorem Bus.read_phaseSwitch (hphase : n.toNat < 8) :
    ∃ w k, b.read c (base + n) = .ok w { b.setDrive (b.drive.stepPhase c n.toNat) with draws := k } ∧
      (n.toNat % 2 = 0 → w = b.drive.latch ∧ k = b.draws) := by
  have heffect := Bus.driveEffect_phase c b hphase none
  rcases Nat.mod_two_eq_zero_or_one n.toNat with heven | hodd
  · have hread := Bus.read_driveSwitch_even hc b hbase hn heffect heven (by omega)
    rw [Drive.stepPhase_of_none c _ (phaseOf_even heven), Bus.setDrive_drive] at hread ⊢
    exact ⟨_, _, hread, fun _ => ⟨rfl, rfl⟩⟩
  · obtain ⟨w, k, hread⟩ := Bus.read_driveSwitch_odd hc b hbase hn heffect hodd
    exact ⟨w, k, hread, fun heven => absurd heven (by omega)⟩

end

/-! ## What an access of a drive switch leaves -/

/-- An access of the drives' addresses is a step of the drive dispatch, but for the count of draws of a read. -/
theorem Bus.driveAccess_step {c : Cfg} (hc : defaultMap c) {b b' : Bus} {a : Word} {v : Byte} (h1 : 0xC0E0 ≤ a.toNat)
    (h2 : a.toNat ≤ 0xC0FF) (h : b.write c a v = .ok () b' ∨ ∃ w, b.read c a = .ok w b') :
    ∃ b1 k, b.DriveStep c b1 ∧ b' = { b1 with draws := k } := by
  obtain hwrite | ⟨w, hread⟩ := h
  · rw [Bus.write_drive hc b h1 h2] at hwrite
    exact ⟨b', b'.draws, Bus.driveEffect_step hwrite, rfl⟩
  · rw [Bus.read_drive hc b h1 h2, Bus.driveReadAccess] at hread
    cases heffect : b.driveEffect c (a.toNat % 16) none with
    | fault => rw [heffect] at hread; cases hread
    | ok u b1 =>
      obtain ⟨w', k, hvalue⟩ := Bus.driveValue_ok b1 (a.toNat % 16)
      rw [heffect, BusRes.bind, hvalue] at hread
      cases hread
      exact ⟨b1, k, Bus.driveEffect_step heffect, rfl⟩

/-- Settles O51: by its low nibble each switch is a case of `driveEffect` and of `driveValue`; every access is a
`DriveStep`, which keeps the other drive, the switches and the segments. -/
theorem driveSwitchesActOnTheSelectedDrive : Obligations.DriveSwitchesActOnTheSelectedDrive := by
  intro c b v base hc hbase
  have hwrite : ∀ n : Word, n.toNat < 16 → b.write c (base + n) v = b.driveEffect c n.toNat (some v) :=
    fun n hn => Bus.write_driveSwitch hc b hbase hn v
  refine ⟨⟨hwrite 8 (by decide), hwrite 9 (by decide), hwrite 10 (by decide), hwrite 11 (by decide),
    hwrite 13 (by decide), hwrite 14 (by decide), hwrite 15 (by decide), ?motorOff, ?selectOne, ?sense,
    Bus.read_driveSwitch_odd hc b hbase (n := 9) (by decide) rfl (by decide),
    Bus.read_driveSwitch_odd hc b hbase (n := 11) (by decide) rfl (by decide), ?latch,
    Bus.read_driveSwitch_odd hc b hbase (n := 15) (by decide) rfl (by decide), fun n hn => ⟨?phaseWrite, ?phaseRead⟩⟩,
    ?frame⟩
  case motorOff =>
    have hread := Bus.read_driveSwitch_even hc b hbase (n := 8) (by decide) rfl (by decide) (by decide)
    rwa [Bus.drive_setDrive] at hread
  case selectOne => exact Bus.read_driveSwitch_even hc b hbase (n := 10) (by decide) rfl (by decide) (by decide)
  case sense =>
    have hread := Bus.read_driveSwitch hc b hbase (n := 14) (by decide) rfl
    rwa [Bus.driveValue, if_pos (by decide), Bus.drive_setDrive] at hread
  case latch =>
    have heffect : b.driveEffect c (13 : Word).toNat none = .ok () b := congrArg (BusRes.ok ()) b.setDrive_drive
    exact Bus.read_driveSwitch_odd hc b hbase (n := 13) (by decide) heffect (by decide)
  case phaseWrite => rw [hwrite n (by omega), Bus.driveEffect_phase c b hn]
  case phaseRead => exact Bus.read_phaseSwitch hc b hbase (by omega) hn
  case frame =>
    intro a b' i h1 h2 hi h
    have hbase' := driveBase_toNat hbase
    obtain ⟨b1, k, hstep, rfl⟩ := Bus.driveAccess_step hc (a := a) (by omega) (by omega) h
    exact ⟨hstep.other i hi, hstep.ms, hstep.mem⟩

end Sys2Proof.Machine
end

section
/-! PROOFS. Load (70_reset_and_hazards.md R434), and accesses outside a segment (20_memory.md R59; 60_exceptions.md
R412). -/

namespace Sys2Proof.Machine

/-! ## The suffix of a file name -/

/-- The text from the last `.`, in lower case. -/
theorem suffix_append_dot {base ext : List Char} (h : '.' ∉ ext) :
    suffix (base ++ '.' :: ext) = '.' :: ext.map Char.toLower := by
  have hdot : (base ++ '.' :: ext).contains '.' = true := by simp
  have hkept : ∀ ch ∈ ext.reverse, (ch != '.') = true := by
    intro ch hch
    rw [bne_iff_ne]
    rintro rfl
    exact h (List.mem_reverse.1 hch)
  rw [suffix, if_pos hdot, List.reverse_append, List.reverse_cons, List.append_assoc,
    List.takeWhile_append_of_pos hkept]
  simp

theorem suffix_of_no_dot {name : List Char} (h : '.' ∉ name) : suffix name = [] :=
  if_neg (by simpa using h)

/-! ## Load -/

section
variable (s : State) {stream : Option (List Byte)} {name : List Char}

/-- A Load that fails is followed by the same machine. -/
theorem State.event_load_error {e : HostError} (h : s.load stream name = .error e) :
    s.event (.load stream name) = .ok s := by
  simp only [State.event, h]

theorem State.event_load_ok {t : State} (h : s.load stream name = .ok t) : s.event (.load stream name) = .ok t := by
  simp only [State.event, h]

end

/-- Settles O57: the suffix is the text after the last dot, and Load is its cases: no type, no stream, no encoding, or
the selected drive loaded. -/
theorem loadPopulatesTheSelectedDrive : Obligations.LoadPopulatesTheSelectedDrive := by
  refine ⟨fun base ext hext => ?_, fun name hname => ?_,
    fun s stream name => ⟨fun htype => ?_, fun type htype => ⟨?_, ?_⟩⟩⟩
  · simp only [imageTypeOf, suffix_append_dot hext, List.cons.injEq, true_and]
  · simp [imageTypeOf, suffix_of_no_dot hname]
  · have hload : s.load stream name = .error .unknownSuffix := by simp only [State.load, htype]
    exact ⟨hload, s.event_load_error hload⟩
  · rintro rfl
    have hload : s.load none name = .error .ioError := by simp only [State.load, htype]
    exact ⟨hload, s.event_load_error hload⟩
  · rintro img rfl
    refine ⟨fun e hencode => ?_, fun data hencode => ?_⟩
    · have hload : s.load (some img) name = .error .badImageLength := by simp only [State.load, htype, hencode]
      exact ⟨hload, s.event_load_error hload⟩
    · have hload : s.load (some img) name =
          .ok { s with bus := s.bus.setDrive (s.bus.drive.loaded type img data) } := by
        simp only [State.load, htype, hencode]
      exact ⟨_, hload, s.event_load_ok hload, rfl⟩

/-! ## Accesses outside a segment -/

theorem Bus.read_outside {c : Cfg} {b : Bus} {a : Word} {g : Segment} {off : Nat} (hoff : c.size g ≤ off)
    (h : b.readTarget c a = .cell g off) : b.read c a = .fault (.segment g) off b := by
  simp only [Bus.read, h, Bus.getCell, if_neg (Nat.not_lt.2 hoff)]

theorem Bus.write_outside {c : Cfg} {b : Bus} {a : Word} {g : Segment} {off : Nat} (hoff : c.size g ≤ off)
    (h : b.writeTarget c a = .cell g off) (v : Byte) : b.write c a v = .fault (.segment g) off b := by
  simp only [Bus.write, h, Bus.setCell, if_neg (Nat.not_lt.2 hoff)]

/-- Settles O58: the bounds check comes before the access, and Process turns the fault into the Faulted status, which
`step` answers with `stuck`. -/
theorem accessOutsideASegmentStopsTheMachine : Obligations.AccessOutsideASegmentStopsTheMachine := by
  refine ⟨fun c b a v g off hoff => ⟨Bus.read_outside hoff, fun h => Bus.write_outside hoff h v⟩,
    fun s site off b hstep => ?_⟩
  have hstuck : step (s.afterFault site off b) = .fault (.stuck site off) := step_of_faulted rfl
  exact ⟨s.afterFault site off b, _, by rw [State.process, hstep], rfl, rfl, rfl, hstuck,
    by rw [State.process, hstuck]⟩

end Sys2Proof.Machine
end

section
/-! PROOFS. The sector codec (50_disk_codec.md R345 to R348, R355, R361): the XOR chain is undone by the same XOR, the
low bit pairs and the high bits of a byte are put together again, and the chain's checksum sees every single bit. -/

namespace Sys2Proof.Machine

/-! ## The disk bytes (R344) -/

/-- A property of all 6-bit groups is one of 64 numbers. -/
theorem forall_group {P : BitVec 6 → Prop} (h : ∀ n : Nat, n < 64 → P (BitVec.ofNat 6 n)) (v : BitVec 6) : P v := by
  have := h v.toNat v.isLt
  simpa using this

theorem gcrInverse_gcrByte : ∀ v : BitVec 6, gcrInverse (gcrByte v) = some v :=
  forall_group (by decide +kernel)

theorem gcrByte_bit7 : ∀ v : BitVec 6, (gcrByte v).getLsbD 7 = true :=
  forall_group (by decide +kernel)

/-- Only the byte of a group has that group as its inverse. -/
theorem gcrByte_of_gcrInverse : ∀ b : Byte, ∀ v ∈ gcrInverse b, gcrByte v = b :=
  forall_byte (by decide +kernel)

theorem dec44_enc44 : ∀ b : Byte, dec44 ((b >>> 1) ||| 0xAA) (b ||| 0xAA) = b :=
  forall_byte (by decide +kernel)

/-! ## The XOR chain (R348, R355) -/

theorem xorChain_length (prev : BitVec 6) (buf : List (BitVec 6)) : (xorChain prev buf).length = buf.length + 1 := by
  induction buf generalizing prev with
  | nil => rfl
  | cons v rest ih => simp [xorChain, ih]

theorem mem_xorChain {prev : BitVec 6} {buf : List (BitVec 6)} {x : Byte} (h : x ∈ xorChain prev buf) :
    ∃ v, x = gcrByte v := by
  induction buf generalizing prev with
  | nil => exact ⟨prev, List.mem_singleton.1 h⟩
  | cons v rest ih =>
    rcases List.mem_cons.1 h with rfl | h
    · exact ⟨_, rfl⟩
    · exact ih h

theorem xor_xor_self (v w : BitVec 6) : v ^^^ w ^^^ w = v := by
  rw [BitVec.xor_assoc, BitVec.xor_self, BitVec.xor_zero]

/-- A byte that is not the last: its group, and then the rest of the chain. -/
theorem xorUnchain_cons {prev v : BitVec 6} {p : Byte} {rest : List Byte} (hp : gcrInverse p = some v)
    (hrest : rest ≠ []) :
    xorUnchain prev (p :: rest) = (xorUnchain (v ^^^ prev) rest).map fun buf => (v ^^^ prev) :: buf := by
  cases rest with
  | nil => exact absurd rfl hrest
  | cons q rest => simp only [xorUnchain, hp]

theorem xorUnchain_xorChain (prev : BitVec 6) (buf : List (BitVec 6)) :
    xorUnchain prev (xorChain prev buf) = some buf := by
  induction buf generalizing prev with
  | nil => simp [xorChain, xorUnchain, gcrInverse_gcrByte]
  | cons v rest ih =>
    have hrest : xorChain v rest ≠ [] := List.ne_nil_of_length_eq_add_one (xorChain_length v rest)
    rw [xorChain, xorUnchain_cons (gcrInverse_gcrByte _) hrest, xor_xor_self, ih, Option.map_some]

/-! ## The buffer of a sector (R347, R355) -/

theorem sectorBuffer_length (d : List Byte) : (sectorBuffer d).length = 342 := by simp [sectorBuffer]

theorem sectorBuffer_low (d : List Byte) {i : Nat} (h : i < 86) : (sectorBuffer d).getD i 0 = lowGroup d i := by
  simp [sectorBuffer, List.getElem?_append, h]

theorem sectorBuffer_high (d : List Byte) {k : Nat} (h : k < 256) :
    (sectorBuffer d).getD (86 + k) 0 = highGroup d k := by
  simp [sectorBuffer, List.getElem?_append, h]

/-- The two low bits of a byte, swapped. -/
def lowPair (x : Byte) : BitVec 2 := (rev2 x).setWidth 2

/-- Three bit pairs in a group, the first lowest. -/
def packPairs (u v w : BitVec 2) : BitVec 6 :=
  (u.setWidth 8 ||| (v.setWidth 8 <<< 2) ||| (w.setWidth 8 <<< 4) : Byte).setWidth 6

theorem rev2_and_three : ∀ x : Byte, rev2 (x &&& 3) = (lowPair x).setWidth 8 :=
  forall_byte (by decide +kernel)

theorem packPairs_pair : ∀ u v w : BitVec 2,
    ((packPairs u v w).setWidth 8 >>> 0 : Byte) &&& 3 = u.setWidth 8 ∧
    ((packPairs u v w).setWidth 8 >>> 2 : Byte) &&& 3 = v.setWidth 8 ∧
    ((packPairs u v w).setWidth 8 >>> 4 : Byte) &&& 3 = w.setWidth 8 := by
  decide +kernel

/-- A byte is its six high bits and its bit pair, swapped back. -/
theorem join_high_lowPair : ∀ x : Byte,
    (((x >>> 2).setWidth 6).setWidth 8 <<< 2 : Byte) ||| rev2 ((lowPair x).setWidth 8) = x :=
  forall_byte (by decide +kernel)

theorem lowGroup_eq (d : List Byte) (i : Nat) :
    lowGroup d i = packPairs (lowPair (d.getD i 0)) (lowPair (d.getD (i + 86) 0))
      (if i < 84 then lowPair (d.getD (i + 172) 0) else 0) := by
  rw [lowGroup, packPairs, rev2_and_three, rev2_and_three, rev2_and_three]
  split <;> rfl

/-- The bit pair of byte `k` is pair `k / 86` of group `k % 86`. -/
theorem lowGroup_pair (d : List Byte) {k : Nat} (h : k < 256) :
    ((lowGroup d (k % 86)).setWidth 8 >>> (2 * (k / 86)) : Byte) &&& 3 = (lowPair (d.getD k 0)).setWidth 8 := by
  rw [lowGroup_eq]
  obtain ⟨h0, h1, h2⟩ := packPairs_pair (lowPair (d.getD (k % 86) 0)) (lowPair (d.getD (k % 86 + 86) 0))
    (if k % 86 < 84 then lowPair (d.getD (k % 86 + 172) 0) else 0)
  have hgroup : (k / 86 = 0 ∧ k % 86 = k) ∨ (k / 86 = 1 ∧ k % 86 + 86 = k) ∨
      (k / 86 = 2 ∧ k % 86 + 172 = k ∧ k % 86 < 84) := by omega
  obtain ⟨hq, hk⟩ | ⟨hq, hk⟩ | ⟨hq, hk, hlt⟩ := hgroup
  · rw [hq, h0, hk]
  · rw [hq, h1, hk]
  · rw [hq, h2, if_pos hlt, hk]

theorem sectorByte_sectorBuffer (d : List Byte) {k : Nat} (h : k < 256) :
    sectorByte (sectorBuffer d) k = d.getD k 0 := by
  rw [sectorByte, sectorBuffer_high d h, sectorBuffer_low d (Nat.mod_lt k (by decide)), lowGroup_pair d h, highGroup,
    join_high_lowPair]

/-! ## The round trip -/

theorem enc62_length (d : List Byte) : (enc62 d).length = 343 := by
  rw [enc62, xorChain_length, sectorBuffer_length]

theorem xorUnchain_enc62 (d : List Byte) : xorUnchain 0 (enc62 d) = some (sectorBuffer d) :=
  xorUnchain_xorChain 0 (sectorBuffer d)

theorem dec62_enc62 {d : List Byte} (h : d.length = 256) : dec62 (enc62 d) = some d := by
  rw [dec62, if_pos (enc62_length d), xorUnchain_enc62, Option.map_some]
  refine congrArg some (List.ext_getElem (by simp [h]) fun k hk hk' => ?_)
  rw [List.getElem_map, List.getElem_range, sectorByte_sectorBuffer d (by simpa using hk), List.getElem_eq_getD]

/-- Settles O52: the chain, the groups and the byte pairs are each undone by their inverse. -/
theorem sectorCodecRoundTrip : Obligations.SectorCodecRoundTrip := by
  refine ⟨fun b => ⟨_, _, rfl, dec44_enc44 b⟩, fun d hd => ⟨enc62_length d, fun x hx => ?_, dec62_enc62 hd⟩⟩
  obtain ⟨v, rfl⟩ := mem_xorChain hx
  exact gcrByte_bit7 v

/-! ## A flipped bit -/

/-- The exclusive or of the groups of a data field, a byte off the table counting as 0. -/
def groupSum : List Byte → BitVec 6
  | [] => 0
  | b :: rest => (gcrInverse b).getD 0 ^^^ groupSum rest

/-- A chain that decodes has every byte on the table, and its groups cancel out what stood before it. -/
theorem xorUnchain_eq_some {prev : BitVec 6} {p : List Byte} {buf : List (BitVec 6)}
    (h : xorUnchain prev p = some buf) : (∀ b ∈ p, (gcrInverse b).isSome) ∧ groupSum p = prev := by
  induction p generalizing prev buf with
  | nil => cases h
  | cons b rest ih =>
    cases hb : gcrInverse b with
    | none => cases rest <;> simp [xorUnchain, hb] at h
    | some v =>
      by_cases hrest : rest = []
      · subst hrest
        simp only [xorUnchain, hb] at h
        split at h
        case isTrue hsum => exact ⟨by simp [hb], by simpa [groupSum, hb] using BitVec.xor_eq_zero_iff.1 hsum⟩
        case isFalse => cases h
      · rw [xorUnchain_cons hb hrest] at h
        obtain ⟨buf', hbuf', -⟩ := Option.map_eq_some_iff.1 h
        obtain ⟨htable, hsum⟩ := ih hbuf'
        refine ⟨List.forall_mem_cons.2 ⟨by simp [hb], htable⟩, ?_⟩
        rw [groupSum, hsum, hb, Option.getD_some, ← BitVec.xor_assoc, BitVec.xor_self, BitVec.zero_xor]

/-- Replacing one byte by one of another group changes the sum. -/
theorem groupSum_set {p : List Byte} {j : Nat} (hj : j < p.length) {b : Byte}
    (h : groupSum (p.set j b) = groupSum p) : (gcrInverse b).getD 0 = (gcrInverse p[j]).getD 0 := by
  induction p generalizing j with
  | nil => cases hj
  | cons a rest ih =>
    cases j with
    | zero => exact (BitVec.xor_left_inj _).1 h
    | succ j => exact ih (Nat.lt_of_succ_lt_succ hj) ((BitVec.xor_right_inj _).1 h)

/-- A data field and the same with one byte replaced do not both decode. -/
theorem eq_of_xorUnchain_set {prev : BitVec 6} {p : List Byte} {j : Nat} (hj : j < p.length) {b : Byte}
    {buf buf' : List (BitVec 6)} (h : xorUnchain prev p = some buf) (h' : xorUnchain prev (p.set j b) = some buf') :
    b = p[j] := by
  obtain ⟨htable, hsum⟩ := xorUnchain_eq_some h
  obtain ⟨htable', hsum'⟩ := xorUnchain_eq_some h'
  have hgroup := groupSum_set hj (hsum'.trans hsum.symm)
  obtain ⟨v, hv⟩ := Option.isSome_iff_exists.1 (htable p[j] (List.getElem_mem hj))
  obtain ⟨w, hw⟩ := Option.isSome_iff_exists.1 (htable' b (List.mem_set hj b))
  rw [hv, hw, Option.getD_some, Option.getD_some] at hgroup
  rw [← gcrByte_of_gcrInverse b w hw, ← gcrByte_of_gcrInverse p[j] v hv, hgroup]

theorem xor_one_shiftLeft_ne (b : Byte) {k : Nat} (h : k < 8) : b ^^^ (1 <<< k) ≠ b := by
  have hone : ∀ k : Nat, k < 8 → ((1 <<< k : Nat) : Byte) ≠ 0 := by decide
  intro heq
  exact hone k h ((BitVec.xor_right_inj b).1 (heq.trans BitVec.xor_zero.symm))

/-- Settles O54: of two data fields that differ in one byte at most one decodes, and the encoded one does. -/
theorem singleBitFlipIsDetected : Obligations.SingleBitFlipIsDetected := by
  intro d j k _ hj hk
  have hj' : j < (enc62 d).length := by rwa [enc62_length]
  rw [dec62, if_pos (by rw [List.length_set, enc62_length]), ← List.getElem_eq_getD (h := hj'), Option.map_eq_none_iff,
    Option.eq_none_iff_forall_ne_some]
  intro buf hbuf
  exact xor_one_shiftLeft_ne _ hk (eq_of_xorUnchain_set hj' (xorUnchain_enc62 d) hbuf)

end Sys2Proof.Machine
end

section
/-! PROOFS. The image codec (50_disk_codec.md R350 to R360): a track is a sequence of sectors of one length, an image
one of tracks, so each part is found by its position and decoded back. -/

namespace Sys2Proof.Machine

/-! ## Parts of equal length -/

/-- The parts of a list that is cut into parts of one length. -/
theorem flatMap_slice (l : List Byte) (n m : Nat) :
    ((List.range m).flatMap fun k => slice l (k * n) n) = l.take (m * n) := by
  induction m with
  | zero => simp
  | succ m ih =>
    rw [List.range_succ, List.flatMap_append, ih, List.flatMap_singleton, slice, Nat.succ_mul, List.take_add]

theorem length_flatMap_range {f : Nat → List Byte} {n : Nat} (hf : ∀ k, (f k).length = n) (m : Nat) :
    ((List.range m).flatMap f).length = m * n := by
  simp [List.length_flatMap, hf]

/-- Part `k` of parts of one length lies at `k * n`, after what stands before all of them. -/
theorem slice_flatMap_range {f : Nat → List Byte} {n m k : Nat} (hf : ∀ j, (f j).length = n) (hk : k < m) :
    slice ((List.range m).flatMap f) (k * n) n = f k := by
  obtain ⟨r, rfl⟩ : ∃ r, m = k + 1 + r := ⟨m - (k + 1), by omega⟩
  rw [List.range_add, List.range_succ, List.append_assoc, List.flatMap_append, slice,
    List.drop_left' (length_flatMap_range hf k), List.flatMap_append, List.flatMap_singleton, List.take_left' (hf k)]

/-- A slice that begins after the first part of a list. -/
theorem slice_append (pre l : List Byte) (off n : Nat) : slice (pre ++ l) (pre.length + off) n = slice l off n := by
  rw [slice, ← List.drop_drop, List.drop_left, slice]

/-- A slice inside a slice. -/
theorem slice_slice {l : List Byte} {a b off n : Nat} (h : off + n ≤ b) :
    slice (slice l a b) off n = slice l (a + off) n := by
  rw [slice, slice, slice, List.drop_take, List.take_take, List.drop_drop, Nat.min_eq_left (by omega)]

/-! ## Sectors -/

theorem encodeSector_length (vol trk ps : Byte) (d : List Byte) : (encodeSector vol trk ps d).length = 413 := by
  simp [encodeSector, addrPrologue, addrField, enc44, addrEpilogue, gap2, dataPrologue, enc62_length, dataEpilogue,
    gap3]

/-- The data field begins 23 bytes into its sector (R356). -/
theorem slice_encodeSector (vol trk ps : Byte) (d : List Byte) :
    slice (encodeSector vol trk ps d) 23 343 = enc62 d := by
  have hsector : encodeSector vol trk ps d =
      (addrPrologue ++ addrField vol trk ps ++ addrEpilogue ++ List.replicate gap2 syncByte ++ dataPrologue) ++
        (enc62 d ++ (dataEpilogue ++ List.replicate gap3 syncByte)) := by
    simp [encodeSector]
  have hbefore : (addrPrologue ++ addrField vol trk ps ++ addrEpilogue ++ List.replicate gap2 syncByte ++
      dataPrologue).length = 23 := rfl
  rw [hsector, slice, List.drop_left' hbefore, List.take_left' (enc62_length d)]

/-! ## Tracks -/

/-- The logical sector of a physical one in a logical track (R352, R353). -/
def logicalSector (type : ImageType) (l : List Byte) (ps : Nat) : List Byte :=
  slice l ((sectorOrder type).getD ps 0 * 256) 256

theorem encodeTrack_length (type : ImageType) (trk : Byte) (l : List Byte) :
    (encodeTrack type trk l).length = 6656 := by
  rw [encodeTrack, List.length_append, length_flatMap_range fun _ => encodeSector_length ..]
  rfl

theorem sectorData_encodeTrack (type : ImageType) (trk : Byte) (l : List Byte) {ps : Nat} (h : ps < 16) :
    sectorData (encodeTrack type trk l) ps = enc62 (logicalSector type l ps) := by
  have hgap : gap1 + ps * physSectorLen + 23 = (List.replicate gap1 syncByte).length + (ps * 413 + 23) := by
    simp [physSectorLen, Nat.add_assoc]
  rw [sectorData, hgap, encodeTrack, slice_append, ← slice_slice (b := 413) (by decide),
    slice_flatMap_range (fun _ => encodeSector_length ..) h, slice_encodeSector]
  rfl

theorem decodeSectors_eq_ok {p : List Byte} {f : Nat → List Byte} {pss : List Nat}
    (h : ∀ ps ∈ pss, dec62 (sectorData p ps) = some (f ps)) : decodeSectors p pss = .ok (pss.map f) := by
  induction pss with
  | nil => rfl
  | cons ps rest ih =>
    obtain ⟨hps, hrest⟩ := List.forall_mem_cons.1 h
    rw [decodeSectors, hps, ih hrest]
    rfl

theorem sectorOrder_idxOf (type : ImageType) : ∀ ls < 16,
    (sectorOrder type).idxOf ls < 16 ∧ (sectorOrder type).getD ((sectorOrder type).idxOf ls) 0 = ls := by
  cases type <;> decide

theorem sectorOrder_lt (type : ImageType) : ∀ ps < 16, (sectorOrder type).getD ps 0 < 16 := by
  cases type <;> decide

theorem slice_length {l : List Byte} {off n : Nat} (h : off + n ≤ l.length) : (slice l off n).length = n := by
  simp [slice]; omega

/-- A logical track is decoded back from its physical one. -/
theorem decodeTrack_encodeTrack (type : ImageType) (trk : Byte) {l : List Byte} (hl : l.length = 4096) :
    decodeTrack type (encodeTrack type trk l) = .ok l := by
  have hsectors : decodeSectors (encodeTrack type trk l) (List.range 16) =
      .ok ((List.range 16).map (logicalSector type l)) := decodeSectors_eq_ok fun ps hps => by
    have hlt := List.mem_range.1 hps
    have horder := sectorOrder_lt type ps hlt
    rw [sectorData_encodeTrack type trk l hlt]
    exact dec62_enc62 (slice_length (by omega))
  have hlogical : ∀ ls ∈ List.range 16,
      ((List.range 16).map (logicalSector type l)).getD ((sectorOrder type).idxOf ls) [] = slice l (ls * 256) 256 := by
    intro ls hls
    obtain ⟨hidx, horder⟩ := sectorOrder_idxOf type ls (List.mem_range.1 hls)
    rw [List.getD_eq_getElem _ _ (by simpa using hidx), List.getElem_map, List.getElem_range, logicalSector, horder]
  rw [decodeTrack, hsectors, Except.map, List.flatMap_congr hlogical, flatMap_slice, List.take_of_length_le (by omega)]

/-! ## Images -/

theorem decodeTracks_eq_ok {type : ImageType} {phys : List Byte} {f : Nat → List Byte} {tracks : List Nat}
    (h : ∀ t ∈ tracks, decodeTrack type (slice phys (t * physTrackLen) physTrackLen) = .ok (f t)) :
    decodeTracks type phys tracks = .ok (tracks.flatMap f) := by
  induction tracks with
  | nil => rfl
  | cons t rest ih =>
    obtain ⟨ht, hrest⟩ := List.forall_mem_cons.1 h
    rw [decodeTracks, ht, ih hrest]
    rfl

/-- The physical image of a logical one. -/
def encodeTracks (type : ImageType) (img : List Byte) : List Byte :=
  (List.range trackCount).flatMap fun k => encodeTrack type (BitVec.ofNat 8 k) (slice img (k * 4096) 4096)

theorem encodeTracks_length (type : ImageType) (img : List Byte) : (encodeTracks type img).length = physImageLen :=
  length_flatMap_range (fun _ => encodeTrack_length ..) trackCount

theorem decodeTracks_encodeTracks (type : ImageType) {img : List Byte} (h : img.length = logicalImageLen) :
    decodeTracks type (encodeTracks type img) (List.range trackCount) = .ok img := by
  rw [logicalImageLen] at h
  have htracks : ∀ t ∈ List.range trackCount,
      decodeTrack type (slice (encodeTracks type img) (t * physTrackLen) physTrackLen) =
        .ok (slice img (t * 4096) 4096) := fun t ht => by
    have hlt := List.mem_range.1 ht
    rw [encodeTracks, physTrackLen, slice_flatMap_range (fun _ => encodeTrack_length ..) hlt]
    rw [trackCount] at hlt
    exact decodeTrack_encodeTrack type _ (slice_length (by omega))
  rw [decodeTracks_eq_ok htracks, flatMap_slice, List.take_of_length_le (by rw [trackCount]; omega)]

/-- Settles O53: a Nib image is the physical image itself; the other two types encode and decode track by track. -/
theorem imageCodecRoundTrip : Obligations.ImageCodecRoundTrip := by
  intro type img
  have hdecode : ∀ phys : List Byte, phys.length ≠ 232960 → decodeImage type phys = .error .badImageLength :=
    fun phys h => if_neg h
  cases type with
  | nib => exact ⟨fun h => ⟨img, if_pos h, h, if_pos h⟩, fun h => if_neg h, hdecode⟩
  | dos | proDOS =>
    exact ⟨fun h => ⟨_, if_pos h, encodeTracks_length _ img,
      (if_pos (encodeTracks_length _ img)).trans (decodeTracks_encodeTracks _ h)⟩, fun h => if_neg h, hdecode⟩

end Sys2Proof.Machine
end
